-- ==== Sys2Proof/Word.lean ====
section
/-! DEFINITION. The widths of the machine's values (spec/00_scope.md R5, R6, R8). Every value is unsigned (R8). -/

namespace Sys2Proof

/-- A digest word, working variable or schedule word: `WORD_BITS` = 32 (R5). -/
abbrev Word := BitVec 32

/-- A byte of the message, of the block buffer or of the digest. -/
abbrev Byte := BitVec 8

/-- A command word: `CMD_BITS` = 10 (R6). -/
abbrev CmdWord := BitVec 10

/-- The code of a sequencer phase: `PHASE_BITS` = 3 (R6). -/
abbrev PhaseCode := BitVec 3

/-- The round index `t`: `T_BITS` = 7 (R6). -/
abbrev RoundIndex := BitVec 7

/-- The occupancy counter `block_index`: `BI_BITS` = 7 (R6). -/
abbrev BlockIndex := BitVec 7

/-- The length counter `bit_length`: `LEN_BITS` = 64 (R5). -/
abbrev BitLength := BitVec 64

end Sys2Proof
end

