-- ==== Sys2Proof/Config.lean ====
section
/-! DEFINITION. The free values: what the data registers hold after a power-on step (spec/70_reset_and_hazards.md
R156: "the hardware may leave them, clear them or scramble them"; spec/10_state.md R43). None has a body, so nothing in
Lean can evaluate one or prove a value of one. The argument numbers the power-on steps of a run, so two power-on steps need not agree.
The spec's other parameters (R5, R6) are fixed and stand where they are used. See log entry 4. -/

namespace Sys2Proof.Config

/-- `H[0..4]` after the n-th power-on step (R156; log entry 4). -/
opaque powerOnH : Nat → Vector Word 5

/-- `A` to `E`, in that order, after the n-th power-on step (R156; log entry 4). -/
opaque powerOnWork : Nat → Vector Word 5

/-- `W[0..79]` after the n-th power-on step (R156; log entry 4). -/
opaque powerOnW : Nat → Vector Word 80

/-- `t` after the n-th power-on step, any of the 128 values (R156; log entry 4). -/
opaque powerOnT : Nat → RoundIndex

/-- `buf[0..63]` after the n-th power-on step (R156; log entry 4). -/
opaque powerOnBuf : Nat → Vector Byte 64

/-- `block_index` after the n-th power-on step, any of the 128 values (R156; log entry 4). -/
opaque powerOnBlockIndex : Nat → BlockIndex

/-- `bit_length` after the n-th power-on step (R156; log entry 4). -/
opaque powerOnBitLength : Nat → BitLength

end Sys2Proof.Config
end

