-- ==== Sys2Proof/Machine/State.lean ====
section
/-! DEFINITION. The complete state of one engine (spec/10_state.md R20) as plain data, the host's coming input (spec/30_encoding.md
R65, R66), why a step can stop, and the state right after power-on reset (R42, R43). Registers keep the spec's names. -/

namespace Sys2Proof.Machine

/-- The sequencer's phase (R28). The unused code 7 cannot be written down (spec/93_implementation_defined.md U3; log entry 5). -/
inductive Phase
  | idle
  | load
  | round
  | accum
  | zfill
  | len
  | clear
deriving DecidableEq, Repr

/-- The progress of a finalization, register `fin` (R29). The unused code 3 cannot be written down (U3; log entry 5). -/
inductive Finish
  | none
  | pad
  | last
deriving DecidableEq, Repr

/-- The lifecycle register `life` (R30); all four codes are used. -/
inductive Life
  | uninitialized
  | reset
  | absorbing
  | finalized
deriving DecidableEq, Repr

/-- The error register `err` (R31, R139). The unused code 3 cannot be written down (U3; log entry 5). -/
inductive Err
  | none
  | usage
  | inputTooLarge
deriving DecidableEq, Repr

/-- The working variables `A` to `E` (R22). -/
structure Working where
  A : Word
  B : Word
  C : Word
  D : Word
  E : Word
deriving DecidableEq, Repr

/-- The bytes of the block buffer that differ from what an unlisted offset reads as, by rising offset (R24, R46). -/
abbrev Memory := List Host.Cell

/-- What the host does on the input ports at one or more coming edges (R65, R66; log entry 1). -/
inductive HostEvent
  /-- `cmd_valid` = 1 with `cmd` = `w`, kept presented until the edge that accepts it (R66 case c, R162). -/
  | present (w : CmdWord)
  /-- `cmd_valid` = 1 with `cmd` = `w` at the next edge only: accepted there or withdrawn (R66 case c, R162). -/
  | offer (w : CmdWord)
  /-- `cmd_valid` = 0 and `rst` = 0 at the next edge (R66 case b). -/
  | quiet
  /-- `rst` = 1 at the next edge (R156). -/
  | powerOn
deriving DecidableEq, Repr

/-- The state. All fields but the last two are the spec's (R20); INVENTORY.md lists each with its rule and reset value. -/
structure State where
  /-- The digest words `H[0..4]` (R21). -/
  H : Vector Word 5
  /-- The working variables `A` to `E` (R22). -/
  work : Working
  /-- The message schedule `W[0..79]` (R23). -/
  W : Vector Word 80
  /-- The round index (R27). -/
  t : RoundIndex
  /-- The block buffer `buf[0..63]` (R24). -/
  buf : Memory
  /-- The occupancy counter `block_index` (R25). -/
  blockIndex : BlockIndex
  /-- The length counter `bit_length` (R26). -/
  bitLength : BitLength
  /-- The sequencer's phase (R28). -/
  phase : Phase
  /-- The progress of a finalization (R29). -/
  fin : Finish
  /-- The lifecycle (R30). -/
  life : Life
  /-- The recorded error (R31). -/
  err : Err
  /-- The model's own: what the host will do on the input ports, in order (log entry 1). -/
  host : List HostEvent
  /-- The model's own: how many power-on steps there have been; it numbers the free values (log entry 4). -/
  powerOns : Nat
deriving DecidableEq, Repr

/-- Why the model stops. None of these can happen in a state that meets `Sys2Proof.Safety.Inv`; each stands for a register value
the spec says never occurs (U4: "refuse by bounded types ..., or fault"). -/
inductive Fault
  /-- Raised by an INPUT or RESULT accept whose `block_index` is `offset`, 64 or more in phase IDLE: the buffer has no such byte
  (R45, R33). Safe: the model stops where the spec gives the hardware no behaviour. -/
  | bufferOffset (offset : Nat)
  /-- Raised in phase ROUND by the step, and by a ROUND micro-operation, with `t` of 80 or more: no such round (R72, R27). Safe: the
  model stops where the spec gives the hardware no behaviour. -/
  | roundIndex (t : RoundIndex)
  /-- Raised by an INPUT accept whose add of 8 would wrap `bit_length`, which holds `bits`, no multiple of 8 (R13: "The addition
  never wraps"; R26). Safe: the model stops where the spec gives the hardware no behaviour. -/
  | lengthWrap (bits : BitLength)
deriving DecidableEq, Repr

/-- Why the model has no meaning for an instruction. -/
inductive Refusal
  /-- Raised by `exec`'s arm of an instruction that has no meaning yet; no arm uses it now. Safe: the model stops. -/
  | notModelled (mnemonic : String)
deriving DecidableEq, Repr

/-- The state right after power-on reset. `phase`, `fin`, `life` and `err` are the spec's (R42). The data registers are unspecified
there (R43) and hold the values of log entries 2 and 3, zero each (DESIGN CHOICE, unsafe); the host presents nothing (log entry 11). -/
def State.reset : State where
  H := Vector.replicate 5 0#32
  work := { A := 0#32, B := 0#32, C := 0#32, D := 0#32, E := 0#32 }
  W := Vector.replicate 80 0#32
  t := 0#7
  buf := []
  blockIndex := 0#7
  bitLength := 0#64
  phase := .idle
  fin := .none
  life := .uninitialized
  err := .none
  host := []
  powerOns := 0

end Sys2Proof.Machine
end

