-- ==== Sys2Proof/Machine/Memory.lean ====
section
/-! DEFINITION. The named operations over the block buffer (spec/20_memory.md R45 to R47, R50, R51). The buffer is a list of
(offset, byte) pairs in one canonical form: offsets strictly rising and below 64, no entry equal to what an unlisted offset reads
as. An offset of 64 or more does not exist; the operations that take an offset from a register check it (Ops.lean). -/

namespace Sys2Proof.Machine

/-- The size of the block buffer, `BLOCK_BYTES` = 64 (R5). -/
abbrev blockBytes : Nat := 64

/-- What an unlisted offset reads as: 0x00, what CLEAR writes (R122) and, at power-on, log entry 3. -/
abbrev Memory.unlisted : Byte := 0#8

/-- Every offset is at least `lo` and below 64, offsets rise strictly, no byte is `Memory.unlisted`. -/
def Memory.wfFrom (lo : Nat) (m : Memory) : Bool :=
  match m with
  | [] => true
  | (k, b) :: rest => decide (lo ≤ k) && decide (k < blockBytes) && decide (b ≠ Memory.unlisted) && Memory.wfFrom (k + 1) rest

/-- The canonical form. -/
def Memory.wf (m : Memory) : Bool := Memory.wfFrom 0 m

/-- `buf[k]` (R46): no side effect (R56). -/
def Memory.read (m : Memory) (k : Nat) : Byte :=
  match m with
  | [] => Memory.unlisted
  | (a, b) :: rest => if a = k then b else Memory.read rest k

/-- `buf[k] <- b` (R51, `MemWrite(k, 1, b)`), keeping the canonical form. -/
def Memory.write (m : Memory) (k : Nat) (b : Byte) : Memory :=
  match m with
  | [] => if b = Memory.unlisted then [] else [(k, b)]
  | (a, c) :: rest =>
    if k < a then (if b = Memory.unlisted then (a, c) :: rest else (k, b) :: (a, c) :: rest)
    else if k = a then (if b = Memory.unlisted then rest else (a, b) :: rest)
    else (a, c) :: Memory.write rest k b

/-- `buf[k + i] <- bytes[i]` for every byte of the list, in order of offset. -/
def Memory.writeBytes (m : Memory) (k : Nat) (bytes : List Byte) : Memory :=
  match bytes with
  | [] => m
  | b :: rest => Memory.writeBytes (m.write k b) (k + 1) rest

/-- `for k in lo..hi-1: buf[k] <- 0x00`; nothing when `hi` is not above `lo` (R9, R118). -/
def Memory.zeroFill (m : Memory) (lo hi : Nat) : Memory := m.writeBytes lo (List.replicate (hi - lo) 0x00#8)

/-- The 64 bytes of the buffer in order of offset (R46). -/
def Memory.block (m : Memory) : Vector Byte 64 := Vector.ofFn fun k => m.read k.val

/-- The buffer that holds the 64 bytes of `block`. -/
def Memory.ofBlock (block : Vector Byte 64) : Memory := Memory.writeBytes [] 0 block.toList

end Sys2Proof.Machine
end

