-- ==== Sys2Proof/Machine/Operands.lean ====
section
/-! DEFINITION. The packer and the unpackers between bytes and words, big-endian with no switch (spec/20_memory.md R48 to R53), and
the multi-byte buffer accesses built from them. The one operand of a command word, INPUT's byte, is `dataField` (Decode.lean,
spec/30_encoding.md R69). -/

namespace Sys2Proof.Machine

/-- `Pack32(b0, b1, b2, b3) = b0 ++ b1 ++ b2 ++ b3`: `b0` becomes bits [31:24] (R49). -/
def pack32 (b0 b1 b2 b3 : Byte) : Word := b0 ++ b1 ++ b2 ++ b3

/-- `Unpack32(w, k) = w[31-8k : 24-8k]`, byte k of `w` counted from the most significant, k in 0..3 (R52). -/
def unpack32 (w : Word) (k : Fin 4) : Byte := w.extractLsb' (24 - 8 * k.val) 8

/-- `Unpack64(L, k) = L[63-8k : 56-8k]`, byte k of `L` counted from the most significant, k in 0..7 (R53). -/
def unpack64 (L : BitLength) (k : Fin 8) : Byte := L.extractLsb' (56 - 8 * k.val) 8

/-- `MemRead(k, 1)` (R50). -/
def Memory.read8 (m : Memory) (k : Nat) : Byte := m.read k

/-- `MemRead(k, 4)` (R50), which for k = 4j is word j of the block (R49). -/
def Memory.read32 (m : Memory) (k : Nat) : Word := pack32 (m.read k) (m.read (k + 1)) (m.read (k + 2)) (m.read (k + 3))

/-- `MemRead(k, 8)` (R50). -/
def Memory.read64 (m : Memory) (k : Nat) : BitLength := m.read32 k ++ m.read32 (k + 4)

/-- `MemWrite(k, 1, b)` (R51). -/
def Memory.write8 (m : Memory) (k : Nat) (b : Byte) : Memory := m.write k b

/-- `MemWrite(k, 8, v)`: the most significant byte of `v` goes to the lowest offset (R51, R53). -/
def Memory.write64 (m : Memory) (k : Nat) (v : BitLength) : Memory :=
  m.writeBytes k ((List.finRange 8).map (unpack64 v))

end Sys2Proof.Machine
end

