-- ==== Sys2Proof/Machine/Ops.lean ====
section
/-! DEFINITION. The operations the instructions share: word arithmetic (spec/00_scope.md R10 to R12), the wired constants (R5), the
handshake's accept (spec/30_encoding.md R66), raising an error and leaving it (spec/60_exceptions.md R142 to R147), storing the next
byte (spec/41_ingestion.md R86, spec/43_finalization.md R115), the power-on step (spec/70_reset_and_hazards.md R156). -/

namespace Sys2Proof.Machine

/-- The answer of a meaning and of a step. -/
abbrev Answer := Host.Outcome State Fault Refusal

/-- Go on with `f` from the next state; a fault or a refusal stays what it is. -/
def andThen (o : Answer) (f : State → Answer) : Answer :=
  match o with
  | .next s => f s
  | .fault r => .fault r
  | .refused r => .refused r

/-! ## Word arithmetic -/

/-- `ADD32(a, b) = (a + b) mod 2^32` (R10). -/
def add32 (a b : Word) : Word := a + b

/-- `ROTL32(x, n)` for 1 <= n <= 31 (R11). Other amounts never occur; they rotate by n mod 32 here (U5; log entry 12). -/
def rotl32 (x : Word) (n : Nat) : Word := x.rotateLeft n

/-! ## Constants -/

/-- `IV[0..4]` (R5). -/
def iv : Vector Word 5 := #v[0x67452301#32, 0xEFCDAB89#32, 0x98BADCFE#32, 0x10325476#32, 0xC3D2E1F0#32]

/-- `K[0]`, the round constant of rounds 0 to 19 (R5, R96). -/
def k0 : Word := 0x5A827999#32

/-- `K[1]`, the round constant of rounds 20 to 39 (R5, R97). -/
def k1 : Word := 0x6ED9EBA1#32

/-- `K[2]`, the round constant of rounds 40 to 59 (R5, R98). -/
def k2 : Word := 0x8F1BBCDC#32

/-- `K[3]`, the round constant of rounds 60 to 79 (R5, R99). -/
def k3 : Word := 0xCA62C1D6#32

/-- The terminator byte of the padding, `PAD_BYTE` (R5, R115). -/
def padByte : Byte := 0x80#8

/-- The offset of the length trailer, `TRAILER_OFFSET` = 56 (R5). -/
abbrev trailerOffset : Nat := 56

/-- The largest value `bit_length` reaches, 2^64 - 8 (R26, R88). -/
def maxBitLength : BitLength := 0xFFFFFFFFFFFFFFF8#64

/-! ## The handshake -/

/-- What a command does at an edge where the host presents it: its accept step when `phase` = IDLE; otherwise it "is not consumed
and has no effect" (R66 cases a and c; log entry 8). -/
def whenReady (s : State) (acceptStep : State → Answer) : Answer :=
  match s.phase with
  | .idle => acceptStep s
  | .load => .next s
  | .round => .next s
  | .accum => .next s
  | .zfill => .next s
  | .len => .next s
  | .clear => .next s

/-! ## Errors -/

/-- `raise <Error>`: `err <- code` "and nothing else" (R143). -/
def raiseError (s : State) (e : Err) : State := { s with err := e }

/-- The return from the error state, part of RESET (R146, R80): `err <- NONE`. -/
def clearError (s : State) : State := { s with err := .none }

/-- `life` is RESET or ABSORBING, where INPUT and RESULT are legal (R89, R114). -/
def lifeLegal (l : Life) : Bool :=
  match l with
  | .uninitialized => false
  | .reset => true
  | .absorbing => true
  | .finalized => false

/-- What the tests of an INPUT or RESULT accept decide (R142). -/
inductive Screening
  /-- An error is recorded already: refused, nothing changes (R142 test 1, R145). -/
  | silent
  /-- This condition is raised (R142 tests 2 and 3). -/
  | raises (e : Err)
  /-- No test refuses: execute (R142 case 4). -/
  | passes
deriving DecidableEq, Repr

/-- Tests 1 and 2 of R142, in that order, shared by INPUT and RESULT. -/
def screenLife (s : State) : Screening :=
  match s.err with
  | .usage => .silent
  | .inputTooLarge => .silent
  | .none => if lifeLegal s.life then .passes else .raises .usage

/-- Tests 1 to 3 of R142, in that order, for INPUT. -/
def screenInput (s : State) : Screening :=
  match screenLife s with
  | .silent => .silent
  | .raises e => .raises e
  | .passes => if s.bitLength = maxBitLength then .raises .inputTooLarge else .passes

/-- A refused command (R143, R145), or `run` when no test refuses (R142 case 4, R144). -/
def screened (s : State) (d : Screening) (run : State → Answer) : Answer :=
  match d with
  | .silent => .next s
  | .raises e => .next (raiseError s e)
  | .passes => run s

/-! ## The block buffer and the counters -/

/-- `buf[block_index] <- b; block_index <- block_index + 1` (R86, R115). An offset of 64 or more names no byte: a fault (log
entry 6). -/
def appendByte (s : State) (b : Byte) : Answer :=
  if s.blockIndex.toNat < blockBytes then
    .next { s with buf := s.buf.write8 s.blockIndex.toNat b, blockIndex := s.blockIndex + 1#7 }
  else .fault (.bufferOffset s.blockIndex.toNat)

/-- `bit_length <- bit_length + 8`, one 64-bit add with full carry that never wraps (R13): a fault where it would (log entry 7). -/
def countByte (s : State) : Answer :=
  if s.bitLength.toNat + 8 < 2 ^ 64 then .next { s with bitLength := s.bitLength + 8#64 }
  else .fault (.lengthWrap s.bitLength)

/-! ## Power-on -/

/-- The power-on step (R156): `life`, `phase`, `fin`, `err` as the spec says, every other register a free value (log entry 4). -/
def powerOnStep (s : State) : State :=
  let v := Config.powerOnWork s.powerOns
  { H := Config.powerOnH s.powerOns
    work := { A := v[0], B := v[1], C := v[2], D := v[3], E := v[4] }
    W := Config.powerOnW s.powerOns
    t := Config.powerOnT s.powerOns
    buf := Memory.ofBlock (Config.powerOnBuf s.powerOns)
    blockIndex := Config.powerOnBlockIndex s.powerOns
    bitLength := Config.powerOnBitLength s.powerOns
    phase := .idle
    fin := .none
    life := .uninitialized
    err := .none
    host := s.host
    powerOns := s.powerOns + 1 }

end Sys2Proof.Machine
end

