-- ==== Sys2Proof/Machine/Flags.lean ====
section
/-! DEFINITION. The codes of the control registers (spec/10_state.md R28 to R31) and the outputs, functions of state (R32;
spec/30_encoding.md R65). No arithmetic writes a flag (R32). -/

namespace Sys2Proof.Machine

/-- The code of a phase (R28). -/
def Phase.code (p : Phase) : PhaseCode :=
  match p with
  | .idle => 0#3
  | .load => 1#3
  | .round => 2#3
  | .accum => 3#3
  | .zfill => 4#3
  | .len => 5#3
  | .clear => 6#3

/-- The phase of a code; `none` for the unused code 7 (R28). -/
def Phase.ofCode (c : PhaseCode) : Option Phase :=
  if c = 0#3 then some .idle
  else if c = 1#3 then some .load
  else if c = 2#3 then some .round
  else if c = 3#3 then some .accum
  else if c = 4#3 then some .zfill
  else if c = 5#3 then some .len
  else if c = 6#3 then some .clear
  else none

/-- The code of `fin` (R29). -/
def Finish.code (f : Finish) : BitVec 2 :=
  match f with
  | .none => 0#2
  | .pad => 1#2
  | .last => 2#2

/-- The code of `life` (R30). -/
def Life.code (l : Life) : BitVec 2 :=
  match l with
  | .uninitialized => 0#2
  | .reset => 1#2
  | .absorbing => 2#2
  | .finalized => 3#2

/-- The code of `err` (R31, R139). -/
def Err.code (e : Err) : BitVec 2 :=
  match e with
  | .none => 0#2
  | .usage => 1#2
  | .inputTooLarge => 2#2

/-- `cmd_ready = (phase = IDLE)` (R32). -/
def State.cmdReady (s : State) : Bool := decide (s.phase = .idle)

/-- "busy": `phase != IDLE` (R18, R32). -/
def State.busy (s : State) : Bool := !s.cmdReady

/-- `life_out` (R32). -/
def State.lifeOut (s : State) : BitVec 2 := s.life.code

/-- `err_out` (R32). -/
def State.errOut (s : State) : BitVec 2 := s.err.code

/-- `digest_valid = (life = FINALIZED) and (err = NONE) and (phase = IDLE)` (R32). -/
def State.digestValid (s : State) : Bool :=
  decide (s.life = .finalized) && decide (s.err = .none) && decide (s.phase = .idle)

/-- The 20 bytes of five digest words: byte i is `Unpack32(H[i div 4], i mod 4)` (R52, R121). -/
def digestBytes (H : Vector Word 5) : Vector Byte 20 :=
  Vector.ofFn fun i => unpack32 (H[i.val / 4]'(by omega)) ⟨i.val % 4, by omega⟩

/-- The port `digest`, 160 bits, combinational in `H` (R65, R52). Its value has a meaning only while `digest_valid` = 1. -/
def State.digestPort (s : State) : BitVec 160 := s.H[0] ++ s.H[1] ++ s.H[2] ++ s.H[3] ++ s.H[4]

/-- What the host may read of the digest: the 20 bytes while `digest_valid` = 1, else no value (R32, R163; U6; log entry 13). -/
def State.digest (s : State) : Option (Vector Byte 20) :=
  if s.digestValid then some (digestBytes s.H) else none

end Sys2Proof.Machine
end

