-- ==== Sys2Proof/Machine/Commands.lean ====
section
/-! DEFINITION. The four commands: what each does at an edge where the host presents it (spec/40_reset.md, spec/41_ingestion.md,
spec/43_finalization.md section 1). Each is accepted in phase IDLE only (spec/30_encoding.md R66). -/

namespace Sys2Proof.Machine

/-- The writes of `DoReset` (R80). `buf`, `A..E`, `W`, `t` keep what they hold; `phase` and `fin` are IDLE and NONE already. -/
def resetWrites (s : State) : State :=
  clearError { s with H := iv, bitLength := 0#64, blockIndex := 0#7, life := .reset }

/-- `DoReset` as the accept step (R80, R81). -/
def acceptReset (s : State) : Answer := .next (resetWrites s)

/-- The trigger of the compression, tested on the incremented index (R86, R87, R92). -/
def triggerWhenFull (s : State) : Answer :=
  if s.blockIndex = 64#7 then .next { s with phase := .load } else .next s

/-- INPUT's accept step once no test refuses it (R85, R92): store, count, `life <- ABSORBING`, trigger. -/
def absorb (b : Byte) (s : State) : Answer :=
  andThen (appendByte s b) fun s1 =>
  andThen (countByte s1) fun s2 =>
  triggerWhenFull { s2 with life := .absorbing }

/-- INPUT's accept step (R92): the three tests, then `absorb`. -/
def acceptInput (b : Byte) (s : State) : Answer := screened s (screenInput s) (absorb b)

/-- RESULT's accept step once no test refuses it (R116): the terminator, not counted (R115); `fin <- PAD`, `phase <- ZFILL`. -/
def startFinalization (s : State) : Answer :=
  andThen (appendByte s padByte) fun s1 => .next { s1 with fin := .pad, phase := .zfill }

/-- RESULT's accept step (R116): the two tests, then `startFinalization`. -/
def acceptResult (s : State) : Answer := screened s (screenLife s) startFinalization

/-- NOP (R83): "no register is read or written, in any lifecycle state and with any `err`". -/
def execNop (s : State) : Answer := whenReady s .next

/-- RESET (R80, R81, R84). -/
def execReset (s : State) : Answer := whenReady s acceptReset

/-- INPUT b (R85, R92). -/
def execInput (b : Byte) (s : State) : Answer := whenReady s (acceptInput b)

/-- RESULT (R113, R116). -/
def execResult (s : State) : Answer := whenReady s acceptResult

end Sys2Proof.Machine
end

