-- ==== Sys2Proof/Machine/Compression.lean ====
section
/-! DEFINITION. The micro-operations LOAD, ROUND in its four variants, and ACCUM (spec/42_compression.md). The sequencer selects them
by `phase` and `t` (Decode.lean, spec/30_encoding.md R72); each meaning is the work of its step (log entry 9). -/

namespace Sys2Proof.Machine

/-! ## The round's parts -/

/-- `f(B, C, D) = (B AND C) OR ((NOT B) AND D)` (R96). -/
def fCh (B C D : Word) : Word := (B &&& C) ||| (~~~B &&& D)

/-- `f(B, C, D) = B XOR C XOR D` (R97, R99). -/
def fParity (B C D : Word) : Word := B ^^^ C ^^^ D

/-- `f(B, C, D) = (B AND C) OR (B AND D) OR (C AND D)` (R98). -/
def fMaj (B C D : Word) : Word := (B &&& C) ||| (B &&& D) ||| (C &&& D)

/-- The schedule word of round t once the recurrence has been applied: `ROTL32(W[t-3] XOR W[t-8] XOR W[t-14] XOR W[t-16], 1)` for
t >= 16 (R95), `W[t]` itself for t < 16 (R106). -/
def schedWord (W : Vector Word 80) (t : Fin 80) : Word :=
  if 16 ≤ t.val then
    rotl32 ((W[t.val - 3]'(by omega)) ^^^ (W[t.val - 8]'(by omega)) ^^^ (W[t.val - 14]'(by omega)) ^^^ (W[t.val - 16]'(by omega))) 1
  else W[t.val]

/-- The five new working variables of one round, all from the old ones (R101), with `f` and `K` of the round and its word `w`. -/
def roundWork (f : Word → Word → Word → Word) (K : Word) (w : Word) (v : Working) : Working where
  A := add32 (add32 (add32 (add32 (rotl32 v.A 5) (f v.B v.C v.D)) v.E) w) K
  B := v.A
  C := rotl32 v.B 30
  D := v.C
  E := v.D

/-- The ROUND step at index `t` (R106): for t >= 16 the new schedule word is stored and used at once; `t` stays 79 at the end. -/
def roundAt (f : Word → Word → Word → Word) (K : Word) (t : Fin 80) (s : State) : State :=
  let w := schedWord s.W t
  let s1 := { s with W := if 16 ≤ t.val then s.W.set t.val w else s.W, work := roundWork f K w s.work }
  if t.val = 79 then { s1 with phase := .accum } else { s1 with t := s1.t + 1#7 }

/-- The ROUND step of one variant (R106). A `t` of 80 or more has no round: a fault (U4; log entry 6). -/
def roundStep (f : Word → Word → Word → Word) (K : Word) (s : State) : Answer :=
  if h : s.t.toNat < 80 then .next (roundAt f K ⟨s.t.toNat, h⟩ s) else .fault (.roundIndex s.t)

/-! ## The micro-operations -/

/-- The sixteen words of the block buffer in front, the other 64 words of `W` as they were (R105, R94). -/
def packBlock (m : Memory) (W : Vector Word 80) : Vector Word 80 :=
  Vector.ofFn fun j => if j.val < 16 then m.read32 (4 * j.val) else W[j]

/-- The digest words as the working variables (R102). -/
def workOf (H : Vector Word 5) : Working where
  A := H[0]
  B := H[1]
  C := H[2]
  D := H[3]
  E := H[4]

/-- The digest words with the working variables added, word by word (R103). -/
def accumulate (H : Vector Word 5) (v : Working) : Vector Word 5 :=
  #v[add32 H[0] v.A, add32 H[1] v.B, add32 H[2] v.C, add32 H[3] v.D, add32 H[4] v.E]

/-- LOAD (R105). -/
def execLoad (s : State) : Answer :=
  .next { s with W := packBlock s.buf s.W, work := workOf s.H, t := 0#7, phase := .round }

/-- ROUND.CH (R106, R96). -/
def execRoundCh (s : State) : Answer := roundStep fCh k0 s

/-- ROUND.PAR1 (R106, R97). -/
def execRoundPar1 (s : State) : Answer := roundStep fParity k1 s

/-- ROUND.MAJ (R106, R98). -/
def execRoundMaj (s : State) : Answer := roundStep fMaj k2 s

/-- ROUND.PAR2 (R106, R99). -/
def execRoundPar2 (s : State) : Answer := roundStep fParity k3 s

/-- The phase after ACCUM (R107, R108). -/
def afterAccum (f : Finish) : Phase :=
  match f with
  | .none => .idle
  | .pad => .zfill
  | .last => .clear

/-- ACCUM (R107). -/
def execAccum (s : State) : Answer :=
  .next { s with H := accumulate s.H s.work, blockIndex := 0#7, phase := afterAccum s.fin }

end Sys2Proof.Machine
end

