-- ==== Sys2Proof/Machine/Finalization.lean ====
section
/-! DEFINITION. The micro-operations ZFILL, LEN and CLEAR of a finalization (spec/43_finalization.md). The sequencer selects them by
`phase` (Decode.lean, spec/30_encoding.md R72); each meaning is the work of its step (log entry 9). -/

namespace Sys2Proof.Machine

/-- ZFILL (R117, R118): to the end of the buffer when `block_index > 56`, else up to offset 56. -/
def execZfill (s : State) : Answer :=
  if trailerOffset < s.blockIndex.toNat then
    .next { s with buf := s.buf.zeroFill s.blockIndex.toNat blockBytes, blockIndex := 64#7, phase := .load }
  else
    .next { s with buf := s.buf.zeroFill s.blockIndex.toNat trailerOffset, blockIndex := 56#7, phase := .len }

/-- LEN (R119): `MemWrite(56, 8, bit_length)`. -/
def execLen (s : State) : Answer :=
  .next { s with buf := s.buf.write64 trailerOffset s.bitLength, blockIndex := 64#7, fin := .last, phase := .load }

/-- CLEAR (R122). `H`, `A..E`, `W`, `t`, `err` keep what they hold. -/
def execClear (s : State) : Answer :=
  .next { s with
    buf := s.buf.zeroFill 0 blockBytes, bitLength := 0#64, blockIndex := 0#7, life := .finalized, fin := .none, phase := .idle }

end Sys2Proof.Machine
end

