-- ==== Sys2Proof/Machine/Program.lean ====
section
/-! DEFINITION. The pseudo-commands INPUTS and HASH (spec/30_encoding.md R76, R77; spec/44_hash_wrapper.md R129, R137): the host presents the
commands of the expansion one after the other, each beginning "when the one before has finished" (R75), and the meaning ends when the
engine is ready again (log entry 15). -/

namespace Sys2Proof.Machine

/-- The micro-operation of the current phase (R66 case c, R28); in IDLE there is none. -/
def microStep (s : State) : Answer :=
  match s.phase with
  | .idle => .next s
  | .load => execLoad s
  | .round =>
    if s.t.toNat < 20 then execRoundCh s
    else if s.t.toNat < 40 then execRoundPar1 s
    else if s.t.toNat < 60 then execRoundMaj s
    else if s.t.toNat < 80 then execRoundPar2 s
    else .fault (.roundIndex s.t)
  | .accum => execAccum s
  | .zfill => execZfill s
  | .len => execLen s
  | .clear => execClear s

/-- The next steps while the engine is busy, at most `n`: it stops at phase IDLE. -/
def runBusy (n : Nat) (s : State) : Answer :=
  match n with
  | 0 => .next s
  | k + 1 => if s.phase = .idle then .next s else andThen (microStep s) (runBusy k)

/-- No busy period lasts longer (R170). -/
def busyBound : Nat := 168

/-- One command presented until it is accepted, and the steps until the engine is ready again (R66, R75). -/
def issue (command : State → Answer) (s : State) : Answer :=
  andThen (runBusy busyBound s) fun s1 => andThen (command s1) (runBusy busyBound)

/-- One INPUT after the other (R76, R90). -/
def issueInputs (bytes : List Byte) (s : State) : Answer :=
  match bytes with
  | [] => .next s
  | b :: rest => andThen (issue (execInput b) s) (issueInputs rest)

/-- INPUTS bytes (R76, R137); "no command at all" for no bytes. -/
def execInputs (bytes : List Byte) (s : State) : Answer := issueInputs bytes s

/-- HASH bytes (R77, R129): RESET, then the INPUTs, then RESULT. -/
def execHash (bytes : List Byte) (s : State) : Answer :=
  andThen (issue execReset s) fun s1 => andThen (issueInputs bytes s1) fun s2 => issue execResult s2

end Sys2Proof.Machine
end

