-- ==== Sys2Proof/Syntax.lean ====
section
/-! DEFINITION. The instructions: one constructor for each of the fifteen rows of spec/opcode_table.json
(spec/30_encoding.md R78): four commands, nine micro-operations, two pseudo-commands. -/

namespace Sys2Proof

/-- One row of the opcode table each. The `data` field of NOP, RESET and RESULT is ignored (R70), so it is no operand. -/
inductive Instr
  /-- `NOP`: the command that does nothing (R83). -/
  | nop
  /-- `RESET`: context initialization (R80). -/
  | reset
  /-- `INPUT b`: absorb one byte (R85, R92). -/
  | input (b : Byte)
  /-- `RESULT`: start the finalization (R113, R116). -/
  | result
  /-- `LOAD`: pack the block, copy `H` to `A..E` (R105). -/
  | load
  /-- `ROUND.CH`: a round of t = 0 to 19 (R106, R96). -/
  | roundCh
  /-- `ROUND.PAR1`: a round of t = 20 to 39 (R106, R97). -/
  | roundPar1
  /-- `ROUND.MAJ`: a round of t = 40 to 59 (R106, R98). -/
  | roundMaj
  /-- `ROUND.PAR2`: a round of t = 60 to 79 (R106, R99). -/
  | roundPar2
  /-- `ACCUM`: add `A..E` into `H` (R107). -/
  | accum
  /-- `ZFILL`: zero-fill the buffer (R118). -/
  | zfill
  /-- `LEN`: write the length trailer (R119). -/
  | len
  /-- `CLEAR`: clear buffer and counters (R122). -/
  | clear
  /-- `INPUTS bytes`: one INPUT for each byte, in order (R76, R137). -/
  | inputs (bytes : List Byte)
  /-- `HASH bytes`: RESET, INPUTS bytes, RESULT (R77, R129). -/
  | hash (bytes : List Byte)
deriving DecidableEq, Repr

/-- The core instructions an instruction stands for: itself, or the expansion of a pseudo-command (R76, R77). -/
def Instr.expand (i : Instr) : List Instr :=
  match i with
  | .inputs bytes => bytes.map .input
  | .hash bytes => .reset :: bytes.map .input ++ [.result]
  | .nop => [.nop]
  | .reset => [.reset]
  | .input b => [.input b]
  | .result => [.result]
  | .load => [.load]
  | .roundCh => [.roundCh]
  | .roundPar1 => [.roundPar1]
  | .roundMaj => [.roundMaj]
  | .roundPar2 => [.roundPar2]
  | .accum => [.accum]
  | .zfill => [.zfill]
  | .len => [.len]
  | .clear => [.clear]

/-- The four instructions a host can put on the command port (R68). -/
def Instr.isCommand (i : Instr) : Bool :=
  match i with
  | .nop => true
  | .reset => true
  | .input _ => true
  | .result => true
  | .load => false
  | .roundCh => false
  | .roundPar1 => false
  | .roundMaj => false
  | .roundPar2 => false
  | .accum => false
  | .zfill => false
  | .len => false
  | .clear => false
  | .inputs _ => false
  | .hash _ => false

/-- The nine micro-operations of the sequencer (R72). -/
def Instr.isMicro (i : Instr) : Bool :=
  match i with
  | .nop => false
  | .reset => false
  | .input _ => false
  | .result => false
  | .load => true
  | .roundCh => true
  | .roundPar1 => true
  | .roundMaj => true
  | .roundPar2 => true
  | .accum => true
  | .zfill => true
  | .len => true
  | .clear => true
  | .inputs _ => false
  | .hash _ => false

end Sys2Proof
end

