-- ==== Sys2Proof/Machine/Dispatch.lean ====
section
/-! DEFINITION. What each instruction does: one arm per constructor, one call of its meaning. -/

namespace Sys2Proof.Machine

def exec (i : Instr) (s : State) : Host.Outcome State Fault Refusal :=
  match i with
  | .nop => Sys2Proof.Machine.execNop s
  | .reset => Sys2Proof.Machine.execReset s
  | .input b => Sys2Proof.Machine.execInput b s
  | .result => Sys2Proof.Machine.execResult s
  | .load => Sys2Proof.Machine.execLoad s
  | .roundCh => Sys2Proof.Machine.execRoundCh s
  | .roundPar1 => Sys2Proof.Machine.execRoundPar1 s
  | .roundMaj => Sys2Proof.Machine.execRoundMaj s
  | .roundPar2 => Sys2Proof.Machine.execRoundPar2 s
  | .accum => Sys2Proof.Machine.execAccum s
  | .zfill => Sys2Proof.Machine.execZfill s
  | .len => Sys2Proof.Machine.execLen s
  | .clear => Sys2Proof.Machine.execClear s
  | .inputs bytes => Sys2Proof.Machine.execInputs bytes s
  | .hash bytes => Sys2Proof.Machine.execHash bytes s

end Sys2Proof.Machine
end

