-- ==== Sys2Proof/WellFormed.lean ====
section
/-! DEFINITION. The one check on an instruction's operands: HASH takes a message of at most 2^61 - 1 bytes
(spec/44_hash_wrapper.md R129). Every byte is a legal operand of INPUT (spec/30_encoding.md R69), and INPUTS takes any length
(R137). -/

namespace Sys2Proof

/-- The longest message the engine hashes, 2^61 - 1 bytes (R88, R129, R167). -/
def maxMessageBytes : Nat := 2 ^ 61 - 1

/-- `true` when the operands are those the spec allows (R129 for HASH; no other instruction has a check). -/
def Instr.wellFormed (i : Instr) : Bool :=
  match i with
  | .hash bytes => decide (bytes.length ≤ maxMessageBytes)
  | .nop => true
  | .reset => true
  | .input _ => true
  | .result => true
  | .load => true
  | .roundCh => true
  | .roundPar1 => true
  | .roundMaj => true
  | .roundPar2 => true
  | .accum => true
  | .zfill => true
  | .len => true
  | .clear => true
  | .inputs _ => true

end Sys2Proof
end

