-- ==== Sys2Proof/Decode.lean ====
section
/-! DEFINITION. Decoding and encoding (spec/30_encoding.md R67 to R72). A code is either a 10-bit command word of the port
or what the sequencer selects a micro-operation by, the 3-bit `phase` and the 7-bit `t`. No state changes how a command
word decodes (R74). The encoder follows the decoder. -/

namespace Sys2Proof

/-- What selects an instruction: a word on the command port (format CMD10, R67), or the sequencer's `phase` and `t` (format UOP,
R72). -/
inductive Code
  | command (w : CmdWord)
  | micro (phase : PhaseCode) (t : RoundIndex)
deriving DecidableEq, Repr

/-- Why a sequencer code selects no micro-operation. No command word is ever rejected (R70). -/
inductive DecodeError
  /-- `phase` = 0, IDLE, "selects no micro-operation" (R72). -/
  | idlePhase
  /-- `phase` = 7, the unused code (R28, R72; spec/93_implementation_defined.md U3). -/
  | unusedPhase
  /-- `phase` = 2 with `t` in 80..127, never reached (R72; U4). -/
  | roundIndex (t : RoundIndex)
deriving DecidableEq, Repr

/-- The `op` field, bits [9:8] of a command word (R67). -/
def opField (w : CmdWord) : BitVec 2 := w.extractLsb' 8 2

/-- The `data` field, bits [7:0] of a command word (R67), the byte operand of INPUT used as it is (R69). -/
def dataField (w : CmdWord) : Byte := w.extractLsb' 0 8

/-- `Decode` of R71: total over all 1024 words, by `op` alone but for INPUT's byte (R68, R70). -/
def decodeCmd (w : CmdWord) : Instr :=
  if opField w = 0b00#2 then .nop
  else if opField w = 0b01#2 then .reset
  else if opField w = 0b10#2 then .input (dataField w)
  else .result

/-- The variant of ROUND that `t` chooses (R72, R106). -/
def decodeRound (t : RoundIndex) : Except DecodeError Instr :=
  if t.toNat < 20 then .ok .roundCh
  else if t.toNat < 40 then .ok .roundPar1
  else if t.toNat < 60 then .ok .roundMaj
  else if t.toNat < 80 then .ok .roundPar2
  else .error (.roundIndex t)

/-- The micro-operation that `phase` and `t` select (R72). -/
def decodeMicro (phase : PhaseCode) (t : RoundIndex) : Except DecodeError Instr :=
  if phase = 0#3 then .error .idlePhase
  else if phase = 1#3 then .ok .load
  else if phase = 2#3 then decodeRound t
  else if phase = 3#3 then .ok .accum
  else if phase = 4#3 then .ok .zfill
  else if phase = 5#3 then .ok .len
  else if phase = 6#3 then .ok .clear
  else .error .unusedPhase

/-- The instruction a code selects, or the reason there is none. -/
def decode (c : Code) : Except DecodeError Instr :=
  match c with
  | .command w => .ok (decodeCmd w)
  | .micro phase t => decodeMicro phase t

/-- A sequence of codes, decoded in order; the first code without an instruction is reported. -/
def decodeAll (cs : List Code) : Except DecodeError (List Instr) :=
  match cs with
  | [] => .ok []
  | c :: rest =>
    match decode c with
    | .error e => .error e
    | .ok i =>
      match decodeAll rest with
      | .error e => .error e
      | .ok is => .ok (i :: is)

/-- The instruction of a row of spec/opcode_table.json, from the row's own bits as the table numbers them: three bits of `phase`
for a micro-operation (at most one byte), ten bits for a command (two bytes). The table gives `t` no bits, so `t` is read as 0
and all four ROUND rows, which share one pattern (R78), give ROUND.CH. See log entry 10. -/
def decodeTableWord (nbits w : Nat) : Option Instr :=
  if nbits = 0 then none
  else if nbits ≤ 8 then (decodeMicro (BitVec.ofNat 3 w) 0#7).toOption
  else if nbits ≤ 16 then some (decodeCmd (BitVec.ofNat 10 w))
  else none

/-! ## Encoding -/

/-- The canonical word of a command (R68, R71): `INPUT b` is 0x200 + b, the others have `data` = 0. `none` for what is no
command. -/
def encodeCmd (i : Instr) : Option CmdWord :=
  match i with
  | .nop => some 0x000#10
  | .reset => some 0x100#10
  | .input b => some (0x200#10 + b.setWidth 10)
  | .result => some 0x300#10
  | .load => none
  | .roundCh => none
  | .roundPar1 => none
  | .roundMaj => none
  | .roundPar2 => none
  | .accum => none
  | .zfill => none
  | .len => none
  | .clear => none
  | .inputs _ => none
  | .hash _ => none

/-- The words a host presents for an instruction: one for a command, those of the expansion for a pseudo-command
(R76, R77, R129), none for a micro-operation. -/
def Instr.words (i : Instr) : List CmdWord := i.expand.filterMap encodeCmd

/-- The `phase` code and the first `t` of a micro-operation's row (R72); `t` is "any" but for ROUND. -/
def encodeMicro (i : Instr) : Option (PhaseCode × RoundIndex) :=
  match i with
  | .load => some (1#3, 0#7)
  | .roundCh => some (2#3, 0#7)
  | .roundPar1 => some (2#3, 20#7)
  | .roundMaj => some (2#3, 40#7)
  | .roundPar2 => some (2#3, 60#7)
  | .accum => some (3#3, 0#7)
  | .zfill => some (4#3, 0#7)
  | .len => some (5#3, 0#7)
  | .clear => some (6#3, 0#7)
  | .nop => none
  | .reset => none
  | .input _ => none
  | .result => none
  | .inputs _ => none
  | .hash _ => none

/-- The codes of an instruction, in order: a command's word, a micro-operation's selector, the words of a pseudo-command. -/
def encode (i : Instr) : List Code :=
  match encodeMicro i with
  | some (phase, t) => [.micro phase t]
  | none => i.words.map .command

end Sys2Proof
end

