-- ==== Sys2Proof/Machine/Port.lean ====
section
/-! DEFINITION. The input ports at one edge, and what the step then runs (spec/30_encoding.md R65, R66; spec/70_reset_and_hazards.md R156).
The host's coming input is the list `host` of State (log entry 1). -/

namespace Sys2Proof.Machine

/-- The input ports at one rising edge (R65): `rst`, and the word on `cmd` when `cmd_valid` = 1. -/
structure Edge where
  rst : Bool
  cmd : Option CmdWord
deriving DecidableEq, Repr

/-- The event that puts exactly these port values on the next edge, and nothing after it. At an edge with `rst` = 1 the command port does
not matter (R156). -/
def Edge.event (e : Edge) : HostEvent :=
  if e.rst then .powerOn
  else
    match e.cmd with
    | none => .quiet
    | some w => .offer w

/-- The input ports at the next edge. Past the end of the list the host presents nothing (R66 case b). -/
def State.edge (s : State) : Edge :=
  match s.host with
  | [] => { rst := false, cmd := none }
  | .present w :: _ => { rst := false, cmd := some w }
  | .offer w :: _ => { rst := false, cmd := some w }
  | .quiet :: _ => { rst := false, cmd := none }
  | .powerOn :: _ => { rst := true, cmd := none }

/-- What the host still has to do after this edge: a word that is kept presented stays first until it is accepted (R66 case c). -/
def hostAfter (ready : Bool) (host : List HostEvent) : List HostEvent :=
  match host with
  | [] => []
  | .present w :: rest => if ready then rest else .present w :: rest
  | .offer _ :: rest => rest
  | .quiet :: rest => rest
  | .powerOn :: rest => rest

/-- The state with this edge's input gone by; no register changes. -/
def State.afterEdge (s : State) : State := { s with host := hostAfter s.cmdReady s.host }

/-- What the engine does at an edge (R66). -/
inductive Selected
  /-- `rst` = 1: the power-on step (R156). -/
  | powerOn
  /-- `phase` = IDLE and `cmd_valid` = 0: nothing (R66 case b). -/
  | nothing
  /-- The accept step of a command (R66 case a) or a micro-operation (case c). -/
  | run (i : Instr)
  /-- `phase` = ROUND with `t` of 80 or more: no micro-operation (R72). -/
  | noRound
deriving DecidableEq, Repr

/-- What the engine does at the next edge (R66, R72). -/
def selected (s : State) : Selected :=
  if s.edge.rst then .powerOn
  else if s.phase = .idle then
    match s.edge.cmd with
    | none => .nothing
    | some w => .run (decodeCmd w)
  else
    match decodeMicro s.phase.code s.t with
    | .ok i => .run i
    | .error _ => .noRound

/-- The host goes on to present these words, in order, each until it is accepted (R66, R75). -/
def State.presentWords (s : State) (ws : List CmdWord) : State := { s with host := s.host ++ ws.map .present }

/-- The engine idle and `w` on the command port, kept there until accepted. -/
def placeCommand (s : State) (w : CmdWord) : State := { s with phase := .idle, host := .present w :: s.host }

/-- The sequencer at the phase of code `c`, with `t` = 0 where the phase is ROUND, and no command at the next edge. An unused code
places nothing. -/
def placeMicro (s : State) (c : PhaseCode) : State :=
  match Phase.ofCode c with
  | none => s
  | some p => { s with phase := p, t := if p = .round then 0#7 else s.t, host := .quiet :: s.host }

end Sys2Proof.Machine
end

