-- ==== Sys2Proof/Machine/Step.lean ====
section
/-! DEFINITION. One step: one rising edge of `clk` (spec/30_encoding.md R66). -/

namespace Sys2Proof.Machine

/-- "At every rising edge of `clk` ... the engine takes exactly one step" (R66), the power-on step when `rst` = 1 (R156). -/
def step (s : State) : Host.Outcome State Fault Refusal :=
  match selected s with
  | .powerOn => .next (powerOnStep s.afterEdge)
  | .nothing => .next s.afterEdge
  | .run i => exec i s.afterEdge
  | .noRound => .fault (.roundIndex s.t)

/-- The state whose next step runs the instruction of these bits, numbered as spec/opcode_table.json numbers them: a micro-operation's three
bits of `phase` (at most one byte), or a command's ten bits (two bytes). Log entry 10. -/
def State.withFetchWord (s : State) (nbits w : Nat) : State :=
  if nbits = 0 then s
  else if nbits ≤ 8 then placeMicro s (BitVec.ofNat 3 w)
  else if nbits ≤ 16 then placeCommand s (BitVec.ofNat 10 w)
  else s

end Sys2Proof.Machine
end

