-- ==== Sys2Proof/Machine/Function.lean ====
section
/-! DEFINITION. The pure functions: `F` and `Kt` by round (spec/42_compression.md R100), `Compress` (R104), the padding
(spec/43_finalization.md R124) and `SHA1` (spec/44_hash_wrapper.md R130). The command level and the statements use them; `step` does not. -/

namespace Sys2Proof.Machine

/-- `F(t, B, C, D)` (R100). -/
def fOf (t : Fin 80) : Word → Word → Word → Word :=
  if t.val < 20 then fCh else if t.val < 40 then fParity else if t.val < 60 then fMaj else fParity

/-- `Kt(t) = K[t div 20]` (R100). -/
def kOf (t : Fin 80) : Word :=
  #v[k0, k1, k2, k3][t.val / 20]'(by omega)

/-- The sixteen words of a message block, then 64 words not yet computed (R94). -/
def directWords (M : Vector Byte 64) : Vector Word 80 :=
  Vector.ofFn fun j =>
    if h : j.val < 16 then pack32 M[4 * j.val] M[4 * j.val + 1] M[4 * j.val + 2] M[4 * j.val + 3] else 0#32

/-- The recurrence for the first `n` of the words `W[16]`, `W[17]`, ..., in ascending order (R95). -/
def expandWords (W : Vector Word 80) (n : Nat) : Vector Word 80 :=
  match n with
  | 0 => W
  | k + 1 =>
    let W' := expandWords W k
    if h : 16 + k < 80 then W'.set (16 + k) (schedWord W' ⟨16 + k, h⟩) else W'

/-- The message schedule of a block, expanded before the first round (R94, R95). -/
def schedule (M : Vector Byte 64) : Vector Word 80 := expandWords (directWords M) 64

/-- The first `n` rounds over a finished schedule (R101, R104). -/
def rounds (W : Vector Word 80) (v : Working) (n : Nat) : Working :=
  match n with
  | 0 => v
  | k + 1 =>
    let v' := rounds W v k
    if h : k < 80 then roundWork (fOf ⟨k, h⟩) (kOf ⟨k, h⟩) W[k] v' else v'

/-- `Compress(Hin[0..4], M[0..63])` (R104): total. -/
def compress (Hin : Vector Word 5) (M : Vector Byte 64) : Vector Word 5 :=
  accumulate Hin (rounds (schedule M) (workOf Hin) 80)

/-- How many zero bytes the padding of an n-byte message has (R124). -/
def padZeros (n : Nat) : Nat := if n % 64 ≤ 55 then 55 - n % 64 else 119 - n % 64

/-- What follows the message of n bytes in the padded message: 0x80, the zeros, the trailer `Unpack64(8n, 0..7)` (R124). -/
def padding (n : Nat) : List Byte :=
  padByte :: (List.replicate (padZeros n) 0x00#8 ++ (List.finRange 8).map (unpack64 (BitVec.ofNat 64 (8 * n))))

/-- The padded message (R124, R130). -/
def padded (m : List Byte) : List Byte := m ++ padding m.length

/-- The first 64 bytes of a list as a block. -/
def firstBlock (bytes : List Byte) : Vector Byte 64 := Vector.ofFn fun i => bytes.getD i.val 0x00#8

/-- The first `n` consecutive 64-byte blocks of a list, in order (R124). -/
def blocks (n : Nat) (bytes : List Byte) : List (Vector Byte 64) :=
  match n with
  | 0 => []
  | k + 1 => firstBlock bytes :: blocks k (bytes.drop 64)

/-- `Compress` over the blocks, in order (R112, R130). -/
def chain (H : Vector Word 5) (bs : List (Vector Byte 64)) : Vector Word 5 := bs.foldl compress H

/-- The digest words of a message (R130, R112). -/
def sha1Words (m : List Byte) : Vector Word 5 := chain iv (blocks ((padded m).length / 64) (padded m))

/-- `SHA1(m)` (R130): 20 bytes. -/
def sha1 (m : List Byte) : Vector Byte 20 := digestBytes (sha1Words m)

end Sys2Proof.Machine
end

