-- ==== Sys2Proof/Machine/CommandLevel.lean ====
section
/-! DEFINITION. The command level (spec/00_scope.md R7): `DoReset`, `DoInput`, `DoResult` as one transition each, with the pure `Compress` in
place of the micro-operations (spec/40_reset.md R80, spec/41_ingestion.md R85, spec/43_finalization.md R113). `step` runs the step level; the
statements compare the two. At this level `A` to `E`, `W` and `t` are not carried (spec/10_state.md R22): they keep what they held. -/

namespace Sys2Proof.Machine

/-- "run Compression": `H[0..4] <- Compress(H[0..4], buf[0..63])`, then `block_index <- 0` (R104). -/
def compressNow (s : State) : State := { s with H := compress s.H s.buf.block, blockIndex := 0#7 }

/-- `DoReset` (R80). -/
def doReset (s : State) : State := resetWrites s

/-- `DoInput(b)` (R85). -/
def doInput (b : Byte) (s : State) : Answer :=
  screened s (screenInput s) fun s0 =>
  andThen (appendByte s0 b) fun s1 =>
  andThen (countByte s1) fun s2 =>
  let s3 := { s2 with life := .absorbing }
  .next (if s3.blockIndex = 64#7 then compressNow s3 else s3)

/-- Source steps 2 of `DoResult` (R113, R117): fill the block, compress it when the trailer does not fit, and zeros up to offset 56. -/
def fillBlock (s : State) : State :=
  if trailerOffset < s.blockIndex.toNat then
    let s1 := compressNow { s with buf := s.buf.zeroFill s.blockIndex.toNat blockBytes }
    { s1 with buf := s1.buf.zeroFill 0 trailerOffset }
  else { s with buf := s.buf.zeroFill s.blockIndex.toNat trailerOffset }

/-- `DoResult` (R113). -/
def doResult (s : State) : Answer :=
  screened s (screenLife s) fun s0 =>
  andThen (appendByte s0 padByte) fun s1 =>
  let s2 := fillBlock s1
  let s3 := compressNow { s2 with buf := s2.buf.write64 trailerOffset s2.bitLength }
  .next { s3 with buf := s3.buf.zeroFill 0 blockBytes, bitLength := 0#64, life := .finalized }

/-- `DoInput` of each byte in order (R90). -/
def doInputs (bytes : List Byte) (s : State) : Answer :=
  match bytes with
  | [] => .next s
  | b :: rest => andThen (doInput b s) (doInputs rest)

/-- HASH at the command level (R129). -/
def doHash (bytes : List Byte) (s : State) : Answer :=
  andThen (doInputs bytes (doReset s)) doResult

/-- What the two levels agree on (R92, R126): `H`, `buf`, `block_index`, `bit_length`, `life`, `err`. -/
structure Context where
  H : Vector Word 5
  buf : Memory
  blockIndex : BlockIndex
  bitLength : BitLength
  life : Life
  err : Err
deriving DecidableEq, Repr

/-- The six registers of a state that the command level speaks of. -/
def State.context (s : State) : Context :=
  { H := s.H, buf := s.buf, blockIndex := s.blockIndex, bitLength := s.bitLength, life := s.life, err := s.err }

end Sys2Proof.Machine
end

