-- ==== Sys2Proof/Machine/Run.lean ====
section
/-! DEFINITION. Several steps in a row, for statements about a run (spec/30_encoding.md R66). -/

namespace Sys2Proof.Machine

/-- `n` steps, stopping at the first fault or refusal. -/
def stepN (n : Nat) (s : State) : Answer :=
  match n with
  | 0 => .next s
  | k + 1 => andThen (step s) (stepN k)

/-- How many steps HASH of an n-byte message takes when each command is presented as soon as the engine is ready (R169). -/
def hashSteps (n : Nat) : Nat := 1 + n + 82 * (n / 64) + if n % 64 ≤ 55 then 86 else 169

/-- The commands of a sequence of words, each issued when the engine is ready and run until it is ready again: "the composition, in order, of
the command-level functions of its commands" (R60, R75). -/
def issueWords (ws : List CmdWord) (s : State) : Answer :=
  match ws with
  | [] => .next s
  | w :: rest => andThen (issue (exec (decodeCmd w)) s) (issueWords rest)

/-- The words a list of host events presents until they are accepted, in order. -/
def presentedWords (events : List HostEvent) : List CmdWord :=
  match events with
  | [] => []
  | .present w :: rest => w :: presentedWords rest
  | .offer _ :: rest => presentedWords rest
  | .quiet :: rest => presentedWords rest
  | .powerOn :: rest => presentedWords rest

end Sys2Proof.Machine
end

