-- ==== Sys2Proof/Safety.lean ====
section
/-! DEFINITION. What holds of the states a run can reach (spec/10_state.md R26 to R35), and what two states must share for a host to be unable
to tell them apart (spec/40_reset.md R82, spec/93_implementation_defined.md U1, U10). -/

namespace Sys2Proof.Safety

open Sys2Proof.Machine

/-- A compression is running or about to: LOAD, ROUND or ACCUM. -/
abbrev Compressing (s : State) : Prop := s.phase = .load ∨ s.phase = .round ∨ s.phase = .accum

/-- The invariant of the machine. Nothing is said of the data registers while `life` = UNINITIALIZED: they are unspecified then (R43). -/
structure Inv (s : State) : Prop where
  /-- The buffer is in canonical form, with no byte outside offsets 0 to 63 (R45). -/
  canonical : s.buf.wf = true
  /-- R29: "`fin = NONE` whenever `phase = IDLE`". -/
  idleFin : s.phase = .idle → s.fin = .none
  /-- A busy engine was reset before and has met no error (R30, R122: "nothing sets `err` while busy"). -/
  busyLive : s.phase ≠ .idle → (s.life = .reset ∨ s.life = .absorbing) ∧ s.err = .none
  /-- R33: "`phase = IDLE` implies 0 <= `block_index` <= 63". -/
  idleIndex : s.life ≠ .uninitialized → s.phase = .idle → s.blockIndex.toNat ≤ 63
  /-- R33: "`phase` in {LOAD, ROUND, ACCUM} implies `block_index = 64`". -/
  fullIndex : Compressing s → s.blockIndex.toNat = 64
  /-- R33: "`phase = ZFILL` implies 0 <= `block_index` <= 64"; the finalization has not written its trailer yet (R29). -/
  zfill : s.phase = .zfill → s.blockIndex.toNat ≤ 64 ∧ s.fin = .pad
  /-- R33: "`phase = LEN` implies `block_index = 56`" (R29). -/
  len : s.phase = .len → s.blockIndex.toNat = 56 ∧ s.fin = .pad
  /-- R33: "`phase = CLEAR` implies `block_index = 0`" (R29, R108). -/
  clear : s.phase = .clear → s.blockIndex.toNat = 0 ∧ s.fin = .last
  /-- R27: "legal values 0 to 79" where `t` has a meaning. -/
  roundIndex : s.phase = .round → s.t.toNat ≤ 79
  /-- R27: the last round leaves `t` at 79. -/
  accumIndex : s.phase = .accum → s.t.toNat = 79
  /-- R26: "Its value is always a multiple of 8". -/
  wholeBytes : s.life ≠ .uninitialized → s.bitLength.toNat % 8 = 0
  /-- R35: "`block_index = (bit_length div 8) mod 64`" while absorbing and idle. -/
  index : (s.life = .reset ∨ s.life = .absorbing) → s.phase = .idle → s.blockIndex.toNat = s.bitLength.toNat / 8 % 64
  /-- R35 while an INPUT's compression runs. -/
  fullLength : Compressing s → s.fin = .none → s.bitLength.toNat / 8 % 64 = 0
  /-- In RESET no byte has been ingested (R30, R34). -/
  freshLength : s.life = .reset → s.bitLength = 0#64
  /-- R34: "After CLEAR (`life = FINALIZED`) `bit_length = 0`"; R41 for `block_index`. -/
  finalized : s.life = .finalized → s.bitLength = 0#64 ∧ s.blockIndex = 0#7

/-- Two idle states that no host can tell apart, now or later: the same control registers and, once a RESET has been accepted, the same digest
words, counters and valid bytes. `A..E`, `W`, `t`, the bytes of `buf` from `block_index` on and, before the first RESET, every data
register may differ (R38, R82; U1, U10). -/
structure Alike (s₁ s₂ : State) : Prop where
  idle₁ : s₁.phase = .idle
  idle₂ : s₂.phase = .idle
  fin : s₁.fin = s₂.fin
  life : s₁.life = s₂.life
  err : s₁.err = s₂.err
  words : s₁.life ≠ .uninitialized → s₁.H = s₂.H
  length : s₁.life ≠ .uninitialized → s₁.bitLength = s₂.bitLength
  index : s₁.life ≠ .uninitialized → s₁.blockIndex = s₂.blockIndex
  bytes : s₁.life ≠ .uninitialized → ∀ k, k < s₁.blockIndex.toNat → s₁.buf.read k = s₂.buf.read k

/-- The four outputs a host reads, the digest as an option (R32, R38). -/
def outputs (s : State) : Bool × Option (Vector Byte 20) × BitVec 2 × BitVec 2 := (s.cmdReady, s.digest, s.lifeOut, s.errOut)

/-- The compression datapath is as before: `A..E`, `W`, `t` (R22, R23, R27). -/
abbrev SameDatapath (s t : State) : Prop := t.work = s.work ∧ t.W = s.W ∧ t.t = s.t

/-- The model's own fields are as before. -/
abbrev SameInput (s t : State) : Prop := t.host = s.host ∧ t.powerOns = s.powerOns

/-- Every offset of the buffer reads as before. -/
abbrev SameBuffer (s t : State) : Prop := ∀ k, t.buf.read k = s.buf.read k

/-- The host presents a command word that decodes to `i` at the next edge (R66). -/
def Presents (s : State) (i : Instr) : Prop := ∃ w rest, (s.host = .present w :: rest ∨ s.host = .offer w :: rest) ∧ decodeCmd w = i

/-- What one ROUND step at index `t`, with function `f` and constant `K`, does and leaves (R95, R101, R106). -/
structure RoundEffect (f : Word → Word → Word → Word) (K : Word) (t : Fin 80) (s s' : State) : Prop where
  /-- "w = ROTL32(W[t-3] XOR W[t-8] XOR W[t-14] XOR W[t-16], 1);  W[t] <- w" when t >= 16. -/
  expanded : 16 ≤ t.val → s'.W[t] =
    rotl32 ((s.W[t.val - 3]'(by omega)) ^^^ (s.W[t.val - 8]'(by omega)) ^^^ (s.W[t.val - 14]'(by omega)) ^^^ (s.W[t.val - 16]'(by omega))) 1
  direct : t.val < 16 → s'.W[t] = s.W[t]
  otherWords : ∀ u : Fin 80, u ≠ t → s'.W[u] = s.W[u]
  /-- "temp = ADD32(ADD32(ADD32(ADD32(ROTL32(A, 5), F(t, B, C, D)), E), w), Kt(t))", w being what `W[t]` now holds. -/
  A : s'.work.A = add32 (add32 (add32 (add32 (rotl32 s.work.A 5) (f s.work.B s.work.C s.work.D)) s.work.E) s'.W[t]) K
  B : s'.work.B = s.work.A
  C : s'.work.C = rotl32 s.work.B 30
  D : s'.work.D = s.work.C
  E : s'.work.E = s.work.D
  last : t.val = 79 → s'.phase = .accum ∧ s'.t = s.t
  next : t.val ≠ 79 → s'.phase = s.phase ∧ s'.t.toNat = t.val + 1
  frame : s'.H = s.H ∧ s'.buf = s.buf ∧ s'.blockIndex = s.blockIndex ∧ s'.bitLength = s.bitLength ∧ s'.fin = s.fin ∧ s'.life = s.life ∧
    s'.err = s.err ∧ SameInput s s'

/-- The phases one compression passes through (R111). -/
def compressionPhases : List Phase := .load :: (List.replicate 80 .round ++ [.accum])

/-- The phases a RESULT accepted in state `s` passes through (R126). -/
def finalizationPhases (s : State) : List Phase :=
  if s.blockIndex.toNat ≤ 55 then [.zfill, .len] ++ compressionPhases ++ [.clear]
  else [.zfill] ++ compressionPhases ++ [.zfill, .len] ++ compressionPhases ++ [.clear]

end Sys2Proof.Safety
end

