-- ==== Sys2Proof/Certificates/Slice0/Obligations.lean ====
section
/-! DEFINITION. The statements for the provers. Each says which rule of spec/ it formalises, or that it is derived. Nothing is proved here. -/

open Sys2Proof
open Sys2Proof.Machine
open Sys2Proof.Safety

/-! ## Decoding and encoding -/

/-- R71: `Decode` by `op`, the canonical `Encode`, `Decode(Encode(c)) = c`, and `Encode(Decode(w)) = w` exactly for an INPUT word or `data` = 0. -/
def Obligations.CommandWordsDecodeAndEncode : Prop :=
  (∀ w : CmdWord,
    (w.extractLsb' 8 2 = 0b00#2 → decodeCmd w = .nop) ∧
    (w.extractLsb' 8 2 = 0b01#2 → decodeCmd w = .reset) ∧
    (w.extractLsb' 8 2 = 0b10#2 → decodeCmd w = .input (w.extractLsb' 0 8)) ∧
    (w.extractLsb' 8 2 = 0b11#2 → decodeCmd w = .result)) ∧
  (encodeCmd .nop = some 0x000#10 ∧ encodeCmd .reset = some 0x100#10 ∧ encodeCmd .result = some 0x300#10 ∧
    ∀ b : Byte, encodeCmd (.input b) = some (BitVec.ofNat 10 (0x200 + b.toNat))) ∧
  (∀ i : Instr, i.isCommand = true → ∃ w, encodeCmd i = some w ∧ decodeCmd w = i) ∧
  (∀ w : CmdWord, encodeCmd (decodeCmd w) = some w ↔ (w.extractLsb' 8 2 = 0b10#2 ∨ w.extractLsb' 0 8 = 0x00#8))

/-- Words written out from the encodings of R68 and R72 (spec/95_test_vectors.md section 5.4): a sanity statement. -/
def Obligations.SampleCodesDecode : Prop :=
  decodeCmd 0b0011111111#10 = .nop ∧ decodeCmd 0b0110100101#10 = .reset ∧ decodeCmd 0b1001100001#10 = .input 0x61#8 ∧
  decodeCmd 0b1010000000#10 = .input 0x80#8 ∧ decodeCmd 0b1111111111#10 = .result ∧
  decodeMicro 0b001#3 0#7 = .ok .load ∧ decodeMicro 0b010#3 19#7 = .ok .roundCh ∧ decodeMicro 0b010#3 20#7 = .ok .roundPar1 ∧
  decodeMicro 0b010#3 59#7 = .ok .roundMaj ∧ decodeMicro 0b010#3 60#7 = .ok .roundPar2 ∧ decodeMicro 0b011#3 79#7 = .ok .accum ∧
  decodeMicro 0b100#3 0#7 = .ok .zfill ∧ decodeMicro 0b101#3 0#7 = .ok .len ∧ decodeMicro 0b110#3 0#7 = .ok .clear

/-- R72: `phase` and, for ROUND, the range of `t` select the micro-operation; IDLE, code 7 and `t` in 80..127 select none. -/
def Obligations.PhaseAndIndexSelectTheMicroOperation : Prop :=
  ∀ t : RoundIndex,
    (∀ i, decodeMicro 0#3 t ≠ .ok i) ∧
    decodeMicro 1#3 t = .ok .load ∧
    (t.toNat ≤ 19 → decodeMicro 2#3 t = .ok .roundCh) ∧
    (20 ≤ t.toNat → t.toNat ≤ 39 → decodeMicro 2#3 t = .ok .roundPar1) ∧
    (40 ≤ t.toNat → t.toNat ≤ 59 → decodeMicro 2#3 t = .ok .roundMaj) ∧
    (60 ≤ t.toNat → t.toNat ≤ 79 → decodeMicro 2#3 t = .ok .roundPar2) ∧
    (80 ≤ t.toNat → ∀ i, decodeMicro 2#3 t ≠ .ok i) ∧
    decodeMicro 3#3 t = .ok .accum ∧
    decodeMicro 4#3 t = .ok .zfill ∧
    decodeMicro 5#3 t = .ok .len ∧
    decodeMicro 6#3 t = .ok .clear ∧
    (∀ i, decodeMicro 7#3 t ≠ .ok i)

/-- Decode and encode agree for every well-formed instruction: the codes of an instruction decode to it, those of a pseudo-command to its
expansion (derived: R71, R72, R76, R77). -/
def Obligations.EncodedInstructionsDecodeBack : Prop :=
  ∀ i : Instr, i.wellFormed = true →
    decodeAll (encode i) = .ok i.expand ∧ ((i.isCommand = true ∨ i.isMicro = true) → i.expand = [i])

/-- Derived from R76, R77, R129: INPUTS expands to one INPUT word a byte, HASH to RESET, the INPUTs and RESULT, n + 2 words. -/
def Obligations.HashExpandsToItsCommandWords : Prop :=
  ∀ bytes : List Byte,
    (Instr.inputs bytes).words = bytes.map (fun b => 0x200#10 + b.setWidth 10) ∧
    (Instr.hash bytes).words = 0x100#10 :: ((Instr.inputs bytes).words ++ [0x300#10]) ∧
    (Instr.hash bytes).words.length = bytes.length + 2

/-! ## Word arithmetic -/

/-- R10: ADD32 is addition modulo 2^32, associative and commutative, and its corner cases. -/
def Obligations.Add32WrapsModulo : Prop :=
  (∀ a b : Word, (add32 a b).toNat = (a.toNat + b.toNat) % 2 ^ 32) ∧
  (∀ a b c : Word, add32 (add32 a b) c = add32 a (add32 b c)) ∧
  (∀ a b : Word, add32 a b = add32 b a) ∧
  (∀ a : Word, add32 a 0#32 = a) ∧
  add32 0xFFFFFFFF#32 0x00000001#32 = 0x00000000#32

/-- R11: ROTL32 for amounts 1 to 31, on naturals and bit by bit, and its worked values. -/
def Obligations.Rotl32IsTheCircularRotation : Prop :=
  (∀ (x : Word) (n : Nat), 1 ≤ n → n ≤ 31 →
    (rotl32 x n).toNat = (x.toNat <<< n) % 2 ^ 32 ||| x.toNat >>> (32 - n) ∧
    (∀ i, i < 32 → (rotl32 x n).getLsbD ((i + n) % 32) = x.getLsbD i) ∧
    rotl32 0xFFFFFFFF#32 n = 0xFFFFFFFF#32 ∧ rotl32 0#32 n = 0#32) ∧
  rotl32 0x80000000#32 1 = 0x00000001#32 ∧ rotl32 0x00000001#32 30 = 0x40000000#32 ∧
  rotl32 0x67452301#32 5 = 0xE8A4602C#32 ∧ rotl32 0xEFCDAB89#32 30 = 0x7BF36AE2#32

/-- R96 to R99: the three round functions as formulas and bit by bit, and the four constants. -/
def Obligations.RoundFunctionsBitByBit : Prop :=
  (∀ B C D : Word,
    fCh B C D = (B &&& C) ||| (~~~B &&& D) ∧ fParity B C D = B ^^^ C ^^^ D ∧
    fMaj B C D = (B &&& C) ||| (B &&& D) ||| (C &&& D) ∧
    ∀ i, i < 32 →
      (fCh B C D).getLsbD i = (if B.getLsbD i then C.getLsbD i else D.getLsbD i) ∧
      (fParity B C D).getLsbD i = (B.getLsbD i ^^ C.getLsbD i ^^ D.getLsbD i) ∧
      (fMaj B C D).getLsbD i = decide (2 ≤ (B.getLsbD i).toNat + (C.getLsbD i).toNat + (D.getLsbD i).toNat)) ∧
  k0 = 0x5A827999#32 ∧ k1 = 0x6ED9EBA1#32 ∧ k2 = 0x8F1BBCDC#32 ∧ k3 = 0xCA62C1D6#32

/-- R100: the function and the constant of each round. -/
def Obligations.RoundIndexChoosesFunctionAndConstant : Prop :=
  ∀ t : Fin 80,
    (t.val ≤ 19 → fOf t = fCh ∧ kOf t = 0x5A827999#32) ∧
    (20 ≤ t.val → t.val ≤ 39 → fOf t = fParity ∧ kOf t = 0x6ED9EBA1#32) ∧
    (40 ≤ t.val → t.val ≤ 59 → fOf t = fMaj ∧ kOf t = 0x8F1BBCDC#32) ∧
    (60 ≤ t.val → fOf t = fParity ∧ kOf t = 0xCA62C1D6#32)

/-! ## Packer, unpackers, outputs -/

/-- R49, R52: the packer and the digest's unpacker, big-endian, as formulas on naturals; packing and unpacking agree. -/
def Obligations.PackerAndUnpackerAreBigEndian : Prop :=
  (∀ b0 b1 b2 b3 : Byte,
    (pack32 b0 b1 b2 b3).toNat = b0.toNat * 2 ^ 24 + b1.toNat * 2 ^ 16 + b2.toNat * 2 ^ 8 + b3.toNat ∧
    (pack32 b0 b1 b2 b3).extractLsb' 24 8 = b0 ∧
    unpack32 (pack32 b0 b1 b2 b3) 0 = b0 ∧ unpack32 (pack32 b0 b1 b2 b3) 1 = b1 ∧
    unpack32 (pack32 b0 b1 b2 b3) 2 = b2 ∧ unpack32 (pack32 b0 b1 b2 b3) 3 = b3) ∧
  (∀ (w : Word) (k : Fin 4), (unpack32 w k).toNat = (w.toNat >>> (8 * (3 - k.val))) % 256) ∧
  (∀ (H : Vector Word 5) (i : Fin 20),
    (digestBytes H)[i].toNat = ((H[i.val / 4]'(by omega)).toNat >>> (8 * (3 - i.val % 4))) % 256) ∧
  (∀ (m : Memory) (j : Nat), m.read32 (4 * j) = pack32 (m.read (4 * j)) (m.read (4 * j + 1)) (m.read (4 * j + 2)) (m.read (4 * j + 3)))

/-- Derived from R53 with R119 and R105: LEN then LOAD leave the message length, high half first, in the last two direct words. -/
def Obligations.TrailerBecomesTheLastTwoWords : Prop :=
  ∀ s : State, s.buf.wf = true →
    (∀ k : Fin 8, (unpack64 s.bitLength k).toNat = (s.bitLength.toNat >>> (8 * (7 - k.val))) % 256) ∧
    ∃ t u, exec .len s = .next t ∧ exec .load t = .next u ∧
      u.W[14] = s.bitLength.extractLsb' 32 32 ∧ u.W[15] = s.bitLength.extractLsb' 0 32 ∧ t.buf.read64 56 = s.bitLength

/-- R32: the outputs as functions of state; the digest has a value only while `digest_valid` = 1. -/
def Obligations.OutputsAreFunctionsOfState : Prop :=
  ∀ s : State,
    (s.cmdReady = true ↔ s.phase = .idle) ∧
    (s.lifeOut = match s.life with
      | .uninitialized => 0#2 | .reset => 1#2 | .absorbing => 2#2 | .finalized => 3#2) ∧
    (s.errOut = match s.err with
      | .none => 0#2 | .usage => 1#2 | .inputTooLarge => 2#2) ∧
    (s.digestValid = true ↔ s.life = .finalized ∧ s.err = .none ∧ s.phase = .idle) ∧
    (s.digestValid = false → s.digest = none) ∧
    (s.digestValid = true → ∃ d : Vector Byte 20, s.digest = some d ∧
      ∀ i : Fin 20, d[i].toNat = ((s.H[i.val / 4]'(by omega)).toNat >>> (8 * (3 - i.val % 4))) % 256)

/-- Derived from R65: byte i of the digest stands on bits [159-8i : 152-8i] of the port `digest`. -/
def Obligations.DigestPortCarriesTheDigestBytes : Prop :=
  ∀ (s : State) (i : Fin 20), s.digestPort.extractLsb' (152 - 8 * i.val) 8 = (digestBytes s.H)[i]

/-! ## The step -/

/-- Derived from R66 (a) to (c) and R156: at an edge the machine runs the instruction the ports or the sequencer select, and nothing else
happens but the host going on; a word that is kept presented to a busy engine stays. -/
def Obligations.StepRunsTheSelectedInstruction : Prop :=
  ∀ s : State,
    (∀ rest, s.host = .powerOn :: rest → step s = .next (powerOnStep { s with host := rest })) ∧
    (s.phase = .idle → s.host = [] → step s = .next s) ∧
    (∀ rest, s.phase = .idle → s.host = .quiet :: rest → step s = .next { s with host := rest }) ∧
    (∀ w rest, s.phase = .idle → s.host = .present w :: rest ∨ s.host = .offer w :: rest →
      step s = exec (decodeCmd w) { s with host := rest }) ∧
    (∀ i, s.phase ≠ .idle → decodeMicro s.phase.code s.t = .ok i →
      (s.host = [] → step s = exec i s) ∧
      (∀ w rest, s.host = .present w :: rest → step s = exec i s) ∧
      (∀ w rest, s.host = .offer w :: rest → step s = exec i { s with host := rest }) ∧
      (∀ rest, s.host = .quiet :: rest → step s = exec i { s with host := rest }))

/-- Derived from R66: "A command is never dropped, never accepted twice, and never accepted out of order". The host's list loses its first event
at every step, except that a word kept presented to a busy engine stays first. -/
def Obligations.CommandsAreAcceptedOnceAndInOrder : Prop :=
  ∀ s s' : State, step s = .next s' →
    (s.host = [] → s'.host = []) ∧
    (∀ w rest, s.host = .present w :: rest → s.phase ≠ .idle → s'.host = .present w :: rest) ∧
    (∀ w rest, s.host = .present w :: rest → s.phase = .idle → s'.host = rest) ∧
    (∀ e rest, s.host = e :: rest → (∀ w, e ≠ .present w) → s'.host = rest)

/-- Derived from R66 (c) and R84: a command presented to a busy engine has no effect of its own, RESET included. -/
def Obligations.BusyEngineIgnoresCommands : Prop :=
  ∀ (s : State) (i : Instr), s.phase ≠ .idle → i.isCommand = true → exec i s = .next s

/-- R156: the power-on step, from any state whatever. Every register it does not name is a free value, of which nothing is said. -/
def Obligations.PowerOnStepLeavesTheEngineUninitialized : Prop :=
  ∀ (s : State) (rest : List HostEvent), s.host = .powerOn :: rest →
    ∃ t, step s = .next t ∧ t.life = .uninitialized ∧ t.phase = .idle ∧ t.fin = .none ∧ t.err = .none ∧ t.host = rest ∧
      t.cmdReady = true ∧ t.digestValid = false ∧ t.lifeOut = 0#2 ∧ t.errOut = 0#2 ∧ t.digest = none

/-- R42: what the spec states of the state after power-on. The data registers' reset values are the model's own (log entries 2 and 3) and are not
stated. -/
def Obligations.ResetStateIsUninitializedAndReady : Prop :=
  State.reset.life = .uninitialized ∧ State.reset.phase = .idle ∧ State.reset.fin = .none ∧ State.reset.err = .none ∧
  State.reset.cmdReady = true ∧ State.reset.digestValid = false

/-! ## The commands -/

/-- R83: NOP completes in every state and changes nothing; on an idle engine its word is like an edge without a command, but for being consumed. -/
def Obligations.NopChangesNothing : Prop :=
  ∀ s : State, exec .nop s = .next s ∧
    ∀ (w : CmdWord) (rest : List HostEvent), s.phase = .idle → w.extractLsb' 8 2 = 0b00#2 →
      step { s with host := .present w :: rest } = .next { s with host := rest } ∧
      step { s with host := .present w :: rest } = step { s with host := .quiet :: rest }

/-- R80: RESET completes on every idle engine, in any lifecycle state and with any `err`, with the listed writes and no others; a busy one does not accept
it. -/
def Obligations.ResetInitializesTheContext : Prop :=
  (∀ s : State, s.phase ≠ .idle → exec .reset s = .next s) ∧
  ∀ s : State, s.phase = .idle →
    ∃ t, exec .reset s = .next t ∧
      t.H[0] = 0x67452301#32 ∧ t.H[1] = 0xEFCDAB89#32 ∧ t.H[2] = 0x98BADCFE#32 ∧ t.H[3] = 0x10325476#32 ∧ t.H[4] = 0xC3D2E1F0#32 ∧
      t.bitLength = 0#64 ∧ t.blockIndex = 0#7 ∧ t.life = .reset ∧ t.err = .none ∧ t.phase = .idle ∧ t.fin = s.fin ∧
      t.buf = s.buf ∧ SameDatapath s t ∧ SameInput s t ∧
      t.lifeOut = 1#2 ∧ t.errOut = 0#2 ∧ t.digestValid = false ∧ t.cmdReady = true

/-- R86: within one INPUT the byte is stored at the old index, then the index is incremented, then 8 is added to `bit_length`, then the new index is
compared with 64. With it the accept step's other effects and its frame (R92). -/
def Obligations.InputStoresThenCountsThenTriggers : Prop :=
  ∀ (s : State) (b : Byte), s.buf.wf = true → s.phase = .idle → s.err = .none → (s.life = .reset ∨ s.life = .absorbing) →
    s.blockIndex.toNat ≤ 63 → s.bitLength.toNat + 8 < 2 ^ 64 →
    ∃ t, exec (.input b) s = .next t ∧
      t.buf.read s.blockIndex.toNat = b ∧ (∀ k, k ≠ s.blockIndex.toNat → t.buf.read k = s.buf.read k) ∧
      t.blockIndex.toNat = s.blockIndex.toNat + 1 ∧ t.bitLength.toNat = s.bitLength.toNat + 8 ∧ t.life = .absorbing ∧
      (s.blockIndex.toNat = 63 → t.phase = .load) ∧ (s.blockIndex.toNat ≠ 63 → t.phase = .idle) ∧
      t.H = s.H ∧ t.fin = s.fin ∧ t.err = .none ∧ SameDatapath s t ∧ SameInput s t ∧ t.buf.wf = true

/-- R142: the tests of an accepted INPUT or RESULT, in their order; the first that holds decides. -/
def Obligations.FirstFailingTestDecides : Prop :=
  ∀ (s : State) (b : Byte), s.phase = .idle →
    (s.err ≠ .none → exec (.input b) s = .next s ∧ exec .result s = .next s) ∧
    (s.err = .none → s.life = .uninitialized ∨ s.life = .finalized →
      exec (.input b) s = .next { s with err := .usage } ∧ exec .result s = .next { s with err := .usage }) ∧
    (s.err = .none → s.life = .reset ∨ s.life = .absorbing → s.bitLength = 0xFFFFFFFFFFFFFFF8#64 →
      exec (.input b) s = .next { s with err := .inputTooLarge }) ∧
    (s.err = .none → s.life = .reset ∨ s.life = .absorbing → s.blockIndex.toNat ≤ 63 →
      (∃ t, exec .result s = .next t ∧ t.err = .none ∧ t.phase = .zfill) ∧
      (s.bitLength.toNat + 8 < 2 ^ 64 → ∃ t, exec (.input b) s = .next t ∧ t.err = .none ∧ t.life = .absorbing))

/-- R141: INPUT_TOO_LARGE is raised exactly by an INPUT that would need a length of 2^64; RESULT never raises it. -/
def Obligations.OnlyInputRaisesInputTooLarge : Prop :=
  (∀ (s t : State) (b : Byte), s.phase = .idle → exec (.input b) s = .next t →
    ((s.err = .none ∧ t.err = .inputTooLarge) ↔
      (s.err = .none ∧ (s.life = .reset ∨ s.life = .absorbing) ∧ s.bitLength = 0xFFFFFFFFFFFFFFF8#64))) ∧
  (∀ s t : State, exec .result s = .next t → t.err = .inputTooLarge → s.err = .inputTooLarge)

/-- R145: while `err` is not NONE, INPUT, RESULT and NOP change nothing, RESET executes normally, the engine stays ready without a digest
and takes a refused command from the port in one step. -/
def Obligations.RecordedErrorRefusesAllButReset : Prop :=
  ∀ (s : State) (b : Byte), s.phase = .idle → s.err ≠ .none →
    exec (.input b) s = .next s ∧ exec .result s = .next s ∧ exec .nop s = .next s ∧
    s.cmdReady = true ∧ s.digestValid = false ∧
    (∃ t, exec .reset s = .next t ∧ t.err = .none ∧ t.life = .reset ∧ t.H = iv ∧ t.bitLength = 0#64 ∧ t.blockIndex = 0#7 ∧ t.phase = .idle) ∧
    ∀ w rest, s.host = .present w :: rest → decodeCmd w ≠ .reset → step s = .next { s with host := rest }

/-- R147 with R146: `err` keeps the code of the first error until a RESET is accepted or power-on. -/
def Obligations.FirstErrorIsKeptUntilReset : Prop :=
  ∀ s s' : State, step s = .next s' → s.err ≠ .none → (∀ rest, s.host ≠ .powerOn :: rest) →
    (s.phase = .idle → ¬Presents s .reset) →
    s'.err = s.err

/-- R115: RESULT's accept step appends the terminator and does not count it. With it the accept step's other effects and its frame (R116). -/
def Obligations.ResultAppendsTheTerminator : Prop :=
  ∀ s : State, s.buf.wf = true → s.phase = .idle → s.err = .none → (s.life = .reset ∨ s.life = .absorbing) → s.blockIndex.toNat ≤ 63 →
    ∃ t, exec .result s = .next t ∧
      t.buf.read s.blockIndex.toNat = 0x80#8 ∧ (∀ k, k ≠ s.blockIndex.toNat → t.buf.read k = s.buf.read k) ∧
      t.blockIndex.toNat = s.blockIndex.toNat + 1 ∧ 1 ≤ t.blockIndex.toNat ∧ t.blockIndex.toNat ≤ 64 ∧ t.bitLength = s.bitLength ∧
      t.fin = .pad ∧ t.phase = .zfill ∧ t.life = s.life ∧ t.err = .none ∧ t.H = s.H ∧ SameDatapath s t ∧ SameInput s t ∧ t.buf.wf = true

/-! ## The micro-operations -/

/-- R105: LOAD completes in every state: the packed block, the digest words, `t` = 0, and the frame; and a step enters LOAD only from an INPUT
accept, from ZFILL above 56 or from LEN, with `block_index` = 64. -/
def Obligations.LoadPacksTheBlock : Prop :=
  ∀ s : State, ∃ t, exec .load s = .next t ∧
    (∀ j : Fin 80, j.val < 16 →
      t.W[j] = pack32 (s.buf.read (4 * j.val)) (s.buf.read (4 * j.val + 1)) (s.buf.read (4 * j.val + 2)) (s.buf.read (4 * j.val + 3))) ∧
    (∀ j : Fin 80, 16 ≤ j.val → t.W[j] = s.W[j]) ∧
    t.work.A = s.H[0] ∧ t.work.B = s.H[1] ∧ t.work.C = s.H[2] ∧ t.work.D = s.H[3] ∧ t.work.E = s.H[4] ∧ t.t = 0#7 ∧ t.phase = .round ∧
    t.H = s.H ∧ t.buf = s.buf ∧ t.blockIndex = s.blockIndex ∧ t.bitLength = s.bitLength ∧ t.fin = s.fin ∧ t.life = s.life ∧ t.err = s.err ∧
    SameInput s t ∧
    ∀ u : State, step u = .next s → s.phase = .load →
      s.blockIndex = 64#7 ∧
        ((u.phase = .idle ∧ ∃ b, Presents u (.input b)) ∨ (u.phase = .zfill ∧ 56 < u.blockIndex.toNat) ∨ u.phase = .len)

/-- R106 with R95, R96 to R99, R101: each variant of ROUND completes at the `t` it is selected for, with the round's work and the frame. -/
def Obligations.RoundVariantsDoOneRound : Prop :=
  ∀ (s : State) (t : Fin 80), s.phase = .round → s.t.toNat = t.val →
    (t.val ≤ 19 → ∃ s', exec .roundCh s = .next s' ∧
      RoundEffect (fun B C D => (B &&& C) ||| (~~~B &&& D)) 0x5A827999#32 t s s') ∧
    (20 ≤ t.val → t.val ≤ 39 → ∃ s', exec .roundPar1 s = .next s' ∧ RoundEffect (fun B C D => B ^^^ C ^^^ D) 0x6ED9EBA1#32 t s s') ∧
    (40 ≤ t.val → t.val ≤ 59 → ∃ s', exec .roundMaj s = .next s' ∧
      RoundEffect (fun B C D => (B &&& C) ||| (B &&& D) ||| (C &&& D)) 0x8F1BBCDC#32 t s s') ∧
    (60 ≤ t.val → ∃ s', exec .roundPar2 s = .next s' ∧ RoundEffect (fun B C D => B ^^^ C ^^^ D) 0xCA62C1D6#32 t s s')

/-- Derived from R72 and U4 (spec/93_implementation_defined.md): a ROUND with `t` of 80 or more, which is never reached, stops the model by name (log entry 6). -/
def Obligations.RoundBeyondSeventyNineStops : Prop :=
  ∀ s : State, 80 ≤ s.t.toNat →
    exec .roundCh s = .fault (.roundIndex s.t) ∧ exec .roundPar1 s = .fault (.roundIndex s.t) ∧
    exec .roundMaj s = .fault (.roundIndex s.t) ∧ exec .roundPar2 s = .fault (.roundIndex s.t) ∧
    (s.phase = .round → (∀ rest, s.host ≠ .powerOn :: rest) → step s = .fault (.roundIndex s.t))

/-- R107 with R103: ACCUM completes in every state: the five sums, `block_index` = 0, the next phase by `fin`, and the frame; and where ACCUM is entered
from. -/
def Obligations.AccumAddsAndContinuesByFin : Prop :=
  ∀ s : State, ∃ t, exec .accum s = .next t ∧
    t.H[0] = add32 s.H[0] s.work.A ∧ t.H[1] = add32 s.H[1] s.work.B ∧ t.H[2] = add32 s.H[2] s.work.C ∧ t.H[3] = add32 s.H[3] s.work.D ∧
    t.H[4] = add32 s.H[4] s.work.E ∧ t.blockIndex = 0#7 ∧
    (s.fin = .none → t.phase = .idle ∧ t.cmdReady = true) ∧ (s.fin = .pad → t.phase = .zfill) ∧ (s.fin = .last → t.phase = .clear) ∧
    SameDatapath s t ∧ t.buf = s.buf ∧ t.bitLength = s.bitLength ∧ t.fin = s.fin ∧ t.life = s.life ∧ t.err = s.err ∧ SameInput s t ∧
    ∀ u : State, step u = .next s → s.phase = .accum → u.phase = .round ∧ u.t.toNat = 79

/-- R118 with R117: ZFILL completes: zeros from `block_index` to the end of the buffer, or up to offset 56, and the frame; and a step
enters ZFILL only from a RESULT accept or from ACCUM with `fin` = PAD. -/
def Obligations.ZfillFillsToTheTrailerOrTheEnd : Prop :=
  ∀ s : State, s.buf.wf = true → ∃ t, exec .zfill s = .next t ∧
    (56 < s.blockIndex.toNat →
      (∀ k, t.buf.read k = if s.blockIndex.toNat ≤ k ∧ k ≤ 63 then 0x00#8 else s.buf.read k) ∧ t.blockIndex = 64#7 ∧ t.phase = .load) ∧
    (s.blockIndex.toNat ≤ 56 →
      (∀ k, t.buf.read k = if s.blockIndex.toNat ≤ k ∧ k ≤ 55 then 0x00#8 else s.buf.read k) ∧ t.blockIndex = 56#7 ∧ t.phase = .len) ∧
    t.H = s.H ∧ t.bitLength = s.bitLength ∧ t.fin = s.fin ∧ t.life = s.life ∧ t.err = s.err ∧ SameDatapath s t ∧ SameInput s t ∧
    t.buf.wf = true ∧
    ∀ u : State, step u = .next s → s.phase = .zfill →
      (u.phase = .idle ∧ Presents u .result ∧ 1 ≤ s.blockIndex.toNat ∧ s.blockIndex.toNat ≤ 64) ∨
        (u.phase = .accum ∧ u.fin = .pad ∧ s.blockIndex = 0#7)

/-- R119: LEN completes: the eight trailer bytes at offsets 56 to 63, most significant first, `block_index` = 64, `fin` = LAST, and the
frame; and where LEN is entered from. -/
def Obligations.LenWritesTheTrailer : Prop :=
  ∀ s : State, s.buf.wf = true → ∃ t, exec .len s = .next t ∧
    (∀ k : Fin 8, (t.buf.read (56 + k.val)).toNat = (s.bitLength.toNat >>> (8 * (7 - k.val))) % 256) ∧
    (∀ k, k < 56 ∨ 64 ≤ k → t.buf.read k = s.buf.read k) ∧
    t.blockIndex = 64#7 ∧ t.fin = .last ∧ t.phase = .load ∧
    t.H = s.H ∧ t.bitLength = s.bitLength ∧ t.life = s.life ∧ t.err = s.err ∧ SameDatapath s t ∧ SameInput s t ∧ t.buf.wf = true ∧
    ∀ u : State, step u = .next s → s.phase = .len → u.phase = .zfill ∧ s.blockIndex = 56#7

/-- R122: CLEAR completes: every buffer byte 0x00, the counters 0, `life` = FINALIZED, `fin` = NONE, IDLE, and the frame; and where
CLEAR is entered from. -/
def Obligations.ClearErasesBufferAndCounters : Prop :=
  ∀ s : State, s.buf.wf = true → ∃ t, exec .clear s = .next t ∧
    (∀ k, t.buf.read k = 0x00#8) ∧ t.buf = [] ∧ t.bitLength = 0#64 ∧ t.blockIndex = 0#7 ∧ t.life = .finalized ∧ t.fin = .none ∧
    t.phase = .idle ∧ t.H = s.H ∧ t.err = s.err ∧ SameDatapath s t ∧ SameInput s t ∧
    (s.err = .none → t.digestValid = true ∧ t.digest = some (digestBytes s.H)) ∧ t.lifeOut = 3#2 ∧ t.cmdReady = true ∧
    ∀ u : State, step u = .next s → s.phase = .clear → u.phase = .accum ∧ u.fin = .last ∧ s.blockIndex = 0#7

/-- Derived from R39 (what each step writes): every register that a command or a micro-operation does not write is unchanged by it, and the buffer
bytes outside its store read as before (ZFILL stores from `block_index` up to offset 64 when that is above 56, else up to 56). -/
def Obligations.OnlyTheListedRegistersAreWritten : Prop :=
  ∀ (i : Instr) (s t : State), (i.isCommand = true ∨ i.isMicro = true) → exec i s = .next t →
    (i ≠ .reset → i ≠ .accum → t.H = s.H) ∧
    ((i.isCommand = true ∨ i = .accum ∨ i = .zfill ∨ i = .len ∨ i = .clear) → SameDatapath s t) ∧
    (i = .load → ∀ j : Fin 80, 16 ≤ j.val → t.W[j] = s.W[j]) ∧
    (i = .roundCh ∨ i = .roundPar1 ∨ i = .roundMaj ∨ i = .roundPar2 →
      ∀ j : Fin 80, (j.val < 16 ∨ j.val ≠ s.t.toNat) → t.W[j] = s.W[j]) ∧
    ((i = .nop ∨ i = .reset ∨ i = .load ∨ i = .roundCh ∨ i = .roundPar1 ∨ i = .roundMaj ∨ i = .roundPar2 ∨ i = .accum) → t.buf = s.buf) ∧
    ((∃ b, i = .input b) ∨ i = .result → ∀ k, k ≠ s.blockIndex.toNat → t.buf.read k = s.buf.read k) ∧
    (i = .zfill → ∀ k, k < s.blockIndex.toNat ∨ (if 56 < s.blockIndex.toNat then 64 else 56) ≤ k → t.buf.read k = s.buf.read k) ∧
    (i = .len → ∀ k, k < 56 ∨ 64 ≤ k → t.buf.read k = s.buf.read k) ∧
    (i = .clear → ∀ k, 64 ≤ k → t.buf.read k = s.buf.read k) ∧
    ((i = .nop ∨ i = .load ∨ i = .roundCh ∨ i = .roundPar1 ∨ i = .roundMaj ∨ i = .roundPar2) → t.blockIndex = s.blockIndex) ∧
    ((∀ b, i ≠ .input b) → i ≠ .reset → i ≠ .clear → t.bitLength = s.bitLength) ∧
    ((i = .nop ∨ i = .reset) → t.phase = s.phase) ∧
    (i ≠ .result → i ≠ .len → i ≠ .clear → t.fin = s.fin) ∧
    ((∀ b, i ≠ .input b) → i ≠ .reset → i ≠ .clear → t.life = s.life) ∧
    ((i = .nop ∨ i.isMicro = true) → t.err = s.err) ∧
    SameInput s t

/-! ## Whole-machine rules -/

/-- R28: the codes of the phases, and the successor of each phase while `rst` stays low. -/
def Obligations.PhasesFollowTheSuccessorRelation : Prop :=
  ([Phase.idle, .load, .round, .accum, .zfill, .len, .clear].map Phase.code = [0#3, 1#3, 2#3, 3#3, 4#3, 5#3, 6#3] ∧ ∀ p : Phase, p.code ≠ 7#3) ∧
  ∀ s s' : State, step s = .next s' → (∀ rest, s.host ≠ .powerOn :: rest) →
    (s.phase = .idle →
      s'.phase = .idle ∨ (s'.phase = .load ∧ s'.blockIndex = 64#7 ∧ ∃ b, Presents s (.input b)) ∨
      (s'.phase = .zfill ∧ Presents s .result)) ∧
    (s.phase = .load → s'.phase = .round) ∧
    (s.phase = .round → (s.t.toNat < 79 → s'.phase = .round) ∧ (s.t.toNat = 79 → s'.phase = .accum)) ∧
    (s.phase = .accum → s'.phase = match s.fin with | .none => .idle | .pad => .zfill | .last => .clear) ∧
    (s.phase = .zfill → (56 < s.blockIndex.toNat → s'.phase = .load) ∧ (s.blockIndex.toNat ≤ 56 → s'.phase = .len)) ∧
    (s.phase = .len → s'.phase = .load) ∧
    (s.phase = .clear → s'.phase = .idle)

/-- Derived from R21: the digest words are written by an accepted RESET, by ACCUM, at power-on, "by nothing else". -/
def Obligations.DigestWordsHaveThreeWriters : Prop :=
  ∀ s s' : State, step s = .next s' → s'.H ≠ s.H →
    (∃ rest, s.host = .powerOn :: rest) ∨ s.phase = .accum ∨
    (s.phase = .idle ∧ Presents s .reset)

/-- R123: FINALIZED is "terminal until Reset": RESET and NOP have their effects, INPUT and RESULT raise USAGE, and the digest stays readable until RESET, a
refused command or power-on. -/
def Obligations.FinalizedIsTerminalUntilReset : Prop :=
  ∀ s : State, s.phase = .idle → s.life = .finalized → (∀ rest, s.host ≠ .powerOn :: rest) →
    (∀ w rest, s.host = .present w :: rest ∨ s.host = .offer w :: rest →
      (decodeCmd w = .reset → ∃ t, step s = .next t ∧ t.life = .reset ∧ t.err = .none ∧ t.digestValid = false) ∧
      (decodeCmd w = .nop → step s = .next { s with host := rest }) ∧
      ((∃ b, decodeCmd w = .input b) ∨ decodeCmd w = .result →
        (s.err = .none → step s = .next { s with host := rest, err := .usage }) ∧
        (s.err ≠ .none → step s = .next { s with host := rest }))) ∧
    ((∀ w rest, s.host = .present w :: rest ∨ s.host = .offer w :: rest → decodeCmd w = .nop) →
      ∃ t, step s = .next t ∧ t.digestValid = s.digestValid ∧ t.digest = s.digest ∧ t.life = .finalized)

/-- The invariant `Sys2Proof.Safety.Inv` holds right after power-on reset (R42; the data registers' values there are the model's, log entries 2 and 3). -/
def Obligations.InvariantHoldsAtReset : Prop := Inv State.reset

/-- Derived from R33 with R26, R27, R29, R34, R35: every step keeps the invariant, from every state that has it. -/
def Obligations.EveryStepKeepsTheInvariant : Prop :=
  ∀ s s' : State, Inv s → step s = .next s' → Inv s'

/-- Derived from R138, R144, R170 ("The engine never hangs and has no stuck state"): in a state with the invariant every step answers a next state, so no
fault of the model can happen, whatever the host does. -/
def Obligations.InvariantStatesNeverStop : Prop :=
  ∀ s : State, Inv s → ∀ n : Nat, ∃ t, stepN n s = .next t ∧ Inv t

/-- R170: every busy period ends within 168 steps when `rst` stays low, whatever else the host presents. -/
def Obligations.EveryBusyPeriodEnds : Prop :=
  ∀ s : State, Inv s → s.phase ≠ .idle → (∀ e ∈ s.host, e ≠ .powerOn) →
    ∃ (n : Nat) (t : State), n ≤ 168 ∧ stepN n s = .next t ∧ t.phase = .idle

/-! ## Compression and finalization -/

/-- R111: from phase LOAD the next 82 steps are LOAD, ROUND with t = 0 to 79, ACCUM, and they do `Compress`. -/
def Obligations.CompressionStepsRefineCompress : Prop :=
  ∀ s : State, s.phase = .load → (s.host = [] ∨ ∃ w rest, s.host = .present w :: rest) →
    (∀ j : Nat, j < 80 → ∃ u, stepN (1 + j) s = .next u ∧ u.phase = .round ∧ u.t.toNat = j ∧ u.host = s.host) ∧
    (∃ u, stepN 81 s = .next u ∧ u.phase = .accum ∧ u.host = s.host) ∧
    ∃ t, stepN 82 s = .next t ∧ t.H = compress s.H s.buf.block ∧ t.blockIndex = 0#7 ∧ t.buf = s.buf ∧ t.bitLength = s.bitLength ∧
      t.fin = s.fin ∧ t.life = s.life ∧ t.err = s.err ∧ t.host = s.host ∧
      t.phase = (match s.fin with | .none => .idle | .pad => .zfill | .last => .clear)

/-- R109: expanding the schedule in the ROUND steps gives the words of expanding it first, each written once (LOAD's sixteen, then `W[j]` in the round of
index j), and the rounds the same working variables. -/
def Obligations.ExpandingOnTheFlyEqualsExpandingFirst : Prop :=
  ∀ s : State, s.phase = .load → s.host = [] →
    (∀ j : Nat, j ≤ 80 → ∃ u, stepN (1 + j) s = .next u ∧ u.work = rounds (schedule s.buf.block) (workOf s.H) j ∧
      ∀ i : Fin 80, (i.val < 16 ∨ i.val < j → u.W[i] = (schedule s.buf.block)[i]) ∧ (16 ≤ i.val → j ≤ i.val → u.W[i] = s.W[i])) ∧
    (∀ t : Fin 80, 16 ≤ t.val →
      (schedule s.buf.block)[t] =
        rotl32 (((schedule s.buf.block)[t.val - 3]'(by omega)) ^^^ ((schedule s.buf.block)[t.val - 8]'(by omega))
          ^^^ ((schedule s.buf.block)[t.val - 14]'(by omega)) ^^^ ((schedule s.buf.block)[t.val - 16]'(by omega))) 1)

/-- R92: an INPUT run until the engine is ready again leaves what `DoInput` gives, in 83 steps when it fills the buffer (LOAD, 80 times ROUND, ACCUM after
the accept step) and in one otherwise. -/
def Obligations.InputStepsRefineDoInput : Prop :=
  ∀ (s : State) (b : Byte), Inv s → s.phase = .idle → s.host = [.present (0x200#10 + b.setWidth 10)] →
    ∃ (n : Nat) (t u : State), stepN n s = .next t ∧ doInput b s = .next u ∧ t.context = u.context ∧ t.phase = .idle ∧ t.fin = .none ∧ t.host = [] ∧
      ((n = 1 ∧ ¬(screenInput s = .passes ∧ s.blockIndex.toNat = 63)) ∨
        (n = 83 ∧ screenInput s = .passes ∧ s.blockIndex.toNat = 63 ∧
          ∀ k, 1 ≤ k → k ≤ 82 → ∃ v, stepN k s = .next v ∧ v.cmdReady = false ∧ v.blockIndex.toNat = 64 ∧
            v.phase = if k = 1 then .load else if k = 82 then .accum else .round))

/-- R126: a RESULT run until the engine is ready again passes through the listed phases, 86 or 169 steps with the accept step, and leaves what `DoResult`
gives. -/
def Obligations.ResultStepsRefineDoResult : Prop :=
  ∀ s : State, Inv s → s.phase = .idle → s.err = .none → (s.life = .reset ∨ s.life = .absorbing) → s.host = [.present 0x300#10] →
    (s.blockIndex.toNat ≤ 55 → (finalizationPhases s).length + 1 = 86) ∧ (56 ≤ s.blockIndex.toNat → (finalizationPhases s).length + 1 = 169) ∧
    (∀ k, k < (finalizationPhases s).length → ∃ v, stepN (1 + k) s = .next v ∧ (finalizationPhases s)[k]? = some v.phase) ∧
    ∃ t u : State, stepN ((finalizationPhases s).length + 1) s = .next t ∧ doResult s = .next u ∧ t.context = u.context ∧ t.fin = .none ∧ t.phase = .idle ∧ t.host = []

/-- Derived from R124, R125: the padded message is whole blocks; the padding's zeros, its length, and the number of compressions. -/
def Obligations.PaddedMessageIsWholeBlocks : Prop :=
  ∀ m : List Byte,
    padded m = m ++ (0x80#8 :: (List.replicate (padZeros m.length) 0x00#8 ++ (List.finRange 8).map (unpack64 (BitVec.ofNat 64 (8 * m.length))))) ∧
    (m.length % 64 ≤ 55 → padZeros m.length = 55 - m.length % 64 ∧ m.length % 64 + (padding m.length).length = 64 ∧
      (padded m).length = 64 * (m.length / 64 + 1)) ∧
    (56 ≤ m.length % 64 → padZeros m.length = 119 - m.length % 64 ∧ m.length % 64 + (padding m.length).length = 128 ∧
      (padded m).length = 64 * (m.length / 64 + 2))

/-! ## Whole messages -/

/-- Derived from R76, R90, R133: INPUTS issues one INPUT after the other, so the way a message is cut into chunks does not matter. -/
def Obligations.ChunkingDoesNotMatter : Prop :=
  (∀ s : State, exec (.inputs []) s = .next s) ∧
  (∀ (m₁ m₂ : List Byte) (s : State), exec (.inputs (m₁ ++ m₂)) s = andThen (exec (.inputs m₁) s) (exec (.inputs m₂)))

/-- Derived from R137, R34, R35, R112: INPUTS completes while the length counter has room: the bytes are counted; from a fresh RESET the full blocks have been
compressed in order and the bytes left over stand in the buffer. -/
def Obligations.InputsAbsorbTheWholeMessage : Prop :=
  ∀ (s : State) (m : List Byte), Inv s → s.phase = .idle → s.err = .none → (s.life = .reset ∨ s.life = .absorbing) →
    s.bitLength.toNat + 8 * m.length < 2 ^ 64 →
    ∃ t, exec (.inputs m) s = .next t ∧ Inv t ∧ t.phase = .idle ∧ t.err = .none ∧ (m = [] → t.life = s.life) ∧
      (m ≠ [] → t.life = .absorbing) ∧ t.bitLength.toNat = s.bitLength.toNat + 8 * m.length ∧
      t.blockIndex.toNat = (s.blockIndex.toNat + m.length) % 64 ∧ SameInput s t ∧
      (s.life = .reset → s.H = iv →
        t.H = chain iv (blocks (m.length / 64) m) ∧
        ∀ k, k < m.length % 64 → t.buf.read k = m.getD (64 * (m.length / 64) + k) 0x00#8)

/-- R130: HASH leaves the digest `SHA1(m)`, whatever the state before it (R129, R134), and the finalized context of R128. -/
def Obligations.HashComputesSha1 : Prop :=
  ∀ (s : State) (m : List Byte), Inv s → m.length ≤ 2 ^ 61 - 1 →
    ∃ t, exec (.hash m) s = .next t ∧ t.digest = some (sha1 m) ∧ t.digestValid = true ∧ t.H = sha1Words m ∧ (∀ k, t.buf.read k = 0x00#8) ∧
      t.bitLength = 0#64 ∧ t.blockIndex = 0#7 ∧ t.life = .finalized ∧ t.err = .none ∧ t.fin = .none ∧ t.phase = .idle ∧ t.t.toNat = 79 ∧
      SameInput s t

/-- R129: HASH expands to its n + 2 words, does `DoReset`, `DoInput` of each byte in order, `DoResult`, and raises no error; a message of more than 2^61 - 1 bytes ends with
INPUT_TOO_LARGE and no digest. -/
def Obligations.HashRefinesDoHash : Prop :=
  ∀ (s : State) (m : List Byte), Inv s → s.phase = .idle →
    (Instr.hash m).words = 0x100#10 :: (m.map (fun b => 0x200#10 + b.setWidth 10) ++ [0x300#10]) ∧
    (m.length ≤ 2 ^ 61 - 1 → ∃ t u, exec (.hash m) s = .next t ∧ doHash m s = .next u ∧ t.context = u.context ∧ t.err = .none ∧ t.digestValid = true) ∧
    (2 ^ 61 ≤ m.length → ∃ t, exec (.hash m) s = .next t ∧ t.err = .inputTooLarge ∧ t.digestValid = false ∧ t.bitLength.toNat = 2 ^ 64 - 8)

/-- R169 with R129: the words of HASH on the port do what HASH does, in the stated number of steps and no fewer. -/
def Obligations.HashOnThePortTakesTheStatedSteps : Prop :=
  ∀ (s : State) (m : List Byte), Inv s → s.phase = .idle → s.host = [] → m.length ≤ 2 ^ 61 - 1 →
    let n := 1 + m.length + 82 * (m.length / 64) + if m.length % 64 ≤ 55 then 86 else 169
    stepN n (s.presentWords (Instr.hash m).words) = exec (.hash m) s ∧
      ∀ k, k < n → ∃ u, stepN k (s.presentWords (Instr.hash m).words) = .next u ∧ (u.host ≠ [] ∨ u.phase ≠ .idle)

/-- Derived from R60, R66, R75, R131: a sequence of words, with any edges without a command between them, does on the port what its commands do one after
the other. -/
def Obligations.PortRunsTheCommandSequence : Prop :=
  ∀ (s : State) (events : List HostEvent), Inv s → s.phase = .idle → s.host = events →
    (∀ e ∈ events, e = .quiet ∨ ∃ w, e = .present w) →
    ∃ (n : Nat) (t : State), stepN n s = .next t ∧ t.phase = .idle ∧ t.host = [] ∧
      issueWords (presentedWords events) { s with host := [] } = .next t

/-- Derived from R131, R134, U1 (spec/93_implementation_defined.md): after a power-on step from any state at all, busy or not, HASH gives the message's digest:
the unspecified register contents do not matter. -/
def Obligations.PowerOnContentsDoNotMatter : Prop :=
  ∀ (s : State) (m : List Byte), s.host = .powerOn :: (Instr.hash m).words.map .present → m.length ≤ 2 ^ 61 - 1 →
    ∃ t, stepN (1 + hashSteps m.length) s = .next t ∧ t.digest = some (sha1 m) ∧ t.host = []

/-- Derived from R82, R38, U10: whatever command is issued, idle engines that agree on what R82 says matters go on agreeing on it and on every output. -/
def Obligations.LeftoversAreNeverObserved : Prop :=
  ∀ (s₁ s₂ : State) (w : CmdWord), Inv s₁ → Inv s₂ → Alike s₁ s₂ →
    outputs s₁ = outputs s₂ ∧
    ∃ t₁ t₂, issue (exec (decodeCmd w)) s₁ = .next t₁ ∧ issue (exec (decodeCmd w)) s₂ = .next t₂ ∧ Alike t₁ t₂ ∧ outputs t₁ = outputs t₂
end

