-- ==== Sys2Proof/Laws/Memory.lean ====
section
/-! SUPPORT. What the buffer operations do (spec/20_memory.md R46, R47, R50, R51): a read after a write, and that every operation keeps
the canonical form. -/

namespace Sys2Proof.Machine.Memory

@[simp] theorem read_nil (k : Nat) : Memory.read [] k = 0#8 := rfl

theorem wfFrom_nil (lo : Nat) : wfFrom lo [] = true := rfl

theorem wfFrom_cons {lo k : Nat} {b : Byte} {m : Memory} :
    wfFrom lo ((k, b) :: m) = true ↔ lo ≤ k ∧ k < 64 ∧ b ≠ 0#8 ∧ wfFrom (k + 1) m = true := by
  rw [wfFrom]
  simp only [Bool.and_eq_true, decide_eq_true_eq, and_assoc]

theorem wfFrom_mono {lo lo' : Nat} {m : Memory} (h : wfFrom lo m = true) (hle : lo' ≤ lo) : wfFrom lo' m = true := by
  cases m with
  | nil => rfl
  | cons c rest =>
    obtain ⟨k, b⟩ := c
    rw [wfFrom_cons] at h ⊢
    exact ⟨by omega, h.2⟩

/-- Offsets below the first one listed read as unlisted. -/
theorem read_below {lo k : Nat} {m : Memory} (h : wfFrom lo m = true) (hk : k < lo) : m.read k = 0#8 := by
  induction m generalizing lo with
  | nil => rfl
  | cons c rest ih =>
    obtain ⟨a, b⟩ := c
    rw [wfFrom_cons] at h
    have hne : ¬ a = k := by omega
    simp only [read, hne, if_false]
    exact ih h.2.2.2 (by omega)

/-- Offsets of 64 and more read as unlisted. -/
theorem read_outside {lo k : Nat} {m : Memory} (h : wfFrom lo m = true) (hk : 64 ≤ k) : m.read k = 0#8 := by
  induction m generalizing lo with
  | nil => rfl
  | cons c rest ih =>
    obtain ⟨a, b⟩ := c
    rw [wfFrom_cons] at h
    have hne : ¬ a = k := by omega
    simp only [read, hne, if_false]
    exact ih h.2.2.2

theorem wfFrom_write {lo k : Nat} {m : Memory} (b : Byte) (h : wfFrom lo m = true) (hlo : lo ≤ k) (hk : k < 64) :
    wfFrom lo (m.write k b) = true := by
  induction m generalizing lo with
  | nil =>
    by_cases hb : b = 0#8
    · simp [write, unlisted, hb, wfFrom_nil]
    · simp only [write, unlisted, hb, if_false]
      exact wfFrom_cons.2 ⟨hlo, hk, hb, rfl⟩
  | cons c rest ih =>
    obtain ⟨a, d⟩ := c
    have h' := wfFrom_cons.1 h
    simp only [write]
    split
    · rename_i hka
      split
      · exact h
      · rename_i hb
        exact wfFrom_cons.2 ⟨hlo, hk, hb, wfFrom_cons.2 ⟨by omega, h'.2⟩⟩
    · split
      · rename_i hka
        split
        · exact wfFrom_mono h'.2.2.2 (by omega)
        · rename_i hb
          exact wfFrom_cons.2 ⟨h'.1, h'.2.1, hb, h'.2.2.2⟩
      · exact wfFrom_cons.2 ⟨h'.1, h'.2.1, h'.2.2.1, ih h'.2.2.2 (by omega)⟩

theorem wf_nil : wf [] = true := rfl

/-- A write keeps the canonical form. -/
theorem wf_write {k : Nat} {m : Memory} (b : Byte) (h : m.wf = true) (hk : k < 64) : (m.write k b).wf = true :=
  wfFrom_write b h (Nat.zero_le k) hk

theorem read_write_self_from {lo k : Nat} {m : Memory} (b : Byte) (h : wfFrom lo m = true) : (m.write k b).read k = b := by
  induction m generalizing lo with
  | nil =>
    by_cases hb : b = 0#8 <;> simp [write, unlisted, hb, read]
  | cons c rest ih =>
    obtain ⟨a, d⟩ := c
    have h' := wfFrom_cons.1 h
    simp only [write]
    split
    · split
      · rename_i hka hb
        have hne : ¬ a = k := by omega
        simp only [read, hne, if_false]
        rw [read_below h'.2.2.2 (by omega), hb]
      · simp [read]
    · split
      · rename_i hka
        split
        · rename_i hb
          rw [read_below h'.2.2.2 (by omega), hb]
        · simp [read, hka]
      · rename_i h1 h2
        have hne : ¬ a = k := fun e => h2 e.symm
        simp only [read, hne, if_false]
        exact ih h'.2.2.2

/-- A read after a write to the same offset gives the byte written (R56). -/
theorem read_write_self {k : Nat} {m : Memory} (b : Byte) (h : m.wf = true) : (m.write k b).read k = b :=
  read_write_self_from b h

/-- A write leaves every other offset alone. -/
theorem read_write_other {j k : Nat} (m : Memory) (b : Byte) (hne : j ≠ k) : (m.write k b).read j = m.read j := by
  induction m with
  | nil =>
    by_cases hb : b = 0#8
    · simp [write, unlisted, hb]
    · simp [write, unlisted, hb, read, Ne.symm hne]
  | cons c rest ih =>
    obtain ⟨a, d⟩ := c
    simp only [write]
    split
    · split
      · rfl
      · simp [read, Ne.symm hne]
    · split
      · rename_i hka
        subst hka
        split <;> simp [read, Ne.symm hne]
      · simp only [read]
        split
        · rfl
        · exact ih

theorem wf_writeBytes {k : Nat} {m : Memory} (bytes : List Byte) (h : m.wf = true) (hk : k + bytes.length ≤ 64) :
    (m.writeBytes k bytes).wf = true := by
  induction bytes generalizing m k with
  | nil => exact h
  | cons b rest ih =>
    simp only [List.length_cons] at hk
    exact ih (wf_write b h (by omega)) (by omega)

/-- A run of bytes leaves the offsets before it and after it alone. -/
theorem read_writeBytes_outside {j k : Nat} (m : Memory) (bytes : List Byte) (h : j < k ∨ k + bytes.length ≤ j) :
    (m.writeBytes k bytes).read j = m.read j := by
  induction bytes generalizing m k with
  | nil => rfl
  | cons b rest ih =>
    simp only [List.length_cons] at h
    simp only [writeBytes]
    rw [ih (m := m.write k b) (k := k + 1) (by omega), read_write_other m b (by omega)]

/-- A run of bytes is read back, byte by byte. -/
theorem read_writeBytes_inside {i k : Nat} {m : Memory} (bytes : List Byte) (h : m.wf = true) (hk : k + bytes.length ≤ 64)
    (hi : i < bytes.length) : (m.writeBytes k bytes).read (k + i) = bytes[i] := by
  induction bytes generalizing m k i with
  | nil => simp at hi
  | cons b rest ih =>
    simp only [List.length_cons] at hk hi
    simp only [writeBytes]
    cases i with
    | zero =>
      rw [read_writeBytes_outside _ _ (by omega)]
      exact read_write_self b h
    | succ i =>
      have := ih (m := m.write k b) (k := k + 1) (i := i) (wf_write b h (by omega)) (by omega) (by omega)
      rw [show k + (i + 1) = k + 1 + i by omega, this]
      rfl

/-- ZFILL and CLEAR keep the canonical form. -/
theorem wf_zeroFill {lo hi : Nat} {m : Memory} (h : m.wf = true) (hhi : hi ≤ 64) : (m.zeroFill lo hi).wf = true := by
  by_cases hlt : lo ≤ hi
  · exact wf_writeBytes _ h (by simp; omega)
  · have : hi - lo = 0 := by omega
    simp [zeroFill, this, writeBytes, h]

/-- What a zero fill reads as: 0x00 from `lo` up to `hi`, every other offset as before (R118). -/
theorem read_zeroFill {lo hi : Nat} {m : Memory} (j : Nat) (h : m.wf = true) (hhi : hi ≤ 64) :
    (m.zeroFill lo hi).read j = if lo ≤ j ∧ j < hi then 0#8 else m.read j := by
  split
  · rename_i hj
    obtain ⟨i, rfl⟩ : ∃ i, j = lo + i := ⟨j - lo, by omega⟩
    rw [zeroFill, read_writeBytes_inside _ h (by simp; omega) (by simp; omega)]
    simp
  · rename_i hj
    exact read_writeBytes_outside _ _ (by simp; omega)

/-- LEN's write keeps the canonical form. -/
theorem wf_write64 {k : Nat} {m : Memory} (v : BitLength) (h : m.wf = true) (hk : k + 8 ≤ 64) : (m.write64 k v).wf = true :=
  wf_writeBytes _ h (by simpa using hk)

/-- `MemWrite(k, 8, v)`: byte i of `v` counted from the most significant stands at offset k + i (R51, R53). -/
theorem read_write64 {k : Nat} {m : Memory} (v : BitLength) (i : Fin 8) (h : m.wf = true) (hk : k + 8 ≤ 64) :
    (m.write64 k v).read (k + i.val) = unpack64 v i := by
  rw [write64, read_writeBytes_inside _ h (by simpa using hk) (by simp)]
  simp

/-- `MemWrite(k, 8, v)` leaves the other offsets alone. -/
theorem read_write64_outside {j k : Nat} (m : Memory) (v : BitLength) (h : j < k ∨ k + 8 ≤ j) :
    (m.write64 k v).read j = m.read j :=
  read_writeBytes_outside _ _ (by simpa using h)

/-- The buffer that holds given bytes is in canonical form. -/
theorem wf_ofBlock (block : Vector Byte 64) : (ofBlock block).wf = true := wf_writeBytes _ wf_nil (by simp)

theorem read_ofBlock (block : Vector Byte 64) (k : Fin 64) : (ofBlock block).read k.val = block[k] := by
  have := read_writeBytes_inside (i := k.val) (k := 0) (m := []) block.toList wf_nil (by simp) (by simp)
  simpa [ofBlock] using this

/-- Two buffers in canonical form that read the same are equal. -/
theorem ext_of_read {lo : Nat} {m n : Memory} (hm : wfFrom lo m = true) (hn : wfFrom lo n = true)
    (h : ∀ k, m.read k = n.read k) : m = n := by
  induction m generalizing lo n with
  | nil =>
    cases n with
    | nil => rfl
    | cons c rest =>
      obtain ⟨a, b⟩ := c
      have hn' := wfFrom_cons.1 hn
      have := h a
      simp only [read, if_true] at this
      exact absurd this.symm hn'.2.2.1
  | cons c rest ih =>
    obtain ⟨a, b⟩ := c
    have hm' := wfFrom_cons.1 hm
    cases n with
    | nil =>
      have := h a
      simp only [read, if_true] at this
      exact absurd this hm'.2.2.1
    | cons d rest' =>
      obtain ⟨a', b'⟩ := d
      have hn' := wfFrom_cons.1 hn
      have key : a = a' := by
        rcases Nat.lt_trichotomy a a' with hlt | heq | hgt
        · have := h a
          rw [read_below (m := (a', b') :: rest') (wfFrom_cons.2 ⟨Nat.le_refl a', hn'.2⟩) hlt] at this
          simp only [read, if_true] at this
          exact absurd this hm'.2.2.1
        · exact heq
        · have := h a'
          rw [read_below (m := (a, b) :: rest) (wfFrom_cons.2 ⟨Nat.le_refl a, hm'.2⟩) hgt] at this
          simp only [read, if_true] at this
          exact absurd this.symm hn'.2.2.1
      subst key
      have hb : b = b' := by simpa [read] using h a
      subst hb
      congr 1
      refine ih hm'.2.2.2 hn'.2.2.2 fun k => ?_
      by_cases hk : k = a
      · rw [read_below hm'.2.2.2 (by omega), read_below hn'.2.2.2 (by omega)]
      · have hne : ¬ a = k := fun e => hk e.symm
        have := h k
        simpa only [read, hne, if_false] using this

/-- CLEAR empties the buffer's list (R122). -/
theorem zeroFill_all {m : Memory} (h : m.wf = true) : m.zeroFill 0 64 = [] := by
  have hw : (m.zeroFill 0 64).wf = true := wf_zeroFill h (Nat.le_refl 64)
  rw [wf] at hw
  refine ext_of_read hw (wfFrom_nil 0) fun k => ?_
  rw [read_zeroFill k h (Nat.le_refl 64), read_nil]
  split
  · rfl
  · exact read_outside h (by omega)

/-- Byte k of the block is what offset k reads as (R46). -/
@[simp] theorem block_getElem (m : Memory) (k : Nat) (hk : k < 64) : m.block[k] = m.read k := by
  simp [block]

end Sys2Proof.Machine.Memory
end

