-- ==== Sys2Proof/Laws/State.lean ====
section
/-! SUPPORT. One lemma per field of State for each named update, so that no later proof unfolds a record update. -/

namespace Sys2Proof.Machine

/-! ### raise (R143) -/

@[simp] theorem raiseError_H (s : State) (e : Err) : (raiseError s e).H = s.H := rfl

@[simp] theorem raiseError_work (s : State) (e : Err) : (raiseError s e).work = s.work := rfl

@[simp] theorem raiseError_W (s : State) (e : Err) : (raiseError s e).W = s.W := rfl

@[simp] theorem raiseError_t (s : State) (e : Err) : (raiseError s e).t = s.t := rfl

@[simp] theorem raiseError_buf (s : State) (e : Err) : (raiseError s e).buf = s.buf := rfl

@[simp] theorem raiseError_blockIndex (s : State) (e : Err) : (raiseError s e).blockIndex = s.blockIndex := rfl

@[simp] theorem raiseError_bitLength (s : State) (e : Err) : (raiseError s e).bitLength = s.bitLength := rfl

@[simp] theorem raiseError_phase (s : State) (e : Err) : (raiseError s e).phase = s.phase := rfl

@[simp] theorem raiseError_fin (s : State) (e : Err) : (raiseError s e).fin = s.fin := rfl

@[simp] theorem raiseError_life (s : State) (e : Err) : (raiseError s e).life = s.life := rfl

@[simp] theorem raiseError_err (s : State) (e : Err) : (raiseError s e).err = e := rfl

@[simp] theorem raiseError_host (s : State) (e : Err) : (raiseError s e).host = s.host := rfl

@[simp] theorem raiseError_powerOns (s : State) (e : Err) : (raiseError s e).powerOns = s.powerOns := rfl

/-! ### leaving the error state (R146) -/

@[simp] theorem clearError_H (s : State) : (clearError s).H = s.H := rfl

@[simp] theorem clearError_work (s : State) : (clearError s).work = s.work := rfl

@[simp] theorem clearError_W (s : State) : (clearError s).W = s.W := rfl

@[simp] theorem clearError_t (s : State) : (clearError s).t = s.t := rfl

@[simp] theorem clearError_buf (s : State) : (clearError s).buf = s.buf := rfl

@[simp] theorem clearError_blockIndex (s : State) : (clearError s).blockIndex = s.blockIndex := rfl

@[simp] theorem clearError_bitLength (s : State) : (clearError s).bitLength = s.bitLength := rfl

@[simp] theorem clearError_phase (s : State) : (clearError s).phase = s.phase := rfl

@[simp] theorem clearError_fin (s : State) : (clearError s).fin = s.fin := rfl

@[simp] theorem clearError_life (s : State) : (clearError s).life = s.life := rfl

@[simp] theorem clearError_err (s : State) : (clearError s).err = .none := rfl

@[simp] theorem clearError_host (s : State) : (clearError s).host = s.host := rfl

@[simp] theorem clearError_powerOns (s : State) : (clearError s).powerOns = s.powerOns := rfl

/-! ### RESET (R80) -/

@[simp] theorem resetWrites_H (s : State) : (resetWrites s).H = iv := rfl

@[simp] theorem resetWrites_work (s : State) : (resetWrites s).work = s.work := rfl

@[simp] theorem resetWrites_W (s : State) : (resetWrites s).W = s.W := rfl

@[simp] theorem resetWrites_t (s : State) : (resetWrites s).t = s.t := rfl

@[simp] theorem resetWrites_buf (s : State) : (resetWrites s).buf = s.buf := rfl

@[simp] theorem resetWrites_blockIndex (s : State) : (resetWrites s).blockIndex = 0#7 := rfl

@[simp] theorem resetWrites_bitLength (s : State) : (resetWrites s).bitLength = 0#64 := rfl

@[simp] theorem resetWrites_phase (s : State) : (resetWrites s).phase = s.phase := rfl

@[simp] theorem resetWrites_fin (s : State) : (resetWrites s).fin = s.fin := rfl

@[simp] theorem resetWrites_life (s : State) : (resetWrites s).life = .reset := rfl

@[simp] theorem resetWrites_err (s : State) : (resetWrites s).err = .none := rfl

@[simp] theorem resetWrites_host (s : State) : (resetWrites s).host = s.host := rfl

@[simp] theorem resetWrites_powerOns (s : State) : (resetWrites s).powerOns = s.powerOns := rfl

/-! ### "run Compression" (R104) -/

@[simp] theorem compressNow_H (s : State) : (compressNow s).H = compress s.H s.buf.block := rfl

@[simp] theorem compressNow_work (s : State) : (compressNow s).work = s.work := rfl

@[simp] theorem compressNow_W (s : State) : (compressNow s).W = s.W := rfl

@[simp] theorem compressNow_t (s : State) : (compressNow s).t = s.t := rfl

@[simp] theorem compressNow_buf (s : State) : (compressNow s).buf = s.buf := rfl

@[simp] theorem compressNow_blockIndex (s : State) : (compressNow s).blockIndex = 0#7 := rfl

@[simp] theorem compressNow_bitLength (s : State) : (compressNow s).bitLength = s.bitLength := rfl

@[simp] theorem compressNow_phase (s : State) : (compressNow s).phase = s.phase := rfl

@[simp] theorem compressNow_fin (s : State) : (compressNow s).fin = s.fin := rfl

@[simp] theorem compressNow_life (s : State) : (compressNow s).life = s.life := rfl

@[simp] theorem compressNow_err (s : State) : (compressNow s).err = s.err := rfl

@[simp] theorem compressNow_host (s : State) : (compressNow s).host = s.host := rfl

@[simp] theorem compressNow_powerOns (s : State) : (compressNow s).powerOns = s.powerOns := rfl

/-! ### one edge of the ports (R66) -/

@[simp] theorem afterEdge_H (s : State) : (s.afterEdge).H = s.H := rfl

@[simp] theorem afterEdge_work (s : State) : (s.afterEdge).work = s.work := rfl

@[simp] theorem afterEdge_W (s : State) : (s.afterEdge).W = s.W := rfl

@[simp] theorem afterEdge_t (s : State) : (s.afterEdge).t = s.t := rfl

@[simp] theorem afterEdge_buf (s : State) : (s.afterEdge).buf = s.buf := rfl

@[simp] theorem afterEdge_blockIndex (s : State) : (s.afterEdge).blockIndex = s.blockIndex := rfl

@[simp] theorem afterEdge_bitLength (s : State) : (s.afterEdge).bitLength = s.bitLength := rfl

@[simp] theorem afterEdge_phase (s : State) : (s.afterEdge).phase = s.phase := rfl

@[simp] theorem afterEdge_fin (s : State) : (s.afterEdge).fin = s.fin := rfl

@[simp] theorem afterEdge_life (s : State) : (s.afterEdge).life = s.life := rfl

@[simp] theorem afterEdge_err (s : State) : (s.afterEdge).err = s.err := rfl

@[simp] theorem afterEdge_host (s : State) : (s.afterEdge).host = hostAfter s.cmdReady s.host := rfl

@[simp] theorem afterEdge_powerOns (s : State) : (s.afterEdge).powerOns = s.powerOns := rfl

/-! ### the host presents words (R75) -/

@[simp] theorem presentWords_H (s : State) (ws : List CmdWord) : (s.presentWords ws).H = s.H := rfl

@[simp] theorem presentWords_work (s : State) (ws : List CmdWord) : (s.presentWords ws).work = s.work := rfl

@[simp] theorem presentWords_W (s : State) (ws : List CmdWord) : (s.presentWords ws).W = s.W := rfl

@[simp] theorem presentWords_t (s : State) (ws : List CmdWord) : (s.presentWords ws).t = s.t := rfl

@[simp] theorem presentWords_buf (s : State) (ws : List CmdWord) : (s.presentWords ws).buf = s.buf := rfl

@[simp] theorem presentWords_blockIndex (s : State) (ws : List CmdWord) : (s.presentWords ws).blockIndex = s.blockIndex := rfl

@[simp] theorem presentWords_bitLength (s : State) (ws : List CmdWord) : (s.presentWords ws).bitLength = s.bitLength := rfl

@[simp] theorem presentWords_phase (s : State) (ws : List CmdWord) : (s.presentWords ws).phase = s.phase := rfl

@[simp] theorem presentWords_fin (s : State) (ws : List CmdWord) : (s.presentWords ws).fin = s.fin := rfl

@[simp] theorem presentWords_life (s : State) (ws : List CmdWord) : (s.presentWords ws).life = s.life := rfl

@[simp] theorem presentWords_err (s : State) (ws : List CmdWord) : (s.presentWords ws).err = s.err := rfl

@[simp] theorem presentWords_host (s : State) (ws : List CmdWord) : (s.presentWords ws).host = s.host ++ ws.map .present := rfl

@[simp] theorem presentWords_powerOns (s : State) (ws : List CmdWord) : (s.presentWords ws).powerOns = s.powerOns := rfl

/-! ### a command on the port -/

@[simp] theorem placeCommand_H (s : State) (w : CmdWord) : (placeCommand s w).H = s.H := rfl

@[simp] theorem placeCommand_work (s : State) (w : CmdWord) : (placeCommand s w).work = s.work := rfl

@[simp] theorem placeCommand_W (s : State) (w : CmdWord) : (placeCommand s w).W = s.W := rfl

@[simp] theorem placeCommand_t (s : State) (w : CmdWord) : (placeCommand s w).t = s.t := rfl

@[simp] theorem placeCommand_buf (s : State) (w : CmdWord) : (placeCommand s w).buf = s.buf := rfl

@[simp] theorem placeCommand_blockIndex (s : State) (w : CmdWord) : (placeCommand s w).blockIndex = s.blockIndex := rfl

@[simp] theorem placeCommand_bitLength (s : State) (w : CmdWord) : (placeCommand s w).bitLength = s.bitLength := rfl

@[simp] theorem placeCommand_phase (s : State) (w : CmdWord) : (placeCommand s w).phase = .idle := rfl

@[simp] theorem placeCommand_fin (s : State) (w : CmdWord) : (placeCommand s w).fin = s.fin := rfl

@[simp] theorem placeCommand_life (s : State) (w : CmdWord) : (placeCommand s w).life = s.life := rfl

@[simp] theorem placeCommand_err (s : State) (w : CmdWord) : (placeCommand s w).err = s.err := rfl

@[simp] theorem placeCommand_host (s : State) (w : CmdWord) : (placeCommand s w).host = .present w :: s.host := rfl

@[simp] theorem placeCommand_powerOns (s : State) (w : CmdWord) : (placeCommand s w).powerOns = s.powerOns := rfl

/-! ### the power-on step (R156) -/

@[simp] theorem powerOnStep_H (s : State) : (powerOnStep s).H = Config.powerOnH s.powerOns := rfl

@[simp] theorem powerOnStep_work (s : State) : (powerOnStep s).work = ⟨(Config.powerOnWork s.powerOns)[0], (Config.powerOnWork s.powerOns)[1], (Config.powerOnWork s.powerOns)[2], (Config.powerOnWork s.powerOns)[3], (Config.powerOnWork s.powerOns)[4]⟩ := rfl

@[simp] theorem powerOnStep_W (s : State) : (powerOnStep s).W = Config.powerOnW s.powerOns := rfl

@[simp] theorem powerOnStep_t (s : State) : (powerOnStep s).t = Config.powerOnT s.powerOns := rfl

@[simp] theorem powerOnStep_buf (s : State) : (powerOnStep s).buf = Memory.ofBlock (Config.powerOnBuf s.powerOns) := rfl

@[simp] theorem powerOnStep_blockIndex (s : State) : (powerOnStep s).blockIndex = Config.powerOnBlockIndex s.powerOns := rfl

@[simp] theorem powerOnStep_bitLength (s : State) : (powerOnStep s).bitLength = Config.powerOnBitLength s.powerOns := rfl

@[simp] theorem powerOnStep_phase (s : State) : (powerOnStep s).phase = .idle := rfl

@[simp] theorem powerOnStep_fin (s : State) : (powerOnStep s).fin = .none := rfl

@[simp] theorem powerOnStep_life (s : State) : (powerOnStep s).life = .uninitialized := rfl

@[simp] theorem powerOnStep_err (s : State) : (powerOnStep s).err = .none := rfl

@[simp] theorem powerOnStep_host (s : State) : (powerOnStep s).host = s.host := rfl

@[simp] theorem powerOnStep_powerOns (s : State) : (powerOnStep s).powerOns = s.powerOns + 1 := rfl

/-! ### a round (R106) -/

@[simp] theorem roundAt_H (f : Word → Word → Word → Word) (K : Word) (t : Fin 80) (s : State) :
    (roundAt f K t s).H = s.H := by
  simp only [roundAt]; split <;> rfl

@[simp] theorem roundAt_work (f : Word → Word → Word → Word) (K : Word) (t : Fin 80) (s : State) :
    (roundAt f K t s).work = roundWork f K (schedWord s.W t) s.work := by
  simp only [roundAt]; split <;> rfl

@[simp] theorem roundAt_W (f : Word → Word → Word → Word) (K : Word) (t : Fin 80) (s : State) :
    (roundAt f K t s).W = if 16 ≤ t.val then s.W.set t.val (schedWord s.W t) else s.W := by
  simp only [roundAt]; split <;> rfl

@[simp] theorem roundAt_t (f : Word → Word → Word → Word) (K : Word) (t : Fin 80) (s : State) :
    (roundAt f K t s).t = if t.val = 79 then s.t else s.t + 1#7 := by
  simp only [roundAt]; split <;> rfl

@[simp] theorem roundAt_buf (f : Word → Word → Word → Word) (K : Word) (t : Fin 80) (s : State) :
    (roundAt f K t s).buf = s.buf := by
  simp only [roundAt]; split <;> rfl

@[simp] theorem roundAt_blockIndex (f : Word → Word → Word → Word) (K : Word) (t : Fin 80) (s : State) :
    (roundAt f K t s).blockIndex = s.blockIndex := by
  simp only [roundAt]; split <;> rfl

@[simp] theorem roundAt_bitLength (f : Word → Word → Word → Word) (K : Word) (t : Fin 80) (s : State) :
    (roundAt f K t s).bitLength = s.bitLength := by
  simp only [roundAt]; split <;> rfl

@[simp] theorem roundAt_phase (f : Word → Word → Word → Word) (K : Word) (t : Fin 80) (s : State) :
    (roundAt f K t s).phase = if t.val = 79 then .accum else s.phase := by
  simp only [roundAt]; split <;> rfl

@[simp] theorem roundAt_fin (f : Word → Word → Word → Word) (K : Word) (t : Fin 80) (s : State) :
    (roundAt f K t s).fin = s.fin := by
  simp only [roundAt]; split <;> rfl

@[simp] theorem roundAt_life (f : Word → Word → Word → Word) (K : Word) (t : Fin 80) (s : State) :
    (roundAt f K t s).life = s.life := by
  simp only [roundAt]; split <;> rfl

@[simp] theorem roundAt_err (f : Word → Word → Word → Word) (K : Word) (t : Fin 80) (s : State) :
    (roundAt f K t s).err = s.err := by
  simp only [roundAt]; split <;> rfl

@[simp] theorem roundAt_host (f : Word → Word → Word → Word) (K : Word) (t : Fin 80) (s : State) :
    (roundAt f K t s).host = s.host := by
  simp only [roundAt]; split <;> rfl

@[simp] theorem roundAt_powerOns (f : Word → Word → Word → Word) (K : Word) (t : Fin 80) (s : State) :
    (roundAt f K t s).powerOns = s.powerOns := by
  simp only [roundAt]; split <;> rfl

end Sys2Proof.Machine
end

