-- ==== Sys2Proof/Laws/Ops.lean ====
section
/-! SUPPORT. For each shared operation, everything it can do: the lemmas that proofs cite in place of its definition. -/

namespace Sys2Proof.Machine

/-! ## Sequencing -/

@[simp] theorem andThen_next (s : State) (f : State → Answer) : andThen (.next s) f = f s := rfl

@[simp] theorem andThen_fault (r : Fault) (f : State → Answer) : andThen (.fault r) f = .fault r := rfl

@[simp] theorem andThen_refused (r : Refusal) (f : State → Answer) : andThen (.refused r) f = .refused r := rfl

theorem andThen_eq_next {o : Answer} {f : State → Answer} {t : State} :
    andThen o f = .next t ↔ ∃ s, o = .next s ∧ f s = .next t := by
  cases o with
  | next s => exact ⟨fun h => ⟨s, rfl, h⟩, fun ⟨_, h, h'⟩ => by cases h; exact h'⟩
  | fault r => exact ⟨fun h => (nomatch h), fun ⟨_, h, _⟩ => (nomatch h)⟩
  | refused r => exact ⟨fun h => (nomatch h), fun ⟨_, h, _⟩ => (nomatch h)⟩

theorem andThen_assoc (o : Answer) (f g : State → Answer) :
    andThen (andThen o f) g = andThen o fun s => andThen (f s) g := by
  cases o <;> rfl

theorem andThen_next_right (o : Answer) : andThen o .next = o := by
  cases o <;> rfl

/-! ## The handshake (R66) -/

theorem whenReady_idle {s : State} (acceptStep : State → Answer) (h : s.phase = .idle) :
    whenReady s acceptStep = acceptStep s := by
  simp only [whenReady, h]

theorem whenReady_busy {s : State} (acceptStep : State → Answer) (h : s.phase ≠ .idle) : whenReady s acceptStep = .next s := by
  unfold whenReady
  split <;> first | rfl | contradiction

/-! ## The tests of INPUT and RESULT (R142) -/

theorem lifeLegal_iff (l : Life) : lifeLegal l = true ↔ l = .reset ∨ l = .absorbing := by
  cases l <;> decide

theorem screenLife_passes {s : State} : screenLife s = .passes ↔ s.err = .none ∧ lifeLegal s.life = true := by
  unfold screenLife
  cases h : s.err <;> cases hl : lifeLegal s.life <;> simp

theorem screenLife_silent {s : State} : screenLife s = .silent ↔ s.err ≠ .none := by
  unfold screenLife
  cases h : s.err <;> cases hl : lifeLegal s.life <;> simp

theorem screenLife_raises {s : State} {e : Err} :
    screenLife s = .raises e ↔ s.err = .none ∧ lifeLegal s.life = false ∧ e = .usage := by
  unfold screenLife
  cases h : s.err <;> cases hl : lifeLegal s.life <;> simp [eq_comm]

theorem screenInput_passes {s : State} :
    screenInput s = .passes ↔ s.err = .none ∧ lifeLegal s.life = true ∧ s.bitLength ≠ maxBitLength := by
  unfold screenInput screenLife
  cases h : s.err <;> cases hl : lifeLegal s.life <;> by_cases hb : s.bitLength = maxBitLength <;> simp [hb]

theorem screenInput_silent {s : State} : screenInput s = .silent ↔ s.err ≠ .none := by
  unfold screenInput screenLife
  cases h : s.err <;> cases hl : lifeLegal s.life <;> by_cases hb : s.bitLength = maxBitLength <;> simp [hb]

theorem screenInput_raises {s : State} {e : Err} :
    screenInput s = .raises e ↔ s.err = .none ∧ ((lifeLegal s.life = false ∧ e = .usage) ∨
      (lifeLegal s.life = true ∧ s.bitLength = maxBitLength ∧ e = .inputTooLarge)) := by
  unfold screenInput screenLife
  cases h : s.err <;> cases hl : lifeLegal s.life <;> by_cases hb : s.bitLength = maxBitLength <;> simp [hb, eq_comm]

@[simp] theorem screened_silent (s : State) (run : State → Answer) : screened s .silent run = .next s := rfl

@[simp] theorem screened_raises (s : State) (e : Err) (run : State → Answer) :
    screened s (.raises e) run = .next (raiseError s e) := rfl

@[simp] theorem screened_passes (s : State) (run : State → Answer) : screened s .passes run = run s := rfl

/-! ## Storing and counting a byte (R86, R115, R13) -/

theorem appendByte_next {s : State} (b : Byte) (h : s.blockIndex.toNat < 64) :
    appendByte s b = .next { s with buf := s.buf.write8 s.blockIndex.toNat b, blockIndex := s.blockIndex + 1#7 } :=
  if_pos h

theorem appendByte_cases {s t : State} {b : Byte} (h : appendByte s b = .next t) :
    s.blockIndex.toNat < 64 ∧
      t = { s with buf := s.buf.write8 s.blockIndex.toNat b, blockIndex := s.blockIndex + 1#7 } := by
  unfold appendByte at h
  split at h
  · rename_i hlt
    exact ⟨hlt, by injection h with h; exact h.symm⟩
  · exact (nomatch h)

theorem countByte_next {s : State} (h : s.bitLength.toNat + 8 < 2 ^ 64) :
    countByte s = .next { s with bitLength := s.bitLength + 8#64 } :=
  if_pos h

theorem countByte_cases {s t : State} (h : countByte s = .next t) :
    s.bitLength.toNat + 8 < 2 ^ 64 ∧ t = { s with bitLength := s.bitLength + 8#64 } := by
  unfold countByte at h
  split at h
  · rename_i hlt
    exact ⟨hlt, by injection h with h; exact h.symm⟩
  · exact (nomatch h)

theorem triggerWhenFull_next (s : State) :
    triggerWhenFull s = .next { s with phase := if s.blockIndex = 64#7 then .load else s.phase } := by
  unfold triggerWhenFull
  split <;> rfl

/-- An INPUT that no test refuses and whose offset and length are in range (R85, R92). -/
theorem absorb_next {s : State} (b : Byte) (hi : s.blockIndex.toNat < 64) (hl : s.bitLength.toNat + 8 < 2 ^ 64) :
    absorb b s = .next { s with
      buf := s.buf.write8 s.blockIndex.toNat b, blockIndex := s.blockIndex + 1#7, bitLength := s.bitLength + 8#64, life := .absorbing,
      phase := if s.blockIndex + 1#7 = 64#7 then .load else s.phase } := by
  simp only [absorb, appendByte_next b hi, andThen_next, countByte_next (s := { s with
    buf := s.buf.write8 s.blockIndex.toNat b, blockIndex := s.blockIndex + 1#7 }) hl, triggerWhenFull_next]

/-- A RESULT that no test refuses and whose offset is in range (R116). -/
theorem startFinalization_next {s : State} (hi : s.blockIndex.toNat < 64) :
    startFinalization s = .next { s with
      buf := s.buf.write8 s.blockIndex.toNat padByte, blockIndex := s.blockIndex + 1#7, fin := .pad, phase := .zfill } := by
  simp only [startFinalization, appendByte_next padByte hi, andThen_next]

/-! ## The round (R106) -/

theorem roundStep_next (f : Word → Word → Word → Word) (K : Word) {s : State} (h : s.t.toNat < 80) :
    roundStep f K s = .next (roundAt f K ⟨s.t.toNat, h⟩ s) :=
  dif_pos h

theorem roundStep_cases {f : Word → Word → Word → Word} {K : Word} {s t : State} (h : roundStep f K s = .next t) :
    ∃ ht : s.t.toNat < 80, t = roundAt f K ⟨s.t.toNat, ht⟩ s := by
  unfold roundStep at h
  split at h
  · rename_i hlt
    exact ⟨hlt, by injection h with h; exact h.symm⟩
  · exact (nomatch h)

/-- For t < 16 the word of the round is `W[t]` as LOAD left it (R106). -/
theorem schedWord_direct (W : Vector Word 80) {t : Fin 80} (h : t.val < 16) : schedWord W t = W[t.val] := by
  simp [schedWord, Nat.not_le.2 h]

/-- For t >= 16 the word of the round is the recurrence (R95). -/
theorem schedWord_expanded (W : Vector Word 80) {t : Fin 80} (h : 16 ≤ t.val) :
    schedWord W t = rotl32 ((W[t.val - 3]'(by omega)) ^^^ (W[t.val - 8]'(by omega)) ^^^ (W[t.val - 14]'(by omega))
      ^^^ (W[t.val - 16]'(by omega))) 1 := by
  simp [schedWord, h]

/-- LOAD puts the block's words in front (R94). -/
theorem packBlock_direct (m : Memory) (W : Vector Word 80) {j : Nat} (h : j < 16) :
    (packBlock m W)[j] = m.read32 (4 * j) := by
  simp [packBlock, h]

/-- LOAD leaves `W[16..79]` alone (R105). -/
theorem packBlock_rest (m : Memory) (W : Vector Word 80) {j : Nat} (h : 16 ≤ j) (hj : j < 80) :
    (packBlock m W)[j] = W[j] := by
  simp [packBlock, Nat.not_lt.2 h]

/-! ## Runs -/

@[simp] theorem runBusy_zero (s : State) : runBusy 0 s = .next s := rfl

theorem runBusy_idle (n : Nat) {s : State} (h : s.phase = .idle) : runBusy n s = .next s := by
  cases n with
  | zero => rfl
  | succ n => simp [runBusy, h]

theorem runBusy_busy (n : Nat) {s : State} (h : s.phase ≠ .idle) : runBusy (n + 1) s = andThen (microStep s) (runBusy n) := by
  simp [runBusy, h]

@[simp] theorem stepN_zero (s : State) : stepN 0 s = .next s := rfl

theorem stepN_succ (n : Nat) (s : State) : stepN (n + 1) s = andThen (step s) (stepN n) := rfl

theorem stepN_add (m n : Nat) (s : State) : stepN (m + n) s = andThen (stepN m s) (stepN n) := by
  induction m generalizing s with
  | zero => simp
  | succ m ih =>
    rw [Nat.succ_add, stepN_succ, stepN_succ, andThen_assoc]
    congr 1
    funext s'
    exact ih s'

@[simp] theorem issueInputs_nil (s : State) : issueInputs [] s = .next s := rfl

@[simp] theorem issueInputs_cons (b : Byte) (bytes : List Byte) (s : State) :
    issueInputs (b :: bytes) s = andThen (issue (execInput b) s) (issueInputs bytes) := rfl

end Sys2Proof.Machine
end

