-- ==== Sys2Proof/Laws/Step.lean ====
section
/-! SUPPORT. How the sequencer's step and the meanings fit together (spec/30_encoding.md R66, R72). -/

namespace Sys2Proof.Machine

/-! ## The ports -/

/-- The event made from one edge's port values puts those values on the ports; at `rst` = 1 the command port is left out. -/
theorem edge_event (s : State) (e : Edge) (rest : List HostEvent) :
    { s with host := e.event :: rest }.edge = { rst := e.rst, cmd := if e.rst then none else e.cmd } := by
  obtain ⟨rst, cmd⟩ := e
  cases rst <;> cases cmd <;> rfl

/-- And it is gone after that edge, in any phase: a list of such events is a waveform, one edge each. -/
theorem hostAfter_event (ready : Bool) (e : Edge) (rest : List HostEvent) : hostAfter ready (e.event :: rest) = rest := by
  obtain ⟨rst, cmd⟩ := e
  cases rst <;> cases cmd <;> rfl

@[simp] theorem hostAfter_nil (ready : Bool) : hostAfter ready [] = [] := rfl

@[simp] theorem hostAfter_present_ready (w : CmdWord) (rest : List HostEvent) : hostAfter true (.present w :: rest) = rest := rfl

@[simp] theorem hostAfter_present_busy (w : CmdWord) (rest : List HostEvent) :
    hostAfter false (.present w :: rest) = .present w :: rest := rfl

@[simp] theorem hostAfter_offer (ready : Bool) (w : CmdWord) (rest : List HostEvent) : hostAfter ready (.offer w :: rest) = rest := rfl

@[simp] theorem hostAfter_quiet (ready : Bool) (rest : List HostEvent) : hostAfter ready (.quiet :: rest) = rest := rfl

@[simp] theorem hostAfter_powerOn (ready : Bool) (rest : List HostEvent) : hostAfter ready (.powerOn :: rest) = rest := rfl

theorem cmdReady_iff (s : State) : s.cmdReady = true ↔ s.phase = .idle := decide_eq_true_iff

/-! ## Micro-operations -/

theorem code_ofCode (p : Phase) : Phase.ofCode p.code = some p := by
  cases p <;> rfl

/-- What the decoder selects in a busy phase is what `microStep` runs. -/
theorem microStep_of_decode {s : State} {i : Instr} (h : decodeMicro s.phase.code s.t = .ok i) : microStep s = exec i s := by
  unfold microStep
  cases hp : s.phase <;> rw [hp] at h <;> simp [decodeMicro, Phase.code] at h
  case round =>
    unfold decodeRound at h
    dsimp only
    split at h
    · rename_i h1; rw [if_pos h1]; injection h with h; subst h; rfl
    · rename_i h1
      rw [if_neg h1]
      split at h
      · rename_i h2; rw [if_pos h2]; injection h with h; subst h; rfl
      · rename_i h2
        rw [if_neg h2]
        split at h
        · rename_i h3; rw [if_pos h3]; injection h with h; subst h; rfl
        · rename_i h3
          rw [if_neg h3]
          split at h
          · rename_i h4; rw [if_pos h4]; injection h with h; subst h; rfl
          · exact (nomatch h)
  all_goals (subst h; rfl)

/-- A busy phase without a micro-operation is ROUND with `t` of 80 or more (R72). -/
theorem microStep_of_no_decode {s : State} {e : DecodeError} (hb : s.phase ≠ .idle)
    (h : decodeMicro s.phase.code s.t = .error e) : microStep s = .fault (.roundIndex s.t) := by
  unfold microStep
  cases hp : s.phase <;> rw [hp] at h <;> simp [decodeMicro, Phase.code] at h
  case idle => exact absurd hp hb
  case round =>
    unfold decodeRound at h
    dsimp only
    split at h
    · exact (nomatch h)
    · rename_i h1
      rw [if_neg h1]
      split at h
      · exact (nomatch h)
      · rename_i h2
        rw [if_neg h2]
        split at h
        · exact (nomatch h)
        · rename_i h3
          rw [if_neg h3]
          split at h
          · exact (nomatch h)
          · rename_i h4; rw [if_neg h4]

/-- Without `rst`, a busy engine's step is its micro-operation (R66 case c). -/
theorem step_of_busy {s : State} (hr : s.edge.rst = false) (hb : s.phase ≠ .idle) : step s = microStep s.afterEdge := by
  have hp : s.afterEdge.phase ≠ .idle := hb
  unfold step selected
  rw [hr, if_neg (by decide), if_neg hb]
  cases hd : decodeMicro s.phase.code s.t with
  | ok i => exact (microStep_of_decode (s := s.afterEdge) hd).symm
  | error e => exact (microStep_of_no_decode (s := s.afterEdge) hp hd).symm

/-- The ROUND steps all do the same work, with the function and the constant of their index (R100, R106). -/
theorem microStep_round {s : State} (hp : s.phase = .round) (ht : s.t.toNat < 80) :
    microStep s = .next (roundAt (fOf ⟨s.t.toNat, ht⟩) (kOf ⟨s.t.toNat, ht⟩) ⟨s.t.toNat, ht⟩ s) := by
  unfold microStep
  rw [hp]
  by_cases h1 : s.t.toNat < 20
  · have hk : s.t.toNat / 20 = 0 := by omega
    simp [fOf, kOf, h1, hk, execRoundCh, roundStep_next _ _ ht]
  · by_cases h2 : s.t.toNat < 40
    · have hk : s.t.toNat / 20 = 1 := by omega
      simp [fOf, kOf, h1, h2, hk, execRoundPar1, roundStep_next _ _ ht]
    · by_cases h3 : s.t.toNat < 60
      · have hk : s.t.toNat / 20 = 2 := by omega
        simp [fOf, kOf, h1, h2, h3, hk, execRoundMaj, roundStep_next _ _ ht]
      · have hk : s.t.toNat / 20 = 3 := by omega
        simp [fOf, kOf, h1, h2, h3, ht, hk, execRoundPar2, roundStep_next _ _ ht]

end Sys2Proof.Machine
end

