-- ==== Sys2Proof/Laws/Compression.lean ====
section
/-! SUPPORT. The message schedule and the rounds, step by step, against the pure functions (spec/42_compression.md R95, R104, R109, R111). -/

namespace Sys2Proof.Machine

/-! ## The schedule -/

theorem expandWords_succ (W : Vector Word 80) {k : Nat} (hk : k < 64) :
    expandWords W (k + 1) = (expandWords W k).set (16 + k) (schedWord (expandWords W k) ⟨16 + k, by omega⟩) (by omega) := by
  simp [expandWords, show 16 + k < 80 by omega]

/-- A word is not written again once it has been computed. -/
theorem expandWords_stable (W : Vector Word 80) {k d u : Nat} (hu : u < 80) (h : u < 16 + k) (hd : k + d ≤ 64) :
    (expandWords W (k + d))[u] = (expandWords W k)[u] := by
  induction d with
  | zero => rfl
  | succ d ih =>
    have e : expandWords W (k + (d + 1)) = _ := expandWords_succ W (k := k + d) (by omega)
    simp only [e]
    rw [Vector.getElem_set_ne (by omega) (by omega) (by omega)]
    exact ih (by omega)

theorem expandWords_done (W : Vector Word 80) {k u : Nat} (hu : u < 80) (h : u < 16 + k) (hk : k ≤ 64) :
    (expandWords W 64)[u] = (expandWords W k)[u] := by
  have := expandWords_stable W hu h (d := 64 - k) (by omega)
  simpa [show k + (64 - k) = 64 by omega] using this

theorem schedule_direct (M : Vector Byte 64) {u : Nat} (h : u < 16) : (schedule M)[u] = (directWords M)[u] :=
  expandWords_done _ (k := 0) (by omega) (by omega) (by omega)

/-- `schedWord` reads `W[t]` for t < 16 and only earlier words otherwise. -/
theorem schedWord_congr {W W' : Vector Word 80} {t : Fin 80}
    (h : ∀ u (hu : u < 80), (u < t.val ∨ (u = t.val ∧ t.val < 16)) → W[u] = W'[u]) : schedWord W t = schedWord W' t := by
  unfold schedWord
  split
  · rw [h _ _ (.inl (by omega)), h _ _ (.inl (by omega)), h _ _ (.inl (by omega)), h _ _ (.inl (by omega))]
  · exact h _ _ (.inr ⟨rfl, by omega⟩)

/-- Every word of the finished schedule is what the round of its index computes from that schedule (R95, R109). -/
theorem schedule_schedWord (M : Vector Byte 64) (t : Nat) (ht : t < 80) : (schedule M)[t] = schedWord (schedule M) ⟨t, ht⟩ := by
  by_cases h : t < 16
  · rw [schedWord_direct (t := ⟨t, ht⟩) _ h]
  · obtain ⟨k, rfl⟩ : ∃ k, t = 16 + k := ⟨t - 16, by omega⟩
    have e : (schedule M)[16 + k] = (expandWords (directWords M) (k + 1))[16 + k] :=
      expandWords_done _ (by omega) (by omega) (by omega)
    rw [e]
    simp only [expandWords_succ (directWords M) (k := k) (by omega)]
    rw [Vector.getElem_set_self]
    refine schedWord_congr fun u hu hh => ?_
    have hh' : u < 16 + k := by
      rcases hh with h1 | ⟨_, h2⟩
      · exact h1
      · exact absurd h2 (by simp)
    exact (expandWords_done _ (k := k) hu hh' (by omega)).symm

theorem read32_block (m : Memory) {j : Nat} (h : j < 16) : m.read32 (4 * j) = (directWords m.block)[j] := by
  simp only [directWords, Vector.getElem_ofFn, h, dif_pos, Memory.read32, Memory.block_getElem]

theorem rounds_succ (W : Vector Word 80) (v : Working) {k : Nat} (h : k < 80) :
    rounds W v (k + 1) = roundWork (fOf ⟨k, h⟩) (kOf ⟨k, h⟩) W[k] (rounds W v k) := by
  simp [rounds, h]

/-! ## Between LOAD and ACCUM -/

/-- The state `u` is `j` rounds after the LOAD of `s`. -/
structure AfterRounds (s : State) (j : Nat) (u : State) : Prop where
  phase : u.phase = if j < 80 then .round else .accum
  index : u.t.toNat = min j 79
  computed : ∀ i (hi : i < 80), (i < 16 ∨ i < j) → u.W[i] = (schedule s.buf.block)[i]
  untouched : ∀ i (hi : i < 80), 16 ≤ i → j ≤ i → u.W[i] = s.W[i]
  work : u.work = rounds (schedule s.buf.block) (workOf s.H) j
  others : u.H = s.H ∧ u.buf = s.buf ∧ u.blockIndex = s.blockIndex ∧ u.bitLength = s.bitLength ∧ u.fin = s.fin ∧ u.life = s.life ∧
    u.err = s.err ∧ u.host = s.host ∧ u.powerOns = s.powerOns

theorem afterRounds_load (s : State) :
    AfterRounds s 0 { s with W := packBlock s.buf s.W, work := workOf s.H, t := 0#7, phase := .round } where
  phase := rfl
  index := rfl
  computed := fun i hi h => by
    rw [schedule_direct _ (by omega), ← read32_block _ (by omega)]
    exact packBlock_direct _ _ (by omega)
  untouched := fun i hi h _ => packBlock_rest _ _ h hi
  work := rfl
  others := ⟨rfl, rfl, rfl, rfl, rfl, rfl, rfl, rfl, rfl⟩

/-- One ROUND step (R106). -/
theorem afterRounds_round {s u : State} {j : Nat} (hj : j < 80) (h : AfterRounds s j u) :
    ∃ v, microStep u = .next v ∧ AfterRounds s (j + 1) v := by
  have ht : u.t.toNat = j := by rw [h.index]; omega
  have hp : u.phase = .round := by rw [h.phase, if_pos hj]
  have hlt : u.t.toNat < 80 := by omega
  have e : (⟨u.t.toNat, hlt⟩ : Fin 80) = ⟨j, hj⟩ := Fin.ext ht
  refine ⟨_, microStep_round hp hlt, ?_⟩
  rw [e]
  have hw : schedWord u.W ⟨j, hj⟩ = (schedule s.buf.block)[j] := by
    rw [schedule_schedWord _ j hj]
    exact schedWord_congr fun i hi hh => h.computed i hi (by rcases hh with h1 | ⟨h1, h2⟩ <;> simp at * <;> omega)
  constructor
  · rw [roundAt_phase, hp]
    by_cases h79 : j = 79
    · simp [h79]
    · rw [if_neg h79, if_pos (by omega)]
  · rw [roundAt_t]
    by_cases h79 : j = 79
    · simp [h79, ht]
    · rw [if_neg h79, BitVec.toNat_add, ht]
      simp
      omega
  · intro i hi hh
    simp only [roundAt_W, hw]
    by_cases h16 : 16 ≤ j
    · by_cases hij : i = j
      · subst hij; simp [h16]
      · simp only [h16, if_pos]
        rw [Vector.getElem_set_ne (by omega) (by omega) (by omega)]
        exact h.computed i hi (by omega)
    · simp only [h16, if_false]
      exact h.computed i hi (by omega)
  · intro i hi h1 h2
    simp only [roundAt_W]
    split
    · rw [Vector.getElem_set_ne (by omega) (by omega) (by omega)]
      exact h.untouched i hi h1 (by omega)
    · exact h.untouched i hi h1 (by omega)
  · rw [roundAt_work, hw, h.work, rounds_succ _ _ hj]
  · simpa using h.others

/-! ## Runs of a busy engine -/

theorem runBusy_add (m n : Nat) (s : State) : runBusy (m + n) s = andThen (runBusy m s) (runBusy n) := by
  induction m generalizing s with
  | zero => simp
  | succ m ih =>
    by_cases h : s.phase = .idle
    · rw [runBusy_idle _ h, runBusy_idle _ h, andThen_next, runBusy_idle _ h]
    · rw [Nat.succ_add, runBusy_busy _ h, runBusy_busy _ h, andThen_assoc]
      congr 1
      funext s'
      exact ih s'

theorem runBusy_one {s : State} (h : s.phase ≠ .idle) : runBusy 1 s = microStep s := by
  rw [runBusy_busy 0 h]
  exact andThen_next_right _

theorem runBusy_succ (n : Nat) {s u : State} (h : runBusy n s = .next u) (hu : u.phase ≠ .idle) : runBusy (n + 1) s = microStep u := by
  rw [runBusy_add, h, andThen_next, runBusy_one hu]

/-- LOAD and then `j` rounds (R111). -/
theorem runBusy_rounds {s : State} (hp : s.phase = .load) {j : Nat} (hj : j ≤ 80) : ∃ u, runBusy (1 + j) s = .next u ∧ AfterRounds s j u := by
  induction j with
  | zero =>
    refine ⟨_, ?_, afterRounds_load s⟩
    rw [Nat.add_zero, runBusy_one (by rw [hp]; decide), microStep, hp]
    rfl
  | succ j ih =>
    obtain ⟨u, hu, hm⟩ := ih (by omega)
    obtain ⟨v, hv, hm'⟩ := afterRounds_round (by omega) hm
    refine ⟨v, ?_, hm'⟩
    rw [← Nat.add_assoc, runBusy_succ _ hu (by rw [hm.phase, if_pos (by omega)]; decide), hv]

/-- The whole compression: 82 steps (R111). -/
theorem runBusy_compression {s : State} (hp : s.phase = .load) :
    ∃ u, runBusy 82 s = .next u ∧ u.t.toNat = 79 ∧ u.W = schedule s.buf.block ∧
      u.work = rounds (schedule s.buf.block) (workOf s.H) 80 ∧
      u = { compressNow s with W := u.W, work := u.work, t := u.t, phase := afterAccum s.fin } := by
  obtain ⟨u, hu, hm⟩ := runBusy_rounds hp (Nat.le_refl 80)
  have hph : u.phase = .accum := by rw [hm.phase]; rfl
  have hW : u.W = schedule s.buf.block := by
    ext i hi
    exact congrArg (BitVec.getLsbD · _) (hm.computed i hi (by omega))
  have ho := hm.others
  refine ⟨{ u with H := accumulate u.H u.work, blockIndex := 0#7, phase := afterAccum u.fin }, ?_, hm.index, hW, hm.work, ?_⟩
  · rw [show (82 : Nat) = (1 + 80) + 1 from rfl, runBusy_succ _ hu (by rw [hph]; decide), microStep, hph]
    rfl
  · obtain ⟨h1, h2, h3, h4, h5, h6, h7, h8, h9⟩ := ho
    simp only [compressNow, compress, hm.work, h1, h2, h4, h5, h6, h7, h8, h9]

end Sys2Proof.Machine
end

