-- ==== Sys2Proof/Laws/Meanings.lean ====
section
/-! SUPPORT. One equation per meaning: what `exec` answers, over the shared operations, so that proofs need not unfold a meaning. -/

namespace Sys2Proof.Machine

theorem exec_nop (s : State) : exec .nop s = .next s := by
  by_cases h : s.phase = .idle
  · exact whenReady_idle _ h
  · exact whenReady_busy _ h

theorem exec_reset {s : State} (h : s.phase = .idle) : exec .reset s = .next (resetWrites s) := whenReady_idle _ h

theorem exec_input {s : State} (b : Byte) (h : s.phase = .idle) : exec (.input b) s = screened s (screenInput s) (absorb b) :=
  whenReady_idle _ h

theorem exec_result {s : State} (h : s.phase = .idle) : exec .result s = screened s (screenLife s) startFinalization :=
  whenReady_idle _ h

theorem exec_load (s : State) :
    exec .load s = .next { s with W := packBlock s.buf s.W, work := workOf s.H, t := 0#7, phase := .round } := rfl

theorem exec_roundCh (s : State) : exec .roundCh s = roundStep fCh k0 s := rfl

theorem exec_roundPar1 (s : State) : exec .roundPar1 s = roundStep fParity k1 s := rfl

theorem exec_roundMaj (s : State) : exec .roundMaj s = roundStep fMaj k2 s := rfl

theorem exec_roundPar2 (s : State) : exec .roundPar2 s = roundStep fParity k3 s := rfl

theorem exec_accum (s : State) :
    exec .accum s = .next { s with H := accumulate s.H s.work, blockIndex := 0#7, phase := afterAccum s.fin } := rfl

theorem exec_zfill_full {s : State} (h : 56 < s.blockIndex.toNat) :
    exec .zfill s = .next { s with buf := s.buf.zeroFill s.blockIndex.toNat 64, blockIndex := 64#7, phase := .load } :=
  if_pos h

theorem exec_zfill_trailer {s : State} (h : s.blockIndex.toNat ≤ 56) :
    exec .zfill s = .next { s with buf := s.buf.zeroFill s.blockIndex.toNat 56, blockIndex := 56#7, phase := .len } :=
  if_neg (Nat.not_lt.2 h)

theorem exec_len (s : State) :
    exec .len s = .next { s with buf := s.buf.write64 56 s.bitLength, blockIndex := 64#7, fin := .last, phase := .load } := rfl

/-- On a buffer in canonical form CLEAR leaves the empty list (R122). -/
theorem exec_clear {s : State} (h : s.buf.wf = true) :
    exec .clear s = .next { s with
      buf := [], bitLength := 0#64, blockIndex := 0#7, life := .finalized, fin := .none, phase := .idle } := by
  rw [← Memory.zeroFill_all h]
  rfl

theorem exec_inputs (bytes : List Byte) (s : State) : exec (.inputs bytes) s = issueInputs bytes s := rfl

theorem exec_hash (bytes : List Byte) (s : State) :
    exec (.hash bytes) s =
      andThen (issue execReset s) fun s1 => andThen (issueInputs bytes s1) fun s2 => issue execResult s2 := rfl

/-- A command presented to an idle engine, and the steps until it is ready again. -/
theorem issue_idle {s : State} (command : State → Answer) (h : s.phase = .idle) :
    issue command s = andThen (command s) (runBusy busyBound) := by
  rw [issue, runBusy_idle _ h, andThen_next]

end Sys2Proof.Machine
end

