-- ==== Sys2Proof/Laws/Host.lean ====
section
/-! SUPPORT. No meaning reads the host's coming input, and a busy engine whose port does not change runs its micro-operations only
(spec/30_encoding.md R66). -/

namespace Sys2Proof.Machine

/-- The answer with another coming input. -/
def withHost (host : List HostEvent) (o : Answer) : Answer := andThen o fun t => .next { t with host := host }

@[simp] theorem withHost_next (host : List HostEvent) (s : State) : withHost host (.next s) = .next { s with host := host } := rfl

@[simp] theorem withHost_fault (host : List HostEvent) (r : Fault) : withHost host (.fault r) = .fault r := rfl

@[simp] theorem withHost_refused (host : List HostEvent) (r : Refusal) : withHost host (.refused r) = .refused r := rfl

/-- A meaning that does not look at the coming input. -/
def Blind (f : State → Answer) : Prop := ∀ (s : State) (host : List HostEvent), f { s with host := host } = withHost host (f s)

theorem blind_next : Blind .next := fun _ _ => rfl

theorem blind_andThen {f g : State → Answer} (hf : Blind f) (hg : Blind g) : Blind fun s => andThen (f s) g := by
  intro s host
  dsimp only
  rw [hf s host]
  cases f s with
  | next t => exact hg t host
  | fault r => rfl
  | refused r => rfl

theorem blind_roundStep (f : Word → Word → Word → Word) (K : Word) : Blind (roundStep f K) := by
  intro s host
  by_cases h : s.t.toNat < 80
  · rw [roundStep_next f K h, roundStep_next f K (s := { s with host := host }) h]
    by_cases h79 : s.t.toNat = 79 <;> simp [roundAt, h79]
  · simp [roundStep, h]

theorem blind_execZfill : Blind execZfill := by
  intro s host
  by_cases h : 56 < s.blockIndex.toNat
  · exact (exec_zfill_full (s := { s with host := host }) h).trans (congrArg (withHost host) (exec_zfill_full h)).symm
  · exact (exec_zfill_trailer (s := { s with host := host }) (Nat.not_lt.1 h)).trans (congrArg (withHost host) (exec_zfill_trailer (Nat.not_lt.1 h))).symm

theorem blind_execClear : Blind execClear := by
  intro s host
  unfold execClear
  rw [withHost_next]

theorem blind_microStep : Blind microStep := by
  rintro ⟨H, work, W, t, buf, blockIndex, bitLength, phase, fin, life, err, host₀, powerOns⟩ host
  cases phase with
  | round =>
    unfold microStep execRoundCh execRoundPar1 execRoundMaj execRoundPar2
    dsimp only
    split
    · exact blind_roundStep fCh k0 ⟨H, work, W, t, buf, blockIndex, bitLength, .round, fin, life, err, host₀, powerOns⟩ host
    · split
      · exact blind_roundStep fParity k1 ⟨H, work, W, t, buf, blockIndex, bitLength, .round, fin, life, err, host₀, powerOns⟩ host
      · split
        · exact blind_roundStep fMaj k2 ⟨H, work, W, t, buf, blockIndex, bitLength, .round, fin, life, err, host₀, powerOns⟩ host
        · split
          · exact blind_roundStep fParity k3 ⟨H, work, W, t, buf, blockIndex, bitLength, .round, fin, life, err, host₀, powerOns⟩ host
          · rfl
  | zfill => exact blind_execZfill _ host
  | idle => rfl
  | load => rfl
  | accum => rfl
  | len => rfl
  | clear => exact blind_execClear _ host

theorem blind_runBusy (n : Nat) : Blind (runBusy n) := by
  induction n with
  | zero => exact blind_next
  | succ n ih =>
    intro s host
    by_cases h : s.phase = .idle
    · rw [runBusy_idle _ h, runBusy_idle _ (s := { s with host := host }) h]
      rfl
    · rw [runBusy_busy _ h, runBusy_busy _ (s := { s with host := host }) h]
      exact blind_andThen blind_microStep ih s host

theorem blind_absorb (b : Byte) : Blind (absorb b) := by
  intro s host
  by_cases hi : s.blockIndex.toNat < 64
  · by_cases hl : s.bitLength.toNat + 8 < 2 ^ 64
    · rw [absorb_next b hi hl, absorb_next b (s := { s with host := host }) hi hl]
      rfl
    · simp only [absorb, appendByte_next b hi, appendByte_next b (s := { s with host := host }) hi, andThen_next, countByte, hl, if_false]
      rfl
  · simp only [absorb, appendByte, hi, if_false]
    rfl

theorem blind_startFinalization : Blind startFinalization := by
  intro s host
  by_cases hi : s.blockIndex.toNat < 64
  · rw [startFinalization_next hi, startFinalization_next (s := { s with host := host }) hi]
    rfl
  · simp only [startFinalization, appendByte, hi, if_false]
    rfl

theorem blind_screened {d : State → Screening} (hd : ∀ (s : State) host, d { s with host := host } = d s) {run : State → Answer}
    (hr : Blind run) : Blind fun s => screened s (d s) run := by
  intro s host
  dsimp only
  rw [hd s host]
  cases d s with
  | silent => rfl
  | raises e => rfl
  | passes => exact hr s host

theorem blind_whenReady {f : State → Answer} (hf : Blind f) : Blind fun s => whenReady s f := by
  intro s host
  by_cases h : s.phase = .idle
  · dsimp only
    rw [whenReady_idle _ h, whenReady_idle (s := { s with host := host }) _ h]
    exact hf s host
  · dsimp only
    rw [whenReady_busy _ h, whenReady_busy (s := { s with host := host }) _ h]
    rfl

/-- A command's meaning does not look at the coming input. -/
theorem blind_command {i : Instr} (h : i.isCommand = true) : Blind (exec i) := by
  cases i <;> first | exact absurd h Bool.false_ne_true | skip
  · exact blind_whenReady blind_next
  · exact blind_whenReady fun _ _ => rfl
  · exact blind_whenReady (blind_screened (fun _ _ => rfl) (blind_absorb _))
  · exact blind_whenReady (blind_screened (fun _ _ => rfl) blind_startFinalization)

theorem isCommand_decodeCmd (w : CmdWord) : (decodeCmd w).isCommand = true := by
  unfold decodeCmd
  split <;> [rfl; (split <;> [rfl; (split <;> rfl)])]

theorem blind_issue {f : State → Answer} (hf : Blind f) : Blind (issue f) :=
  blind_andThen (blind_runBusy _) (blind_andThen hf (blind_runBusy _))

theorem blind_issueInputs (bytes : List Byte) : Blind (issueInputs bytes) := by
  induction bytes with
  | nil => exact blind_next
  | cons b rest ih => exact blind_andThen (blind_issue (blind_command (i := .input b) rfl)) ih

theorem blind_issueWords (ws : List CmdWord) : Blind (issueWords ws) := by
  induction ws with
  | nil => exact blind_next
  | cons w rest ih => exact blind_andThen (blind_issue (blind_command (isCommand_decodeCmd w))) ih

/-- What a blind meaning leaves of the coming input: all of it. -/
theorem host_of_blind {f : State → Answer} (hf : Blind f) {s t : State} (h : f s = .next t) : t.host = s.host := by
  have e := hf s s.host
  rw [show ({ s with host := s.host } : State) = s from rfl, h, withHost_next] at e
  injection e with e
  rw [e]

/-! ## A busy engine with a still port -/

/-- The coming input is over, or its next word is kept presented. -/
def Still (s : State) : Prop := s.host = [] ∨ ∃ w rest, s.host = .present w :: rest

theorem step_still {s : State} (hp : s.phase ≠ .idle) (hs : Still s) : step s = microStep s := by
  have hc : s.cmdReady = false := by simp [State.cmdReady, hp]
  have ha : s.afterEdge = s := by
    have : hostAfter s.cmdReady s.host = s.host := by
      rcases hs with h | ⟨w, rest, h⟩ <;> simp [h, hc]
    unfold State.afterEdge
    rw [this]
  have hr : s.edge.rst = false := by
    rcases hs with h | ⟨w, rest, h⟩ <;> simp [State.edge, h]
  rw [step_of_busy hr hp, ha]

/-- As long as the engine is busy and its port is still, `n` steps are `n` micro-operations (R66 case c). -/
theorem stepN_still {s : State} (hs : Still s) {n : Nat} (h : ∀ k, k < n → ∃ u, runBusy k s = .next u ∧ u.phase ≠ .idle) :
    stepN n s = runBusy n s := by
  induction n with
  | zero => rfl
  | succ n ih =>
    obtain ⟨u, hu, hb⟩ := h n (Nat.lt_succ_self n)
    rw [stepN_add n 1, ih fun k hk => h k (Nat.lt_succ_of_lt hk), hu, andThen_next, runBusy_succ n hu hb, stepN_succ]
    have hu' : Still u := by
      have e : u.host = s.host := host_of_blind (blind_runBusy n) hu
      unfold Still
      rw [e]
      exact hs
    rw [step_still hb hu']
    exact andThen_next_right _

end Sys2Proof.Machine
end

