-- ==== Sys2Proof/Laws/Finalization.lean ====
section
/-! SUPPORT. The micro-operations of a finalization run to the end (spec/43_finalization.md R117 to R122, R126). -/

namespace Sys2Proof.Machine

theorem microStep_zfill_trailer {s : State} (hp : s.phase = .zfill) (h : s.blockIndex.toNat ≤ 56) :
    microStep s = .next { s with buf := s.buf.zeroFill s.blockIndex.toNat 56, blockIndex := 56#7, phase := .len } := by
  unfold microStep
  rw [hp]
  exact exec_zfill_trailer h

theorem microStep_zfill_full {s : State} (hp : s.phase = .zfill) (h : 56 < s.blockIndex.toNat) :
    microStep s = .next { s with buf := s.buf.zeroFill s.blockIndex.toNat 64, blockIndex := 64#7, phase := .load } := by
  unfold microStep
  rw [hp]
  exact exec_zfill_full h

theorem microStep_len {s : State} (hp : s.phase = .len) :
    microStep s = .next { s with buf := s.buf.write64 56 s.bitLength, blockIndex := 64#7, fin := .last, phase := .load } := by
  unfold microStep
  rw [hp]
  exact exec_len s

theorem microStep_clear {s : State} (hp : s.phase = .clear) (h : s.buf.wf = true) :
    microStep s = .next { s with buf := [], bitLength := 0#64, blockIndex := 0#7, life := .finalized, fin := .none, phase := .idle } := by
  unfold microStep
  rw [hp]
  exact exec_clear h

/-- From a ZFILL with room for the trailer: ZFILL, LEN, 82 steps of compression, CLEAR. -/
theorem runBusy_lastBlock {s : State} (hp : s.phase = .zfill) (h : s.blockIndex.toNat ≤ 56) (hw : s.buf.wf = true) :
    ∃ u, runBusy 85 s = .next u ∧ u.t.toNat = 79 ∧
      u = { s with
        H := compress s.H ((s.buf.zeroFill s.blockIndex.toNat 56).write64 56 s.bitLength).block
        buf := [], blockIndex := 0#7, bitLength := 0#64, life := .finalized, fin := .none, phase := .idle
        W := u.W, work := u.work, t := u.t } := by
  let v : State :=
    { s with buf := (s.buf.zeroFill s.blockIndex.toNat 56).write64 56 s.bitLength, blockIndex := 64#7, fin := .last, phase := .load }
  let w : State := { s with buf := s.buf.zeroFill s.blockIndex.toNat 56, blockIndex := 56#7, phase := .len }
  obtain ⟨u, hu, h79, -, -, hall⟩ := runBusy_compression (s := v) rfl
  have hpu : u.phase = .clear := by rw [hall]; rfl
  have hwu : u.buf.wf = true := by
    rw [hall]
    exact Memory.wf_write64 _ (Memory.wf_zeroFill hw (by decide)) (by decide)
  refine ⟨{ u with buf := [], bitLength := 0#64, blockIndex := 0#7, life := .finalized, fin := .none, phase := .idle }, ?_, h79, ?_⟩
  · rw [show (85 : Nat) = 84 + 1 from rfl, runBusy_busy 84 (by rw [hp]; decide), microStep_zfill_trailer hp h, andThen_next,
      show (84 : Nat) = 83 + 1 from rfl, runBusy_busy 83 (s := w) (show Phase.len ≠ .idle by decide), microStep_len (s := w) rfl, andThen_next]
    exact (runBusy_succ 82 (s := v) hu (by rw [hpu]; decide)).trans (microStep_clear hpu hwu)
  · conv => lhs; rw [hall]
    simp [compressNow, v]

/-- From a ZFILL without room for the trailer: the extra block first. -/
theorem runBusy_twoBlocks {s : State} (hp : s.phase = .zfill) (hf : s.fin = .pad) (h : 56 < s.blockIndex.toNat) (hw : s.buf.wf = true) :
    ∃ u, runBusy 168 s = .next u ∧ u.t.toNat = 79 ∧
      u = { s with
        H := compress (compress s.H (s.buf.zeroFill s.blockIndex.toNat 64).block)
          (((s.buf.zeroFill s.blockIndex.toNat 64).zeroFill 0 56).write64 56 s.bitLength).block
        buf := [], blockIndex := 0#7, bitLength := 0#64, life := .finalized, fin := .none, phase := .idle
        W := u.W, work := u.work, t := u.t } := by
  let v : State := { s with buf := s.buf.zeroFill s.blockIndex.toNat 64, blockIndex := 64#7, phase := .load }
  obtain ⟨u, hu, -, -, -, hall⟩ := runBusy_compression (s := v) rfl
  have hpu : u.phase = .zfill := by rw [hall]; simp only [v, hf]; rfl
  have hwu : u.buf.wf = true := by
    rw [hall]
    exact Memory.wf_zeroFill hw (by decide)
  have hiu : u.blockIndex = 0#7 := by rw [hall]; rfl
  obtain ⟨x, hx, h79, hall'⟩ := runBusy_lastBlock hpu (by rw [hiu]; decide) hwu
  refine ⟨x, ?_, h79, ?_⟩
  · rw [show (168 : Nat) = 167 + 1 from rfl, runBusy_busy 167 (by rw [hp]; decide), microStep_zfill_full hp h, andThen_next,
      show (167 : Nat) = 82 + 85 from rfl, runBusy_add, show runBusy 82 v = .next u from hu, andThen_next, hx]
  · rw [hall', hiu]
    conv => lhs; rw [hall]
    simp [compressNow, v]

end Sys2Proof.Machine
end

