-- ==== Sys2Proof/Laws/Invariant.lean ====
section
/-! SUPPORT. Small facts about the invariant `Sys2Proof.Safety.Inv`. -/

namespace Sys2Proof.Safety

open Sys2Proof.Machine

/-- The invariant says nothing of the host's coming input. -/
theorem inv_withHost {s : State} (h : Inv s) (host : List HostEvent) : Inv { s with host := host } :=
  ⟨h.canonical, h.idleFin, h.busyLive, h.idleIndex, h.fullIndex, h.zfill, h.len, h.clear, h.roundIndex, h.accumIndex, h.wholeBytes, h.index,
    h.fullLength, h.freshLength, h.finalized⟩

/-- A power-on step gives the invariant, whatever was before: it says nothing of the unspecified registers but the form of the buffer (R156). -/
theorem inv_powerOnStep (s : State) : Inv (powerOnStep s) := by
  constructor <;> simp [powerOnStep, Memory.wf_ofBlock, Compressing]

/-- Raising an error on an idle engine keeps it (R143). -/
theorem inv_raiseError {s : State} (e : Err) (hp : s.phase = .idle) (h : Inv s) : Inv (raiseError s e) :=
  ⟨h.canonical, h.idleFin, fun hb => absurd hp hb, h.idleIndex, h.fullIndex, h.zfill, h.len, h.clear, h.roundIndex, h.accumIndex, h.wholeBytes,
    h.index, h.fullLength, h.freshLength, h.finalized⟩

/-- RESET on an idle engine gives it (R80). -/
theorem inv_resetWrites {s : State} (hp : s.phase = .idle) (h : Inv s) : Inv (resetWrites s) := by
  have hw := h.canonical
  have hf := h.idleFin hp
  constructor <;> simp [Compressing, hp, hw, hf]

/-- An INPUT that passes the tests in a state with the invariant has room in the length counter (R13, R26). -/
theorem length_room {s : State} (h : Inv s) (hs : screenInput s = .passes) : s.bitLength.toNat + 8 < 2 ^ 64 := by
  obtain ⟨-, hl, hb⟩ := screenInput_passes.1 hs
  have hu : s.life ≠ .uninitialized := by
    rcases (lifeLegal_iff _).1 hl with h' | h' <;> simp [h']
  have h8 := h.wholeBytes hu
  have hne : s.bitLength.toNat ≠ 0xFFFFFFFFFFFFFFF8 := fun e => hb (BitVec.eq_of_toNat_eq (by simpa [maxBitLength] using e))
  have := s.bitLength.isLt
  omega

end Sys2Proof.Safety
end

