-- ==== Sys2Proof/Laws/Padding.lean ====
section
/-! SUPPORT. Blocks of a byte list, the padded message byte by byte, and `Compress` over blocks (spec/43_finalization.md R124,
spec/42_compression.md R112). -/

namespace Sys2Proof.Machine

theorem blocks_succ (n : Nat) (m : List Byte) : blocks (n + 1) m = blocks n m ++ [firstBlock (m.drop (64 * n))] := by
  induction n generalizing m with
  | zero => simp [blocks]
  | succ n ih =>
    rw [blocks, ih]
    simp only [blocks, List.drop_drop, List.cons_append]
    rw [show 64 + 64 * n = 64 * (n + 1) by omega]

theorem firstBlock_append {m : List Byte} (x : List Byte) (h : 64 ≤ m.length) : firstBlock (m ++ x) = firstBlock m := by
  unfold firstBlock
  apply Vector.ext
  intro i hi
  simp only [Vector.getElem_ofFn]
  rw [List.getD_append]
  omega

/-- What follows the first `n` blocks does not change them. -/
theorem blocks_append (n : Nat) {m : List Byte} (x : List Byte) (h : 64 * n ≤ m.length) : blocks n (m ++ x) = blocks n m := by
  induction n generalizing m with
  | zero => rfl
  | succ n ih =>
    rw [blocks, blocks, firstBlock_append _ (by omega), List.drop_append_of_le_length (by omega), ih (by simp; omega)]

theorem firstBlock_drop (p : List Byte) (n k : Nat) (hk : k < 64) : (firstBlock (p.drop n))[k] = p.getD (n + k) 0#8 := by
  simp [firstBlock, List.getD_eq_getElem?_getD]

theorem chain_one (H : Vector Word 5) (M : Vector Byte 64) : chain H [M] = compress H M := rfl

theorem chain_append (H : Vector Word 5) (a b : List (Vector Byte 64)) : chain H (a ++ b) = chain (chain H a) b := by
  simp [chain]

theorem padZeros_short {n : Nat} (h : n % 64 ≤ 55) : padZeros n = 55 - n % 64 := if_pos h

theorem padZeros_long {n : Nat} (h : ¬n % 64 ≤ 55) : padZeros n = 119 - n % 64 := if_neg h

theorem padded_length (m : List Byte) : (padded m).length = m.length + 9 + padZeros m.length := by
  simp [padded, padding]
  omega

/-- Every byte of the padded message (R124). -/
theorem padded_getD (m : List Byte) (k : Nat) :
    (padded m).getD k 0#8 =
      if k < m.length then m.getD k 0#8
      else if k = m.length then 0x80#8
      else if k < m.length + 1 + padZeros m.length then 0#8
      else if h : k - (m.length + 1 + padZeros m.length) < 8 then
        unpack64 (BitVec.ofNat 64 (8 * m.length)) ⟨k - (m.length + 1 + padZeros m.length), h⟩
      else 0#8 := by
  unfold padded padding
  simp only [List.getD_eq_getElem?_getD, List.getElem?_append, List.getElem?_cons, List.length_replicate, List.getElem?_replicate,
    List.getElem?_map]
  by_cases h1 : k < m.length
  · simp [h1]
  · simp only [h1, if_false]
    by_cases h2 : k = m.length
    · simp [h2, padByte]
    · have h0 : k - m.length ≠ 0 := by omega
      simp only [h0, h2, if_false]
      by_cases h3 : k < m.length + 1 + padZeros m.length
      · simp [h3, show k - m.length - 1 < padZeros m.length by omega]
      · simp only [h3, show ¬k - m.length - 1 < padZeros m.length by omega, if_false]
        rw [show k - m.length - 1 - padZeros m.length = k - (m.length + 1 + padZeros m.length) by omega]
        split
        · rename_i h; simp [h]
        · rename_i h; simp at h; simp [show 8 ≤ k - (m.length + 1 + padZeros m.length) by omega]

end Sys2Proof.Machine
end

