-- ==== Sys2Proof/Laws/PerInstr.lean ====
section
/-! SUPPORT. One statement about the instructions as syntax, a lemma for each constructor: what an instruction expands to (spec/30_encoding.md
R76, R77) is made of commands and micro-operations only, each well formed. -/

namespace Sys2Proof.Laws.Expansion

/-- The expansion of `i` holds no pseudo-command and no ill-formed instruction. -/
def Statement (i : Instr) : Prop := ∀ j ∈ i.expand, (j.isCommand = true ∨ j.isMicro = true) ∧ j.wellFormed = true

theorem of_self {i : Instr} (he : i.expand = [i]) (hc : i.isCommand = true ∨ i.isMicro = true) (hw : i.wellFormed = true) :
    Statement i := by
  intro j hj
  rw [he, List.mem_singleton] at hj
  subst hj
  exact ⟨hc, hw⟩

theorem nop : Statement .nop := of_self rfl (.inl rfl) rfl

theorem reset : Statement .reset := of_self rfl (.inl rfl) rfl

theorem input (b : Byte) : Statement (.input b) := of_self rfl (.inl rfl) rfl

theorem result : Statement .result := of_self rfl (.inl rfl) rfl

theorem load : Statement .load := of_self rfl (.inr rfl) rfl

theorem roundCh : Statement .roundCh := of_self rfl (.inr rfl) rfl

theorem roundPar1 : Statement .roundPar1 := of_self rfl (.inr rfl) rfl

theorem roundMaj : Statement .roundMaj := of_self rfl (.inr rfl) rfl

theorem roundPar2 : Statement .roundPar2 := of_self rfl (.inr rfl) rfl

theorem accum : Statement .accum := of_self rfl (.inr rfl) rfl

theorem zfill : Statement .zfill := of_self rfl (.inr rfl) rfl

theorem len : Statement .len := of_self rfl (.inr rfl) rfl

theorem clear : Statement .clear := of_self rfl (.inr rfl) rfl

theorem inputs (bytes : List Byte) : Statement (.inputs bytes) := by
  intro j hj
  obtain ⟨b, -, rfl⟩ := List.mem_map.1 hj
  exact input b _ (List.mem_singleton.2 rfl)

theorem hash (bytes : List Byte) : Statement (.hash bytes) := by
  intro j hj
  simp only [Instr.expand, List.cons_append, List.mem_cons, List.mem_append] at hj
  rcases hj with rfl | hj | rfl | h
  · exact reset _ (List.mem_singleton.2 rfl)
  · exact inputs bytes j hj
  · exact result _ (List.mem_singleton.2 rfl)
  · exact absurd h List.not_mem_nil

end Sys2Proof.Laws.Expansion
end

