-- ==== Sys2Proof/Machine/Assembler.lean ====
section
/-! DEFINITION. The textual form of a command sequence (spec/30_encoding.md R75 to R77): one command a line, `;` comments, upper-case
mnemonics, bytes as `0xHH`, decimal or `'c'`, strings in double quotes. Text is a list of characters. Where R75 leaves the lexical detail
open, log entry 16 says what is read. -/

namespace Sys2Proof.Machine

/-- Why a line is no command. -/
inductive AsmError
  /-- The first word of the line is no mnemonic of R75 to R77. -/
  | mnemonic
  /-- The operand is missing, malformed, above 255, or more than the command takes. -/
  | operand
deriving DecidableEq, Repr

/-- The code of a double quote. -/
def doubleQuote : Nat := 0x22

/-- The code of a single quote. -/
def singleQuote : Nat := 0x27

/-- What separates words: a space or a tabulator (log entry 16, DESIGN CHOICE; R76 says "space-separated" of byte operands only). -/
def isBlank (c : Char) : Bool := decide (c.toNat = 0x20) || decide (c.toNat = 0x09)

/-- Where in a line a character stands: outside any quotes, inside a string, or the one or two characters after an opening single
quote. -/
inductive LexMode
  | plain
  | string
  | charBody
  | charClose
deriving DecidableEq, Repr

/-- The mode after the character `c`. -/
def LexMode.after (m : LexMode) (c : Char) : LexMode :=
  match m with
  | .plain => if c.toNat = doubleQuote then .string else if c.toNat = singleQuote then .charBody else .plain
  | .string => if c.toNat = doubleQuote then .plain else .string
  | .charBody => .charClose
  | .charClose => .plain

/-- The line without its comment: `;` starts one "to the end of the line" (R75), except inside a string or a character operand (log
entry 16, DESIGN CHOICE). -/
def stripComment (m : LexMode) (line : List Char) : List Char :=
  match line with
  | [] => []
  | c :: rest => if c.toNat = 0x3B ∧ m = .plain then [] else c :: stripComment (m.after c) rest

/-- The value of a hexadecimal digit, of either case (log entry 16, DESIGN CHOICE). -/
def hexDigit (c : Char) : Option Nat :=
  let n := c.toNat
  if 0x30 ≤ n ∧ n ≤ 0x39 then some (n - 0x30)
  else if 0x41 ≤ n ∧ n ≤ 0x46 then some (n - 0x41 + 10)
  else if 0x61 ≤ n ∧ n ≤ 0x66 then some (n - 0x61 + 10)
  else none

/-- The value of a decimal digit. -/
def decDigit (c : Char) : Option Nat := if 0x30 ≤ c.toNat ∧ c.toNat ≤ 0x39 then some (c.toNat - 0x30) else none

/-- The value of a non-empty run of decimal digits; `acc` is the value of the digits before. -/
def decimal (acc : Nat) (digits : List Char) : Option Nat :=
  match digits with
  | [] => some acc
  | c :: rest =>
    match decDigit c with
    | none => none
    | some d => decimal (10 * acc + d) rest

/-- A decimal operand 0 to 255 (R75), leading zeros allowed (log entry 16, DESIGN CHOICE). -/
def decimalByte (word : List Char) : Option Byte :=
  if word = [] then none
  else
    match decimal 0 word with
    | none => none
    | some n => if n ≤ 255 then some (BitVec.ofNat 8 n) else none

/-- One byte operand that fills the whole word: `0xHH`, a decimal number, or `'c'` with c printable (R75): a code from 0x20 to
0x7E, a quote and a blank among them (log entry 16, DESIGN CHOICE). -/
def byteOperand (word : List Char) : Option Byte :=
  match word with
  | [z, x, h, l] =>
    if z.toNat = 0x30 ∧ x.toNat = 0x78 then
      match hexDigit h, hexDigit l with
      | some a, some b => some (BitVec.ofNat 8 (16 * a + b))
      | _, _ => none
    else decimalByte word
  | [q, c, r] =>
    if q.toNat = singleQuote ∧ r.toNat = singleQuote then
      if 0x20 ≤ c.toNat ∧ c.toNat ≤ 0x7E then some (BitVec.ofNat 8 c.toNat) else none
    else decimalByte word
  | _ => decimalByte word

/-- The words of a line that blanks separate; the character of `'c'` may itself be a blank. `word` is the word read so far, last
character first. -/
def splitWords (m : LexMode) (word : List Char) (line : List Char) : List (List Char) :=
  match line with
  | [] => if word = [] then [] else [word.reverse]
  | c :: rest =>
    if isBlank c ∧ m = .plain then
      if word = [] then splitWords m [] rest else word.reverse :: splitWords m [] rest
    else splitWords (m.after c) (c :: word) rest

/-- The byte operands of a list of words, all of them or none. -/
def byteOperands (words : List (List Char)) : Option (List Byte) :=
  match words with
  | [] => some []
  | w :: rest =>
    match byteOperand w, byteOperands rest with
    | some b, some bs => some (b :: bs)
    | _, _ => none

/-- The characters of a string up to its closing quote, which only blanks may follow; ASCII characters only (R76). There is no escape: any
character but a double quote stands for itself (log entry 16, DESIGN CHOICE). -/
def stringBytes (text : List Char) : Option (List Byte) :=
  match text with
  | [] => none
  | c :: rest =>
    if c.toNat = doubleQuote then if rest.all isBlank then some [] else none
    else if 0x80 ≤ c.toNat then none
    else
      match stringBytes rest with
      | none => none
      | some bs => some (BitVec.ofNat 8 c.toNat :: bs)

/-- The operand of INPUTS and HASH: a string, or byte operands separated by blanks, possibly none (R76). -/
def bytesOperand (text : List Char) : Option (List Byte) :=
  match text.dropWhile isBlank with
  | [] => some []
  | c :: rest => if c.toNat = doubleQuote then stringBytes rest else byteOperands (splitWords .plain [] (c :: rest))

/-- An instruction without an operand: only blanks may follow. -/
def plainLine (i : Instr) (text : List Char) : Except AsmError (Option Instr) :=
  if text.all isBlank then .ok (some i) else .error .operand

/-- One line: a command, a pseudo-command, or nothing when it is blank but for a comment (R75 to R77). Blanks may stand before the
mnemonic, and one at least stands between it and an operand (log entry 16, DESIGN CHOICE). -/
def assembleLine (line : List Char) : Except AsmError (Option Instr) :=
  let code := (stripComment .plain line).dropWhile isBlank
  let name := code.takeWhile fun c => !isBlank c
  let rest := code.drop name.length
  if name = [] then .ok none
  else if name = ['N', 'O', 'P'] then plainLine .nop rest
  else if name = ['R', 'E', 'S', 'E', 'T'] then plainLine .reset rest
  else if name = ['R', 'E', 'S', 'U', 'L', 'T'] then plainLine .result rest
  else if name = ['I', 'N', 'P', 'U', 'T'] then
    match byteOperands (splitWords .plain [] rest) with
    | some [b] => .ok (some (.input b))
    | _ => .error .operand
  else if name = ['I', 'N', 'P', 'U', 'T', 'S'] then
    match bytesOperand rest with
    | some bs => .ok (some (.inputs bs))
    | none => .error .operand
  else if name = ['H', 'A', 'S', 'H'] then
    match bytesOperand rest with
    | some bs => .ok (some (.hash bs))
    | none => .error .operand
  else .error .mnemonic

/-- The lines of a text; `line` is the line read so far, last character first. R75 says "One command per line" and not what ends a
line: a line feed (0x0A) alone does, the last line needs none, and a carriage return is a character of the line, so that it makes
the line an error where it does not stand in a comment or a string (log entry 16, DESIGN CHOICE). -/
def splitLines (line : List Char) (text : List Char) : List (List Char) :=
  match text with
  | [] => if line = [] then [] else [line.reverse]
  | c :: rest => if c.toNat = 0x0A then line.reverse :: splitLines [] rest else splitLines (c :: line) rest

/-- The instructions of a list of lines, in order; the first bad line is reported, and then no command of the text is given (log entry 16,
DESIGN CHOICE). -/
def assembleLines (lines : List (List Char)) : Except AsmError (List Instr) :=
  match lines with
  | [] => .ok []
  | l :: rest =>
    match assembleLine l with
    | .error e => .error e
    | .ok i =>
      match assembleLines rest with
      | .error e => .error e
      | .ok is => .ok (i.toList ++ is)

/-- A program: the list of its commands in order (R75). -/
def assemble (text : List Char) : Except AsmError (List Instr) := assembleLines (splitLines [] text)

/-- The words of a program, pseudo-commands expanded (R75 to R77): what the host presents, in order. -/
def programWords (program : List Instr) : List CmdWord := program.flatMap Instr.words

end Sys2Proof.Machine
end

