-- ==== Sys2Proof/Tests/Slice0.lean ====
section
/-! SUPPORT. The model's own tests. Expected values are the spec's (spec/95_test_vectors.md and the worked examples of the rules); the second part gives, for
every statement with hypotheses, a state that meets them. -/

namespace Sys2Proof.Tests

open Sys2Proof.Machine
open Sys2Proof.Safety

/-! ## Small states -/

/-- The state after power-on and RESET (R40). -/
def fresh : State := { State.reset with H := iv, life := .reset }

/-- Three bytes absorbed: "abc" (spec/95_test_vectors.md section 2.1, rows 2 to 4). -/
def abc : State :=
  { fresh with buf := [(0, 0x61#8), (1, 0x62#8), (2, 0x63#8)], blockIndex := 3#7, bitLength := 24#64, life := .absorbing }

/-- The padded block of "abc" as LOAD reads it (section 2.1). -/
def abcBlock : Memory := [(0, 0x61#8), (1, 0x62#8), (2, 0x63#8), (3, 0x80#8), (63, 0x18#8)]

/-- The state in which LOAD of the last block of "abc" runs (section 2.1, step 4). -/
def abcLoad : State := { abc with buf := abcBlock, blockIndex := 64#7, fin := .last, phase := .load }

/-- The state before the round of index `t`. -/
def inRound (t : RoundIndex) (v : Working) (W : Vector Word 80) : State := { abcLoad with phase := .round, t := t, work := v, W := W }

/-- The field of the next state, when there is one. -/
def after {α : Type} (o : Answer) (f : State → α) : Option α :=
  match o with
  | .next s => some (f s)
  | .fault _ => none
  | .refused _ => none

/-! ## Well-formedness -/

theorem wellFormed_hash_of_length {m : List Byte} {n : Nat} (h : m.length = n) (hn : maxMessageBytes < n) :
    (Instr.hash m).wellFormed = false :=
  decide_eq_false (by omega)

/-- R129: a message of 2^61 bytes is too long for HASH; the check refuses it. -/
theorem test_wellFormed_refuses_long_hash : (Instr.hash (List.replicate (2 ^ 61) 0x61#8)).wellFormed = false :=
  wellFormed_hash_of_length (n := 2 ^ 61) List.length_replicate (by decide)

theorem test_wellFormed_accepts_hash : (Instr.hash [0x61#8, 0x62#8, 0x63#8]).wellFormed = true := by decide

/-! ## Decoding: words written out from R68 and R72 (section 5.4) -/

theorem test_decode_nop : decodeCmd 0b0000000000#10 = .nop := by decide
theorem test_decode_nop_data_ignored : decodeCmd 0b0011111111#10 = .nop := by decide
theorem test_decode_reset : decodeCmd 0b0100000000#10 = .reset := by decide
theorem test_decode_reset_data_ignored : decodeCmd 0b0110100101#10 = .reset := by decide
theorem test_decode_input : decodeCmd 0b1001100001#10 = .input 0x61#8 := by decide
theorem test_decode_input_ff : decodeCmd 0b1011111111#10 = .input 0xFF#8 := by decide
theorem test_decode_result : decodeCmd 0b1100000000#10 = .result := by decide
theorem test_decode_load : decodeMicro 0b001#3 5#7 = .ok .load := by decide
theorem test_decode_roundCh : decodeMicro 0b010#3 19#7 = .ok .roundCh := by decide
theorem test_decode_roundPar1 : decodeMicro 0b010#3 20#7 = .ok .roundPar1 := by decide
theorem test_decode_roundMaj : decodeMicro 0b010#3 40#7 = .ok .roundMaj := by decide
theorem test_decode_roundPar2 : decodeMicro 0b010#3 79#7 = .ok .roundPar2 := by decide
theorem test_decode_accum : decodeMicro 0b011#3 79#7 = .ok .accum := by decide
theorem test_decode_zfill : decodeMicro 0b100#3 0#7 = .ok .zfill := by decide
theorem test_decode_len : decodeMicro 0b101#3 0#7 = .ok .len := by decide
theorem test_decode_clear : decodeMicro 0b110#3 0#7 = .ok .clear := by decide
theorem test_decode_idle_rejected : decodeMicro 0b000#3 0#7 = .error .idlePhase := by decide
theorem test_decode_unused_rejected : decodeMicro 0b111#3 0#7 = .error .unusedPhase := by decide
theorem test_decode_round_80_rejected : decodeMicro 0b010#3 80#7 = .error (.roundIndex 80#7) := by decide

/-- Section 5.4: `HASH "abc"` = 0x100 0x261 0x262 0x263 0x300. -/
theorem test_words_hash_abc :
    (Instr.hash [0x61#8, 0x62#8, 0x63#8]).words = [0x100#10, 0x261#10, 0x262#10, 0x263#10, 0x300#10] := by decide

theorem test_words_inputs_empty : (Instr.inputs []).words = [] := by decide

theorem test_table_word_input : decodeTableWord 16 0x261 = some (.input 0x61#8) := by decide
theorem test_table_word_load : decodeTableWord 8 1 = some .load := by decide
theorem test_fetch_word_input_after_reset :
    after (step (State.reset.withFetchWord 16 0x261)) (fun s => (s.err, s.host)) = some (.usage, []) := by decide
theorem test_fetch_word_len_after_reset :
    after (step (State.reset.withFetchWord 8 5)) (fun s => (s.phase, s.fin)) = some (.load, .last) := by decide

/-! ## The text form (R75 to R77) -/

theorem test_assemble_line_input : assembleLine ['I', 'N', 'P', 'U', 'T', ' ', '0', 'x', '6', '1', ' ', ';', ' ', 'a'] = .ok (some (.input 0x61#8)) := by
  decide
theorem test_assemble_line_char : assembleLine ['I', 'N', 'P', 'U', 'T', ' ', (Char.ofNat 39), 'a', (Char.ofNat 39)] = .ok (some (.input 0x61#8)) := by
  decide

/-! ## Arithmetic (section 5.1) and the packer (section 5.2) -/

theorem test_add32_wraps : add32 0xC3D2E1F0#32 0xD8FDF6AD#32 = 0x9CD0D89D#32 := by decide
theorem test_rotl32_30 : rotl32 0x12345678#32 30 = 0x048D159E#32 := by decide
theorem test_fCh_truth_table : fCh 0xF0F0F0F0#32 0xCCCCCCCC#32 0xAAAAAAAA#32 = 0xCACACACA#32 := by decide
theorem test_fParity_truth_table : fParity 0xF0F0F0F0#32 0xCCCCCCCC#32 0xAAAAAAAA#32 = 0x96969696#32 := by decide
theorem test_fMaj_truth_table : fMaj 0xF0F0F0F0#32 0xCCCCCCCC#32 0xAAAAAAAA#32 = 0xE8E8E8E8#32 := by decide
theorem test_pack32 : pack32 0x61#8 0x62#8 0x63#8 0x80#8 = 0x61626380#32 := by decide
theorem test_unpack64 : (List.finRange 8).map (unpack64 0x0123456789ABCC00#64) =
    [0x01#8, 0x23#8, 0x45#8, 0x67#8, 0x89#8, 0xAB#8, 0xCC#8, 0x00#8] := by decide
theorem test_digest_byte_17 : (digestBytes #v[0#32, 0#32, 0#32, 0#32, 0x9CD0D89D#32])[17] = 0xD0#8 := by decide

/-! ## One step of each instruction -/

/-- Section 5.5, P4 row 1: INPUT before the first RESET raises USAGE. -/
theorem test_input_uninitialized : after (exec (.input 0x61#8) State.reset) (·.err) = some .usage := by decide

/-- Section 2.1 row 2. -/
theorem test_input_stores : after (exec (.input 0x61#8) fresh) (fun s => (s.buf.read 0, s.blockIndex, s.bitLength, s.life)) =
    some (0x61#8, 1#7, 8#64, .absorbing) := by decide

/-- Section 5.5, P7 row 2: the byte that would need a length of 2^64. -/
theorem test_input_too_large :
    after (exec (.input 0xBB#8) { abc with bitLength := 0xFFFFFFFFFFFFFFF8#64, blockIndex := 63#7 }) (fun s => (s.err, s.blockIndex)) =
      some (.inputTooLarge, 63#7) := by decide

/-- R13: the carry into bit 32. -/
theorem test_input_carry :
    after (exec (.input 0#8) { abc with bitLength := 0x00000000FFFFFFF8#64 }) (·.bitLength) = some 0x0000000100000000#64 := by decide

/-- Section 2.1 step 1 of the RESULT. -/
theorem test_result_terminator : after (exec .result abc) (fun s => (s.buf.read 3, s.blockIndex, s.fin, s.phase)) =
    some (0x80#8, 4#7, .pad, .zfill) := by decide

/-- Section 5.5, P4 row 10: RESULT while an error is recorded. -/
theorem test_result_refused : exec .result { fresh with life := .finalized, err := .usage } =
    .next { fresh with life := .finalized, err := .usage } := rfl

theorem test_reset_from_error : after (exec .reset { abc with err := .usage }) (fun s => (s.err, s.life, s.bitLength, s.blockIndex, s.H[4])) =
    some (.none, .reset, 0#64, 0#7, 0xC3D2E1F0#32) := by decide

theorem test_nop : exec .nop abc = .next abc := rfl

/-- Section 2.1 steps 2 and 3, and section 5.5, P3 step 2. -/
theorem test_zfill_single : after (exec .zfill { abc with buf := [(3, 0x80#8), (20, 7#8), (60, 9#8)], blockIndex := 4#7, fin := .pad, phase := .zfill })
    (fun s => (s.buf, s.blockIndex, s.phase)) = some ([(3, 0x80#8), (60, 9#8)], 56#7, .len) := by decide
theorem test_zfill_double : after (exec .zfill { abc with buf := [(56, 0x80#8), (60, 9#8)], blockIndex := 57#7, fin := .pad, phase := .zfill })
    (fun s => (s.buf, s.blockIndex, s.phase)) = some ([(56, 0x80#8)], 64#7, .load) := by decide
theorem test_len : after (exec .len { abc with bitLength := 448#64, fin := .pad, phase := .len }) (fun s => (s.buf.read 62, s.buf.read 63, s.fin, s.phase)) =
    some (0x01#8, 0xC0#8, .last, .load) := by decide
theorem test_clear : after (exec .clear { abcLoad with phase := .clear }) (fun s => (s.buf, s.bitLength, s.life, s.digestValid)) =
    some ([], 0#64, .finalized, true) := by decide

/-- R105's worked example. -/
theorem test_load : after (exec .load abcLoad) (fun s => (s.W[0], s.W[15], s.work.A, s.work.E, s.t, s.phase)) =
    some (0x61626380#32, 0x00000018#32, 0x67452301#32, 0xC3D2E1F0#32, 0#7, .round) := by decide

/-- Section 2.2, row 0, from the state LOAD leaves. -/
theorem test_roundCh : after (andThen (exec .load abcLoad) (exec .roundCh)) (fun s => (s.work, s.t)) =
    some (⟨0x0116FC33#32, 0x67452301#32, 0x7BF36AE2#32, 0x98BADCFE#32, 0x10325476#32⟩, 1#7) := by decide

/-- Section 2.2, row 16: the step stores `W[16]` and uses it. -/
theorem test_roundCh_expands :
    after (exec .roundCh (inRound 16#7 ⟨0x20BDD62F#32, 0x196BEE77#32, 0x644A3DA5#32, 0x1181ED99#32, 0x18C623F9#32⟩ (packBlock abcBlock State.reset.W)))
      (fun s => (s.W[16], s.work)) =
    some (0xC2C4C700#32, ⟨0x4E925823#32, 0x20BDD62F#32, 0xC65AFB9D#32, 0x644A3DA5#32, 0x1181ED99#32⟩) := by decide

/-- Section 2.2, row 20, W[20] = 0: four equal (zero) words of the recurrence. -/
theorem test_roundPar1 :
    after (exec .roundPar1 (inRound 20#7 ⟨0xFD9E1D7D#32, 0xDC64901D#32, 0x20AA99CA#32, 0xD3A49608#32, 0xC82F758B#32⟩ State.reset.W)) (·.work) =
    some ⟨0x1A37B0CA#32, 0xFD9E1D7D#32, 0x77192407#32, 0x20AA99CA#32, 0xD3A49608#32⟩ := by decide

/-- Section 2.2, row 40: W[40] = D2E138C4 from W[37] = 626380A1, W[32] = 8E9A9202, W[26] = 00000000, W[24] = 85898EC1. -/
theorem test_roundMaj :
    after (exec .roundMaj (inRound 40#7 ⟨0x32DE1CBA#32, 0x4C986405#32, 0xF718E5CF#32, 0x03D447F6#32, 0xF72EEC32#32⟩
      (((State.reset.W.set 37 0x626380A1#32).set 32 0x8E9A9202#32).set 24 0x85898EC1#32))) (fun s => (s.W[40], s.work.A, s.t)) =
    some (0xD2E138C4#32, 0xFC87DEDF#32, 41#7) := by decide

/-- Section 2.2, row 79: the last round leaves `t` at 79 and goes to ACCUM; W[79] = 822E0879 from W[76], W[71], W[65], W[63]. -/
theorem test_roundPar2_last :
    after (exec .roundPar2 (inRound 79#7 ⟨0x5738D5E1#32, 0x860D21CC#32, 0x681E6DF6#32, 0xD8FDF6AD#32, 0xD7B9DA25#32⟩
      ((((State.reset.W.set 76 0xE6E60B69#32).set 71 0x458546F4#32).set 65 0x000F0000#32).set 63 0x627B49A1#32)))
      (fun s => (s.W[79], s.work, s.t, s.phase)) =
    some (0x822E0879#32, ⟨0x42541B35#32, 0x5738D5E1#32, 0x21834873#32, 0x681E6DF6#32, 0xD8FDF6AD#32⟩, 79#7, .accum) := by decide

/-- Section 2.4. -/
theorem test_accum :
    after (exec .accum { abcLoad with phase := .accum, work := ⟨0x42541B35#32, 0x5738D5E1#32, 0x21834873#32, 0x681E6DF6#32, 0xD8FDF6AD#32⟩ })
      (fun s => (s.H, s.blockIndex, s.phase)) =
    some (#v[0xA9993E36#32, 0x4706816A#32, 0xBA3E2571#32, 0x7850C26C#32, 0x9CD0D89D#32], 0#7, .clear) := by decide

/-- R135: the known vector of "abc", as HASH's digest words. -/
theorem test_hash_abc : after (exec (.hash [0x61#8, 0x62#8, 0x63#8]) State.reset) (fun s => (s.H, s.digestValid)) =
    some (#v[0xA9993E36#32, 0x4706816A#32, 0xBA3E2571#32, 0x7850C26C#32, 0x9CD0D89D#32], true) := by decide +kernel

/-- Section 3, V3, by the pure function. -/
theorem test_compress_v3 : compress (Vector.replicate 5 0#32) (Vector.replicate 64 0#8) =
    #v[0x9E1547ED#32, 0x57EC91C2#32, 0x30FA8BC8#32, 0xC7785A54#32, 0xA7EFA5E3#32] := by decide +kernel

theorem test_inputs_two : after (exec (.inputs [0x61#8, 0x62#8]) fresh) (fun s => (s.buf, s.blockIndex, s.bitLength)) =
    some ([(0, 0x61#8), (1, 0x62#8)], 2#7, 16#64) := by decide +kernel

/-! ## Witnesses: for every statement with hypotheses, states and operands that meet them, at the ends of their ranges -/

/-- A busy engine whose full block of an INPUT is being compressed (R87, R92). -/
def fullBlock : State := { fresh with buf := [(0, 0x61#8), (63, 0x62#8)], blockIndex := 64#7, bitLength := 512#64, life := .absorbing, phase := .load }

/-- An idle engine after `n` bytes of 0x00. -/
def zeros (n : Nat) : State := { fresh with blockIndex := BitVec.ofNat 7 (n % 64), bitLength := BitVec.ofNat 64 (8 * n), life := .absorbing }

/-- After RESULT (R128), with some digest words. -/
def done : State := { fresh with H := #v[1#32, 2#32, 3#32, 4#32, 5#32], t := 79#7, life := .finalized }

/-- An idle engine with a recorded error (R143). -/
def failed (e : Err) : State := { abc with err := e }

/-- The next step answers a next state. -/
def goesOn (o : Answer) : Bool := (after o fun _ => ()).isSome

theorem witness_CommandWordsDecodeAndEncode :
    (0x000#10).extractLsb' 8 2 = 0b00#2 ∧ (0x0FF#10).extractLsb' 8 2 = 0b00#2 ∧ (0x100#10).extractLsb' 8 2 = 0b01#2 ∧
    (0x1FF#10).extractLsb' 8 2 = 0b01#2 ∧ (0x200#10).extractLsb' 8 2 = 0b10#2 ∧ (0x2FF#10).extractLsb' 8 2 = 0b10#2 ∧
    (0x300#10).extractLsb' 8 2 = 0b11#2 ∧ (0x3FF#10).extractLsb' 8 2 = 0b11#2 ∧ (Instr.input 0xFF#8).isCommand = true := by decide

theorem witness_PhaseAndIndexSelectTheMicroOperation :
    ((0#7).toNat ≤ 19 ∧ (19#7).toNat ≤ 19) ∧ (20 ≤ (20#7).toNat ∧ (39#7).toNat ≤ 39) ∧ (40 ≤ (40#7).toNat ∧ (59#7).toNat ≤ 59) ∧
    (60 ≤ (60#7).toNat ∧ (79#7).toNat ≤ 79) ∧ 80 ≤ (80#7).toNat ∧ 80 ≤ (127#7).toNat := by decide

theorem witness_EncodedInstructionsDecodeBack :
    (Instr.hash [0x00#8, 0xFF#8]).wellFormed = true ∧ (Instr.inputs []).wellFormed = true ∧
    (Instr.input 0xFF#8).wellFormed = true ∧ (Instr.input 0xFF#8).isCommand = true ∧
    Instr.roundPar2.wellFormed = true ∧ Instr.roundPar2.isMicro = true := by decide

theorem witness_Rotl32IsTheCircularRotation : (1 ≤ 1 ∧ 1 ≤ 31) ∧ (1 ≤ 31 ∧ 31 ≤ 31) ∧ 0 < 32 ∧ 31 < 32 := by decide

theorem witness_RoundFunctionsBitByBit : 0 < 32 ∧ 31 < 32 := by decide

theorem witness_RoundIndexChoosesFunctionAndConstant :
    (0 : Fin 80).val ≤ 19 ∧ (19 : Fin 80).val ≤ 19 ∧ (20 ≤ (20 : Fin 80).val ∧ (39 : Fin 80).val ≤ 39) ∧
    (40 ≤ (40 : Fin 80).val ∧ (59 : Fin 80).val ≤ 59) ∧ 60 ≤ (60 : Fin 80).val ∧ 60 ≤ (79 : Fin 80).val := by decide

theorem witness_TrailerBecomesTheLastTwoWords : abcBlock.wf = true ∧ abc.buf.wf = true := by decide

theorem witness_OutputsAreFunctionsOfState : abc.digestValid = false ∧ (failed .usage).digestValid = false ∧ done.digestValid = true := by decide

/-- Every clause: power-on, idle without and with a command, each way the host can be at an edge of a busy engine, ROUND at both ends. -/
theorem witness_StepRunsTheSelectedInstruction :
    { abcLoad with host := [.powerOn, .quiet] }.host = .powerOn :: [.quiet] ∧
    (abc.phase = .idle ∧ abc.host = []) ∧
    ({ abc with host := [.quiet] }.phase = .idle ∧ { abc with host := [.quiet] }.host = .quiet :: []) ∧
    ({ abc with host := [.present 0x300#10] }.phase = .idle ∧ { abc with host := [.present 0x300#10] }.host = .present 0x300#10 :: []) ∧
    ({ abc with host := [.offer 0x2FF#10] }.phase = .idle ∧ { abc with host := [.offer 0x2FF#10] }.host = .offer 0x2FF#10 :: []) ∧
    (abcLoad.phase ≠ .idle ∧ decodeMicro abcLoad.phase.code abcLoad.t = .ok .load ∧ abcLoad.host = []) ∧
    (∀ u : State, u = { abcLoad with phase := .round, t := 0#7, host := [.present 0x100#10] } →
      u.phase ≠ .idle ∧ decodeMicro u.phase.code u.t = .ok .roundCh ∧ u.host = .present 0x100#10 :: []) ∧
    (∀ u : State, u = { abcLoad with phase := .round, t := 79#7, host := [.offer 0x100#10] } →
      u.phase ≠ .idle ∧ decodeMicro u.phase.code u.t = .ok .roundPar2 ∧ u.host = .offer 0x100#10 :: []) ∧
    (∀ u : State, u = { abcLoad with phase := .clear, host := [.quiet] } →
      u.phase ≠ .idle ∧ decodeMicro u.phase.code u.t = .ok .clear ∧ u.host = .quiet :: []) := by
  refine ⟨rfl, by decide, by decide, by decide, by decide, by decide, ?_, ?_, ?_⟩ <;> (rintro u rfl; decide)

/-- A step from each of the host lists the clauses name. -/
theorem witness_CommandsAreAcceptedOnceAndInOrder :
    (goesOn (step abc) = true ∧ abc.host = []) ∧
    goesOn (step { abcLoad with host := [.present 0x100#10, .quiet] }) = true ∧
    goesOn (step { abc with host := [.present 0x100#10, .quiet] }) = true ∧
    goesOn (step { abcLoad with host := [.offer 0x100#10] }) = true ∧ goesOn (step { abc with host := [.quiet] }) = true ∧
    goesOn (step { abcLoad with host := [.powerOn] }) = true :=
  ⟨⟨rfl, rfl⟩, rfl, rfl, rfl, rfl, rfl⟩

theorem witness_BusyEngineIgnoresCommands :
    abcLoad.phase ≠ .idle ∧ Instr.reset.isCommand = true ∧ (Instr.input 0x61#8).isCommand = true := by decide

theorem witness_PowerOnStepLeavesTheEngineUninitialized :
    { abcLoad with host := [.powerOn, .present 0x100#10] }.host = .powerOn :: [.present 0x100#10] := rfl

theorem witness_NopChangesNothing : abc.phase = .idle ∧ (0x0FF#10).extractLsb' 8 2 = 0b00#2 := by decide

theorem witness_ResetInitializesTheContext :
    State.reset.phase = .idle ∧ (failed .inputTooLarge).phase = .idle ∧ done.phase = .idle ∧ abcLoad.phase ≠ .idle := by decide

/-- The first byte, the byte that fills the buffer, and the largest length that still takes one. -/
theorem witness_InputStoresThenCountsThenTriggers :
    (∀ u ∈ [fresh, zeros 62, zeros 63, { zeros 62 with bitLength := 0xFFFFFFFFFFFFFFF0#64 }],
      u.buf.wf = true ∧ u.phase = .idle ∧ u.err = .none ∧ (u.life = .reset ∨ u.life = .absorbing) ∧ u.blockIndex.toNat ≤ 63 ∧
      u.bitLength.toNat + 8 < 2 ^ 64) ∧
    (zeros 63).blockIndex.toNat = 63 ∧ (zeros 62).blockIndex.toNat ≠ 63 := by decide

theorem witness_FirstFailingTestDecides :
    ((failed .usage).phase = .idle ∧ (failed .usage).err ≠ .none) ∧
    (State.reset.phase = .idle ∧ State.reset.err = .none ∧ (State.reset.life = .uninitialized ∨ State.reset.life = .finalized)) ∧
    (done.phase = .idle ∧ done.err = .none ∧ (done.life = .uninitialized ∨ done.life = .finalized)) ∧
    (∀ u : State, u = { zeros 63 with bitLength := 0xFFFFFFFFFFFFFFF8#64 } →
      u.phase = .idle ∧ u.err = .none ∧ (u.life = .reset ∨ u.life = .absorbing) ∧ u.bitLength = 0xFFFFFFFFFFFFFFF8#64 ∧
      u.blockIndex.toNat ≤ 63) ∧
    (fresh.phase = .idle ∧ fresh.err = .none ∧ (fresh.life = .reset ∨ fresh.life = .absorbing) ∧ fresh.blockIndex.toNat ≤ 63 ∧
      fresh.bitLength.toNat + 8 < 2 ^ 64) := by
  refine ⟨by decide, by decide, by decide, ?_, by decide⟩
  rintro u rfl
  decide

/-- Both sides of the equivalence can hold, and RESULT goes on with that code recorded. -/
theorem witness_OnlyInputRaisesInputTooLarge :
    ({ zeros 63 with bitLength := 0xFFFFFFFFFFFFFFF8#64 }.phase = .idle ∧
      after (exec (.input 0#8) { zeros 63 with bitLength := 0xFFFFFFFFFFFFFFF8#64 }) (·.err) = some .inputTooLarge) ∧
    (fresh.phase = .idle ∧ after (exec (.input 0#8) fresh) (·.err) = some .none) ∧
    after (exec .result (failed .inputTooLarge)) (·.err) = some .inputTooLarge := by decide

theorem witness_RecordedErrorRefusesAllButReset :
    ((failed .usage).phase = .idle ∧ (failed .usage).err ≠ .none) ∧
    ((failed .inputTooLarge).phase = .idle ∧ (failed .inputTooLarge).err ≠ .none) ∧
    ({ failed .usage with host := [.present 0x300#10] }.host = .present 0x300#10 :: [] ∧ decodeCmd 0x300#10 ≠ .reset) := by decide

/-- An INPUT is refused; a step of a busy engine with an error (a state no run reaches). -/
theorem witness_FirstErrorIsKeptUntilReset :
    (∃ u s' : State, u = { failed .usage with host := [.present 0x261#10] } ∧ step u = .next s' ∧ u.err ≠ .none ∧
      (∀ rest, u.host ≠ .powerOn :: rest) ∧ (u.phase = .idle → ¬Presents u .reset)) ∧
    (∃ u s' : State, u = { abcLoad with err := .usage, host := [.present 0x100#10] } ∧ step u = .next s' ∧ u.err ≠ .none ∧
      (∀ rest, u.host ≠ .powerOn :: rest) ∧ (u.phase = .idle → ¬Presents u .reset)) := by
  refine ⟨⟨_, failed .usage, rfl, rfl, by decide, by simp, ?_⟩, ⟨_, _, rfl, rfl, by decide, by simp, fun h => (nomatch h)⟩⟩
  rintro - ⟨w, rest, h | h, hd⟩
  · injection h with h _
    injection h with h
    subst h
    exact absurd hd (by decide)
  · injection h with h _
    exact (nomatch h)

theorem witness_ResultAppendsTheTerminator :
    ∀ u ∈ [fresh, zeros 63], u.buf.wf = true ∧ u.phase = .idle ∧ u.err = .none ∧ (u.life = .reset ∨ u.life = .absorbing) ∧
      u.blockIndex.toNat ≤ 63 := by decide

/-- The ends of the two ranges, and a step into LOAD from each of the three phases. -/
theorem witness_LoadPacksTheBlock :
    ((15 : Fin 80).val < 16 ∧ 16 ≤ (16 : Fin 80).val ∧ 16 ≤ (79 : Fin 80).val) ∧
    after (step { zeros 63 with host := [.present 0x2FF#10] }) (·.phase) = some .load ∧
    after (step { abc with phase := .zfill, fin := .pad, blockIndex := 57#7 }) (·.phase) = some .load ∧
    after (step { abc with phase := .len, fin := .pad, blockIndex := 56#7 }) (·.phase) = some .load := by decide

/-- Both ends of the four ranges of `t`. -/
theorem witness_RoundVariantsDoOneRound :
    (∀ t ∈ [(0 : Fin 80), 19, 20, 39, 40, 59, 60, 79],
      { abcLoad with phase := .round, t := BitVec.ofNat 7 t.val }.phase = .round ∧
      { abcLoad with phase := .round, t := BitVec.ofNat 7 t.val }.t.toNat = t.val) := by decide

theorem witness_RoundBeyondSeventyNineStops :
    80 ≤ { abcLoad with phase := .round, t := 80#7 }.t.toNat ∧ 80 ≤ { abcLoad with phase := .round, t := 127#7 }.t.toNat ∧
    { abcLoad with phase := .round, t := 80#7 }.phase = .round ∧
    (∀ rest, { abcLoad with phase := .round, t := 80#7 }.host ≠ .powerOn :: rest) :=
  ⟨by decide, by decide, rfl, fun _ h => (nomatch h)⟩

/-- The three values of `fin`, and a step into ACCUM. -/
theorem witness_AccumAddsAndContinuesByFin :
    (fullBlock.fin = .none ∧ { abcLoad with fin := .pad }.fin = .pad ∧ abcLoad.fin = .last) ∧
    after (step { abcLoad with phase := .round, t := 79#7 }) (·.phase) = some .accum := by decide

/-- Both sides of offset 56, and the full buffer; a step into ZFILL from each of the two phases. -/
theorem witness_ZfillFillsToTheTrailerOrTheEnd :
    (∀ n ∈ [1#7, 56#7, 57#7, 64#7], { abcLoad with fin := .pad, phase := .zfill, blockIndex := n }.buf.wf = true ∧
      (56 < n.toNat ∨ n.toNat ≤ 56)) ∧
    after (step { abc with host := [.present 0x300#10] }) (·.phase) = some .zfill ∧
    after (step { abcLoad with phase := .accum, fin := .pad }) (·.phase) = some .zfill := by decide

theorem witness_LenWritesTheTrailer :
    { abc with fin := .pad, phase := .len, blockIndex := 56#7 }.buf.wf = true ∧
    after (step { abc with phase := .zfill, fin := .pad, blockIndex := 4#7 }) (·.phase) = some .len := by decide

theorem witness_ClearErasesBufferAndCounters :
    ({ abcLoad with phase := .clear, blockIndex := 0#7 }.buf.wf = true ∧ { abcLoad with phase := .clear, blockIndex := 0#7 }.err = .none) ∧
    after (step { abcLoad with phase := .accum }) (·.phase) = some .clear := by decide

/-- A next state of each command and each micro-operation, of ZFILL on both sides of offset 56. -/
theorem witness_OnlyTheListedRegistersAreWritten :
    (∀ i ∈ [Instr.nop, .reset, .input 0x64#8, .result], i.isCommand = true ∧ goesOn (exec i abc) = true) ∧
    (∀ i ∈ [Instr.load, .roundCh, .roundPar1, .roundMaj, .roundPar2, .accum, .zfill, .len, .clear],
      i.isMicro = true ∧ goesOn (exec i abcLoad) = true) ∧
    (∀ n ∈ [0#7, 56#7, 57#7, 64#7], goesOn (exec .zfill { abcLoad with blockIndex := n }) = true) := by decide

/-- The RESET and the ACCUM that change the digest words. -/
theorem witness_DigestWordsHaveThreeWriters :
    after (step { done with host := [.present 0x100#10] }) (fun s => decide (s.H ≠ done.H)) = some true ∧
    after (step { abcLoad with phase := .accum, work := ⟨1#32, 0#32, 0#32, 0#32, 0#32⟩ }) (fun s => decide (s.H ≠ abcLoad.H)) = some true := by
  decide

/-- A RESET, an INPUT, a RESULT, a NOP and an edge without a command on a finalized engine, with and without an error. -/
theorem witness_FinalizedIsTerminalUntilReset :
    (done.phase = .idle ∧ done.life = .finalized ∧ done.err = .none ∧ { done with err := .usage }.err ≠ .none) ∧
    (∀ w rest, { done with host := [.present w] }.host ≠ .powerOn :: rest ∧ { done with host := [.offer w] }.host ≠ .powerOn :: rest) ∧
    (decodeCmd 0x100#10 = .reset ∧ decodeCmd 0x0FF#10 = .nop ∧ decodeCmd 0x261#10 = .input 0x61#8 ∧ decodeCmd 0x300#10 = .result) ∧
    (∀ w rest, { done with host := [.quiet] }.host = .present w :: rest ∨ { done with host := [.quiet] }.host = .offer w :: rest →
      decodeCmd w = .nop) := by
  refine ⟨by decide, ?_, by decide, ?_⟩
  · exact fun w rest => ⟨fun h => (nomatch (List.cons.inj h).1), fun h => (nomatch (List.cons.inj h).1)⟩
  · rintro w rest (h | h) <;> exact (nomatch (List.cons.inj h).1)

/-- A step out of every phase, the three outcomes of an idle engine among them, and both ends of ROUND and ZFILL. -/
theorem witness_PhasesFollowTheSuccessorRelation :
    after (step { zeros 63 with host := [.present 0x200#10] }) (·.phase) = some .load ∧
    after (step { abc with host := [.offer 0x300#10] }) (·.phase) = some .zfill ∧
    after (step { abc with host := [.present 0x100#10] }) (·.phase) = some .idle ∧
    (∀ t ∈ [0#7, 78#7, 79#7], goesOn (step { abcLoad with phase := .round, t := t }) = true) ∧
    (∀ f ∈ [Finish.none, .pad, .last], goesOn (step { abcLoad with phase := .accum, fin := f }) = true) ∧
    (∀ n ∈ [56#7, 57#7], goesOn (step { abc with phase := .zfill, fin := .pad, blockIndex := n }) = true) ∧
    (∀ p ∈ [Phase.load, .len, .clear], goesOn (step { abc with phase := p }) = true) ∧
    (∀ rest, { abc with host := [.present 0x100#10] }.host ≠ .powerOn :: rest) :=
  ⟨by decide, by decide, by decide, by decide, by decide, by decide, by decide, fun _ h => (nomatch (List.cons.inj h).1)⟩

theorem inv_fresh (host : List HostEvent) : Inv { fresh with host := host } := inv_withHost (s := fresh) (by constructor <;> decide) host

theorem inv_fullBlock : Inv fullBlock := by constructor <;> decide

theorem inv_abcLoad : Inv abcLoad := by constructor <;> decide

theorem inv_done (host : List HostEvent) : Inv { done with host := host } := inv_withHost (s := done) (by constructor <;> decide) host

/-- Idle, and in every busy phase at both ends of what the invariant allows there, with a step that goes on. -/
theorem witness_EveryStepKeepsTheInvariant :
    (Inv fresh ∧ goesOn (step fresh) = true) ∧ (Inv fullBlock ∧ goesOn (step fullBlock) = true) ∧
    (∀ t ∈ [0#7, 79#7], ∀ u : State, u = { abcLoad with phase := .round, t := t } → Inv u ∧ goesOn (step u) = true) ∧
    (∀ u : State, u = { abcLoad with phase := .accum, t := 79#7 } → Inv u ∧ goesOn (step u) = true) ∧
    (∀ n ∈ [0#7, 56#7, 57#7, 64#7], ∀ u : State, u = { abc with phase := .zfill, fin := .pad, blockIndex := n } → Inv u ∧ goesOn (step u) = true) ∧
    (∀ u : State, u = { abc with phase := .len, fin := .pad, blockIndex := 56#7 } → Inv u ∧ goesOn (step u) = true) ∧
    (∀ u : State, u = { abcLoad with phase := .clear, blockIndex := 0#7 } → Inv u ∧ goesOn (step u) = true) := by
  refine ⟨⟨inv_fresh [], rfl⟩, ⟨inv_fullBlock, rfl⟩, ?_, ?_, ?_, ?_, ?_⟩
  · simp only [List.forall_mem_cons]
    refine ⟨?_, ?_, fun _ h => (nomatch h)⟩ <;> (rintro u rfl; exact ⟨by constructor <;> decide, by decide⟩)
  · rintro u rfl; exact ⟨by constructor <;> decide, by decide⟩
  · simp only [List.forall_mem_cons]
    refine ⟨?_, ?_, ?_, ?_, fun _ h => (nomatch h)⟩ <;> (rintro u rfl; exact ⟨by constructor <;> decide, by decide⟩)
  · rintro u rfl; exact ⟨by constructor <;> decide, by decide⟩
  · rintro u rfl; exact ⟨by constructor <;> decide, by decide⟩

theorem witness_InvariantStatesNeverStop : Inv fresh ∧ Inv abcLoad ∧ Inv { done with host := [.powerOn] } :=
  ⟨inv_fresh [], inv_abcLoad, inv_done _⟩

/-- The longest period (ZFILL with a full buffer) and the shortest (CLEAR). -/
theorem witness_EveryBusyPeriodEnds :
    ∀ u ∈ [{ abc with phase := .zfill, fin := .pad, blockIndex := 64#7, host := [.present 0x100#10] },
      { abcLoad with phase := .clear, blockIndex := 0#7 }], Inv u ∧ u.phase ≠ .idle ∧ ∀ e ∈ u.host, e ≠ .powerOn := by
  simp only [List.forall_mem_cons]
  refine ⟨⟨by constructor <;> decide, by decide, by decide⟩, ⟨by constructor <;> decide, by decide, by decide⟩, fun _ h => (nomatch h)⟩

/-- Both ways the port can be still, and every value of `fin`. -/
theorem witness_CompressionStepsRefineCompress :
    (fullBlock.phase = .load ∧ fullBlock.host = [] ∧ fullBlock.fin = .none) ∧ (abcLoad.phase = .load ∧ abcLoad.fin = .last) ∧
    (∃ w rest, { fullBlock with host := [.present 0x300#10] }.host = .present w :: rest) ∧ 0 < 80 ∧ 79 < 80 :=
  ⟨by decide, by decide, ⟨_, _, rfl⟩, by decide, by decide⟩

theorem witness_ExpandingOnTheFlyEqualsExpandingFirst :
    fullBlock.phase = .load ∧ fullBlock.host = [] ∧ 16 ≤ (16 : Fin 80).val ∧ 16 ≤ (79 : Fin 80).val ∧ 80 ≤ 80 := by decide

/-- The byte that does not fill the buffer and the one that does. -/
theorem witness_InputStepsRefineDoInput :
    ∀ n ∈ [62, 63], ∀ u : State, u = { zeros n with host := [.present (0x200#10 + (0xFF#8).setWidth 10)] } →
      Inv u ∧ u.phase = .idle ∧ u.host = [.present (0x200#10 + (0xFF#8).setWidth 10)] := by
  simp only [List.forall_mem_cons]
  refine ⟨?_, ?_, fun _ h => (nomatch h)⟩ <;> (rintro u rfl; exact ⟨by constructor <;> decide, rfl, rfl⟩)

/-- The empty message, and both sides of the point from which the trailer needs a block of its own. -/
theorem witness_ResultStepsRefineDoResult :
    (∀ u : State, u = { fresh with host := [.present 0x300#10] } →
      Inv u ∧ u.phase = .idle ∧ u.err = .none ∧ (u.life = .reset ∨ u.life = .absorbing) ∧ u.blockIndex.toNat ≤ 55) ∧
    (∀ n ∈ [55, 56, 63], ∀ u : State, u = { zeros n with host := [.present 0x300#10] } →
      Inv u ∧ u.phase = .idle ∧ u.err = .none ∧ (u.life = .reset ∨ u.life = .absorbing) ∧ u.blockIndex.toNat = n) := by
  refine ⟨?_, ?_⟩
  · rintro u rfl; exact ⟨inv_fresh _, by decide, by decide, by decide, by decide⟩
  · simp only [List.forall_mem_cons]
    refine ⟨?_, ?_, ?_, fun _ h => (nomatch h)⟩ <;>
      (rintro u rfl; exact ⟨by constructor <;> decide, by decide, by decide, by decide, by decide⟩)

theorem witness_PaddedMessageIsWholeBlocks :
    ([] : List Byte).length % 64 ≤ 55 ∧ (List.replicate 55 0x00#8).length % 64 ≤ 55 ∧ 56 ≤ (List.replicate 56 0x00#8).length % 64 ∧
    56 ≤ (List.replicate 63 0x00#8).length % 64 := by decide

/-- The empty message and three bytes on a fresh context, and the last byte the length counter has room for. -/
theorem witness_InputsAbsorbTheWholeMessage :
    (∀ m ∈ [[], [0x61#8, 0x62#8, 0x63#8]], Inv fresh ∧ fresh.phase = .idle ∧ fresh.err = .none ∧ fresh.life = .reset ∧ fresh.H = iv ∧
      fresh.bitLength.toNat + 8 * m.length < 2 ^ 64) ∧
    (∀ u : State, u = { zeros 62 with bitLength := 0xFFFFFFFFFFFFFFF0#64 } →
      Inv u ∧ u.phase = .idle ∧ u.err = .none ∧ u.life = .absorbing ∧ u.bitLength.toNat + 8 * [0x61#8].length < 2 ^ 64) := by
  refine ⟨?_, ?_⟩
  · simp only [List.forall_mem_cons]
    exact ⟨⟨inv_fresh [], by decide⟩, ⟨inv_fresh [], by decide⟩, fun _ h => (nomatch h)⟩
  · rintro u rfl; exact ⟨by constructor <;> decide, by decide⟩

/-- An idle and a busy engine, the empty message and "abc". -/
theorem witness_HashComputesSha1 :
    Inv fresh ∧ Inv abcLoad ∧ ([] : List Byte).length ≤ 2 ^ 61 - 1 ∧ [0x61#8, 0x62#8, 0x63#8].length ≤ 2 ^ 61 - 1 :=
  ⟨inv_fresh [], inv_abcLoad, by decide, by decide⟩

/-- A message that fits and the shortest one that does not. -/
theorem witness_HashRefinesDoHash :
    Inv fresh ∧ fresh.phase = .idle ∧ [0x61#8, 0x62#8, 0x63#8].length ≤ 2 ^ 61 - 1 ∧ 2 ^ 61 ≤ (List.replicate (2 ^ 61) 0x61#8).length :=
  ⟨inv_fresh [], rfl, by decide, Nat.le_of_eq List.length_replicate.symm⟩

theorem witness_HashOnThePortTakesTheStatedSteps :
    Inv fresh ∧ fresh.phase = .idle ∧ fresh.host = [] ∧ ([] : List Byte).length ≤ 2 ^ 61 - 1 ∧ [0x61#8].length ≤ 2 ^ 61 - 1 :=
  ⟨inv_fresh [], rfl, rfl, by decide, by decide⟩

theorem witness_PortRunsTheCommandSequence :
    Inv { fresh with host := [.present 0x261#10, .quiet, .present 0x300#10, .quiet] } ∧ fresh.phase = .idle ∧
    ∀ e ∈ [HostEvent.present 0x261#10, .quiet, .present 0x300#10, .quiet], e = .quiet ∨ ∃ w, e = .present w := by
  refine ⟨inv_fresh _, rfl, ?_⟩
  simp

theorem witness_PowerOnContentsDoNotMatter :
    { abcLoad with host := .powerOn :: (Instr.hash [0x61#8]).words.map .present }.host = .powerOn :: (Instr.hash [0x61#8]).words.map .present ∧
    [0x61#8].length ≤ 2 ^ 61 - 1 :=
  ⟨rfl, by decide⟩

/-- The same context with other leftovers, after a RESET and before the first one. -/
theorem witness_LeftoversAreNeverObserved :
    (∀ u : State, u = { abc with buf := abc.buf ++ [(60, 7#8)], t := 5#7, work := ⟨1#32, 2#32, 3#32, 4#32, 5#32⟩ } →
      Inv abc ∧ Inv u ∧ Alike abc u) ∧
    (∀ u v : State, u = { State.reset with t := 127#7 } → v = { State.reset with H := iv, blockIndex := 127#7, bitLength := 5#64 } →
      Inv u ∧ Inv v ∧ Alike u v) := by
  refine ⟨?_, ?_⟩
  · rintro u rfl
    exact ⟨by constructor <;> decide, by constructor <;> decide, by constructor <;> decide⟩
  · rintro u v rfl rfl
    exact ⟨by constructor <;> decide, by constructor <;> decide, by constructor <;> decide⟩

end Sys2Proof.Tests
end

section
/-! The word arithmetic of spec/00_scope.md: ADD32 (R10) and ROTL32 (R11). -/

namespace Sys2Proof.Machine

/-! ## ADD32 (R10) -/

theorem toNat_add32 (a b : Word) : (add32 a b).toNat = (a.toNat + b.toNat) % 2 ^ 32 :=
  BitVec.toNat_add a b

theorem add32_assoc (a b c : Word) : add32 (add32 a b) c = add32 a (add32 b c) :=
  BitVec.add_assoc a b c

theorem add32_comm (a b : Word) : add32 a b = add32 b a :=
  BitVec.add_comm a b

@[simp] theorem add32_zero (a : Word) : add32 a 0#32 = a :=
  BitVec.add_zero a

/-- Settles O6: ADD32 is the addition of 32-bit vectors, so each law is the library's. -/
theorem add32WrapsModulo : Obligations.Add32WrapsModulo :=
  ⟨toNat_add32, add32_assoc, add32_comm, add32_zero, by decide⟩

/-! ## ROTL32 (R11) -/

theorem toNat_rotl32 (x : Word) {n : Nat} (hn : n < 32) :
    (rotl32 x n).toNat = (x.toNat <<< n) % 2 ^ 32 ||| x.toNat >>> (32 - n) := by
  simp only [rotl32, BitVec.toNat_rotateLeft, Nat.mod_eq_of_lt hn]

/-- A bit that the rotation pushes past the top comes back at the bottom; any other moves up by `n`. -/
theorem getLsbD_rotl32_add_mod (x : Word) {n i : Nat} (hn : n < 32) (hi : i < 32) :
    (rotl32 x n).getLsbD ((i + n) % 32) = x.getLsbD i := by
  rw [rotl32, BitVec.getLsbD_rotateLeft_of_le hn]
  by_cases hwrap : 32 ≤ i + n
  · have hpos : (i + n) % 32 = i + n - 32 := by omega
    have hlow : i + n - 32 < n := by omega
    have hsource : 32 - n + (i + n - 32) = i := by omega
    simp [hpos, hlow, hsource]
  · have hpos : (i + n) % 32 = i + n := by omega
    have hhigh : ¬ i + n < n := by omega
    have hlt : i + n < 32 := by omega
    simp [hpos, hlt]

/-- Every bit position is the image of one, so a word whose bits are all equal is a fixed point of the rotation. -/
theorem rotl32_eq_self_of_bits_equal {x : Word} {b : Bool} (hx : ∀ i, i < 32 → x.getLsbD i = b) {n : Nat} (hn : n < 32) :
    rotl32 x n = x := by
  apply BitVec.eq_of_getLsbD_eq
  intro j hj
  have hsource : (j + (32 - n)) % 32 < 32 := Nat.mod_lt _ (by decide)
  have hj' : ((j + (32 - n)) % 32 + n) % 32 = j := by omega
  calc (rotl32 x n).getLsbD j
      = (rotl32 x n).getLsbD (((j + (32 - n)) % 32 + n) % 32) := by rw [hj']
    _ = x.getLsbD ((j + (32 - n)) % 32) := getLsbD_rotl32_add_mod x hn hsource
    _ = b := hx _ hsource
    _ = x.getLsbD j := (hx j hj).symm

theorem rotl32_allOnes {n : Nat} (hn : n < 32) : rotl32 0xFFFFFFFF#32 n = 0xFFFFFFFF#32 :=
  rotl32_eq_self_of_bits_equal (b := true) (by decide) hn

theorem rotl32_zero {n : Nat} (hn : n < 32) : rotl32 0#32 n = 0#32 :=
  rotl32_eq_self_of_bits_equal (b := false) (by decide) hn

/-- Settles O7: the shift formula and the movement of the bits hold below 32, and the two constant words follow from the latter. -/
theorem rotl32IsTheCircularRotation : Obligations.Rotl32IsTheCircularRotation := by
  refine ⟨fun x n _ hle => ?_, by decide, by decide, by decide, by decide⟩
  have hn : n < 32 := by omega
  exact ⟨toNat_rotl32 x hn, fun i hi => getLsbD_rotl32_add_mod x hn hi, rotl32_allOnes hn, rotl32_zero hn⟩

end Sys2Proof.Machine
end

section
/-! What one core instruction can answer and what one step can do, said once: the frames, the phases, the writers of `H` and the
invariant (spec/10_state.md) follow by cases. -/

namespace Sys2Proof.Machine

open Sys2Proof.Safety

/-! ## Inversions of the accept steps -/

/-- A command presented to a busy engine has no effect (R66 case c). -/
theorem exec_command_busy {i : Instr} {s : State} (hc : i.isCommand = true) (hp : s.phase ≠ .idle) : exec i s = .next s := by
  cases i with
  | nop | reset | input b | result => exact whenReady_busy _ hp
  | _ => exact absurd hc Bool.false_ne_true

/-- The converse of `absorb_next`: an INPUT goes on only when its offset and the length are in range. -/
theorem absorb_cases {s t : State} {b : Byte} (h : absorb b s = .next t) :
    s.blockIndex.toNat < 64 ∧ s.bitLength.toNat + 8 < 2 ^ 64 ∧ t = { s with
      buf := s.buf.write8 s.blockIndex.toNat b, blockIndex := s.blockIndex + 1#7, bitLength := s.bitLength + 8#64, life := .absorbing,
      phase := if s.blockIndex + 1#7 = 64#7 then .load else s.phase } := by
  obtain ⟨s₁, happend, hrest⟩ := andThen_eq_next.1 h
  obtain ⟨hi, rfl⟩ := appendByte_cases happend
  obtain ⟨s₂, hcount, -⟩ := andThen_eq_next.1 hrest
  obtain ⟨hl, -⟩ := countByte_cases hcount
  rw [absorb_next b hi hl] at h
  injection h with h
  exact ⟨hi, hl, h.symm⟩

/-- The converse of `startFinalization_next`. -/
theorem startFinalization_cases {s t : State} (h : startFinalization s = .next t) :
    s.blockIndex.toNat < 64 ∧ t = { s with
      buf := s.buf.write8 s.blockIndex.toNat padByte, blockIndex := s.blockIndex + 1#7, fin := .pad, phase := .zfill } := by
  obtain ⟨s₁, happend, -⟩ := andThen_eq_next.1 h
  obtain ⟨hi, -⟩ := appendByte_cases happend
  rw [startFinalization_next hi] at h
  injection h with h
  exact ⟨hi, h.symm⟩

/-! ## What a core instruction answers -/

/-- The phase in which a step runs an instruction (R66, R72): a command on an idle engine, each micro-operation in its own phase. No step
runs a pseudo-command. -/
def runPhase (i : Instr) : Option Phase :=
  match i with
  | .nop | .reset | .input _ | .result => some .idle
  | .load => some .load
  | .roundCh | .roundPar1 | .roundMaj | .roundPar2 => some .round
  | .accum => some .accum
  | .zfill => some .zfill
  | .len => some .len
  | .clear => some .clear
  | .inputs _ | .hash _ => none

theorem runPhase_of_isCommand {i : Instr} (hc : i.isCommand = true) : runPhase i = some .idle := by
  cases i with
  | nop | reset | input b | result => rfl
  | _ => exact absurd hc Bool.false_ne_true

/-- The four variants of ROUND are one operation with a function and a constant each (R106). -/
theorem runPhase_eq_round {i : Instr} :
    runPhase i = some .round ↔ i = .roundCh ∨ i = .roundPar1 ∨ i = .roundMaj ∨ i = .roundPar2 := by
  cases i <;> simp [runPhase]

/-- Everything a core instruction can do when it answers a next state: one constructor for each way, with the tests that lead to it. -/
inductive ExecEffect (s : State) : Instr → State → Prop
  /-- A command on a busy engine is not consumed (R66 case c). -/
  | busy {i : Instr} (hc : i.isCommand = true) (hp : s.phase ≠ .idle) : ExecEffect s i s
  | nop (hp : s.phase = .idle) : ExecEffect s .nop s
  | reset (hp : s.phase = .idle) : ExecEffect s .reset (resetWrites s)
  | inputRefused (b : Byte) (hp : s.phase = .idle) (hs : screenInput s = .silent) : ExecEffect s (.input b) s
  | inputRaises (b : Byte) {e : Err} (hp : s.phase = .idle) (hs : screenInput s = .raises e) : ExecEffect s (.input b) (raiseError s e)
  | inputAbsorbs (b : Byte) (hp : s.phase = .idle) (hs : screenInput s = .passes) (hi : s.blockIndex.toNat < 64)
      (hl : s.bitLength.toNat + 8 < 2 ^ 64) : ExecEffect s (.input b) { s with
        buf := s.buf.write8 s.blockIndex.toNat b, blockIndex := s.blockIndex + 1#7, bitLength := s.bitLength + 8#64, life := .absorbing,
        phase := if s.blockIndex + 1#7 = 64#7 then .load else s.phase }
  | resultRefused (hp : s.phase = .idle) (hs : screenLife s = .silent) : ExecEffect s .result s
  | resultRaises {e : Err} (hp : s.phase = .idle) (hs : screenLife s = .raises e) : ExecEffect s .result (raiseError s e)
  | resultStarts (hp : s.phase = .idle) (hs : screenLife s = .passes) (hi : s.blockIndex.toNat < 64) : ExecEffect s .result { s with
        buf := s.buf.write8 s.blockIndex.toNat padByte, blockIndex := s.blockIndex + 1#7, fin := .pad, phase := .zfill }
  | load : ExecEffect s .load { s with W := packBlock s.buf s.W, work := workOf s.H, t := 0#7, phase := .round }
  | round {i : Instr} {f : Word → Word → Word → Word} {K : Word} (hi : runPhase i = some .round) (hf : exec i = roundStep f K)
      (ht : s.t.toNat < 80) : ExecEffect s i (roundAt f K ⟨s.t.toNat, ht⟩ s)
  | accum : ExecEffect s .accum { s with H := accumulate s.H s.work, blockIndex := 0#7, phase := afterAccum s.fin }
  | zfillFull (hi : 56 < s.blockIndex.toNat) :
      ExecEffect s .zfill { s with buf := s.buf.zeroFill s.blockIndex.toNat 64, blockIndex := 64#7, phase := .load }
  | zfillTrailer (hi : s.blockIndex.toNat ≤ 56) :
      ExecEffect s .zfill { s with buf := s.buf.zeroFill s.blockIndex.toNat 56, blockIndex := 56#7, phase := .len }
  | len : ExecEffect s .len { s with buf := s.buf.write64 56 s.bitLength, blockIndex := 64#7, fin := .last, phase := .load }
  | clear : ExecEffect s .clear { s with
        buf := s.buf.zeroFill 0 64, bitLength := 0#64, blockIndex := 0#7, life := .finalized, fin := .none, phase := .idle }

theorem execEffect_input {s t : State} {b : Byte} (hp : s.phase = .idle) (h : exec (.input b) s = .next t) :
    ExecEffect s (.input b) t := by
  rw [exec_input b hp] at h
  cases hs : screenInput s with
  | silent => rw [hs] at h; cases h; exact .inputRefused b hp hs
  | raises e => rw [hs] at h; cases h; exact .inputRaises b hp hs
  | passes =>
    rw [hs] at h
    obtain ⟨hi, hl, rfl⟩ := absorb_cases h
    exact .inputAbsorbs b hp hs hi hl

theorem execEffect_result {s t : State} (hp : s.phase = .idle) (h : exec .result s = .next t) : ExecEffect s .result t := by
  rw [exec_result hp] at h
  cases hs : screenLife s with
  | silent => rw [hs] at h; cases h; exact .resultRefused hp hs
  | raises e => rw [hs] at h; cases h; exact .resultRaises hp hs
  | passes =>
    rw [hs] at h
    obtain ⟨hi, rfl⟩ := startFinalization_cases h
    exact .resultStarts hp hs hi

theorem execEffect_command {i : Instr} {s t : State} (hc : i.isCommand = true) (h : exec i s = .next t) : ExecEffect s i t := by
  by_cases hp : s.phase = .idle
  · cases i with
    | nop => rw [exec_nop] at h; cases h; exact .nop hp
    | reset => rw [exec_reset hp] at h; cases h; exact .reset hp
    | input b => exact execEffect_input hp h
    | result => exact execEffect_result hp h
    | _ => exact absurd hc Bool.false_ne_true
  · rw [exec_command_busy hc hp] at h
    cases h
    exact .busy hc hp

theorem execEffect_round {i : Instr} {s t : State} {f : Word → Word → Word → Word} {K : Word} (hi : runPhase i = some .round)
    (hf : exec i = roundStep f K) (h : exec i s = .next t) : ExecEffect s i t := by
  rw [hf] at h
  obtain ⟨ht, rfl⟩ := roundStep_cases h
  exact .round hi hf ht

theorem execEffect_micro {i : Instr} {s t : State} (hm : i.isMicro = true) (h : exec i s = .next t) : ExecEffect s i t := by
  cases i with
  | load => cases h; exact .load
  | roundCh => exact execEffect_round rfl rfl h
  | roundPar1 => exact execEffect_round rfl rfl h
  | roundMaj => exact execEffect_round rfl rfl h
  | roundPar2 => exact execEffect_round rfl rfl h
  | accum => cases h; exact .accum
  | zfill =>
    by_cases hi : 56 < s.blockIndex.toNat
    · rw [exec_zfill_full hi] at h; cases h; exact .zfillFull hi
    · rw [exec_zfill_trailer (Nat.not_lt.1 hi)] at h; cases h; exact .zfillTrailer (Nat.not_lt.1 hi)
  | len => cases h; exact .len
  | clear => cases h; exact .clear
  | _ => exact absurd hm Bool.false_ne_true

/-- The inversion of `exec` for the thirteen core instructions. -/
theorem execEffect_of_exec {i : Instr} {s t : State} (hi : i.isCommand = true ∨ i.isMicro = true) (h : exec i s = .next t) :
    ExecEffect s i t :=
  hi.elim (execEffect_command · h) (execEffect_micro · h)

/-! ## What one step does -/

/-- The sequencer's code of a phase selects an instruction of that phase (R72). -/
theorem runPhase_of_decodeMicro {p : Phase} {t : RoundIndex} {i : Instr} (h : decodeMicro p.code t = .ok i) :
    i.isMicro = true ∧ runPhase i = some p := by
  cases p with
  | idle => exact (nomatch h)
  | round =>
    replace h : decodeRound t = .ok i := h
    unfold decodeRound at h
    split_ifs at h <;> cases h <;> exact ⟨rfl, rfl⟩
  | _ => cases h; exact ⟨rfl, rfl⟩

/-- Everything a step that goes on can be (R66, R156). -/
inductive StepEffect (s : State) : State → Prop
  | powerOn {rest : List HostEvent} (hh : s.host = .powerOn :: rest) : StepEffect s (powerOnStep s.afterEdge)
  /-- No command at an edge of an idle engine (R66 case b). -/
  | nothing (hp : s.phase = .idle) : StepEffect s s.afterEdge
  /-- The accept step of a command (case a) or a micro-operation (case c). -/
  | run {i : Instr} {t : State} (hr : runPhase i = some s.phase) (hh : s.phase = .idle → Presents s i)
      (he : ExecEffect s.afterEdge i t) : StepEffect s t

theorem edge_rst_eq_true {s : State} (h : s.edge.rst = true) : ∃ rest, s.host = .powerOn :: rest := by
  cases hh : s.host with
  | nil => simp [State.edge, hh] at h
  | cons e rest => cases e <;> simp [State.edge, hh] at h ⊢

theorem presents_of_edge_cmd {s : State} {w : CmdWord} (h : s.edge.cmd = some w) : Presents s (decodeCmd w) := by
  unfold State.edge at h
  split at h <;> cases h
  · exact ⟨w, _, .inl ‹_›, rfl⟩
  · exact ⟨w, _, .inr ‹_›, rfl⟩

/-- The inversion of `step`. -/
theorem stepEffect_of_step {s s' : State} (h : step s = .next s') : StepEffect s s' := by
  unfold step selected at h
  by_cases hrst : s.edge.rst = true
  · obtain ⟨rest, hh⟩ := edge_rst_eq_true hrst
    rw [if_pos hrst] at h
    cases h
    exact .powerOn hh
  · rw [if_neg hrst] at h
    by_cases hp : s.phase = .idle
    · rw [if_pos hp] at h
      cases hw : s.edge.cmd with
      | none => rw [hw] at h; cases h; exact .nothing hp
      | some w =>
        rw [hw] at h
        have hc := isCommand_decodeCmd w
        exact .run ((runPhase_of_isCommand hc).trans (congrArg some hp.symm)) (fun _ => presents_of_edge_cmd hw)
          (execEffect_command hc h)
    · rw [if_neg hp] at h
      cases hd : decodeMicro s.phase.code s.t with
      | error e => rw [hd] at h; exact (nomatch h)
      | ok i =>
        rw [hd] at h
        obtain ⟨hm, hr⟩ := runPhase_of_decodeMicro hd
        exact .run hr (absurd · hp) (execEffect_micro hm h)

end Sys2Proof.Machine
end

section
/-! The frames: each register changes under the instructions that the access matrix lists for it, and under no other (spec/10_state.md R39). -/

namespace Sys2Proof.Machine

open Sys2Proof.Safety

theorem Memory.read_zeroFill_outside {lo hi j : Nat} (m : Memory) (h : j < lo ∨ hi ≤ j) : (m.zeroFill lo hi).read j = m.read j :=
  read_writeBytes_outside _ _ (by simp; omega)

namespace ExecEffect

variable {i : Instr} {s t : State}

theorem H_unchanged (h : ExecEffect s i t) (hreset : i ≠ .reset) (haccum : i ≠ .accum) : t.H = s.H := by
  cases h with
  | reset | accum => contradiction
  | round => exact roundAt_H ..
  | _ => rfl

theorem datapath_unchanged (h : ExecEffect s i t)
    (hi : i.isCommand = true ∨ i = .accum ∨ i = .zfill ∨ i = .len ∨ i = .clear) : SameDatapath s t := by
  cases h with
  | load => simp [Instr.isCommand] at hi
  | round hr => rcases runPhase_eq_round.1 hr with rfl | rfl | rfl | rfl <;> simp [Instr.isCommand] at hi
  | _ => exact ⟨rfl, rfl, rfl⟩

theorem W_unchanged_of_load (h : ExecEffect s .load t) (j : Fin 80) (hj : 16 ≤ j.val) : t.W[j] = s.W[j] := by
  cases h with
  | load => exact packBlock_rest s.buf s.W hj j.isLt
  | busy hc | round hr => contradiction

/-- ROUND stores its schedule word at `t` only, and only from 16 on (R106). -/
theorem W_unchanged_of_round (h : ExecEffect s i t) (hr : runPhase i = some .round) (j : Fin 80)
    (hj : j.val < 16 ∨ j.val ≠ s.t.toNat) : t.W[j] = s.W[j] := by
  cases h with
  | busy | nop | inputRefused | inputRaises | inputAbsorbs | resultRefused | resultRaises | resultStarts => rfl
  | round _ _ ht =>
    rw [roundAt_W]
    split
    · next h16 =>
      have hne : s.t.toNat ≠ j.val := by
        dsimp only at h16
        omega
      exact Vector.getElem_set_ne ht j.isLt hne
    · rfl
  | _ => contradiction

theorem buf_unchanged (h : ExecEffect s i t)
    (hi : i = .nop ∨ i = .reset ∨ i = .load ∨ i = .roundCh ∨ i = .roundPar1 ∨ i = .roundMaj ∨ i = .roundPar2 ∨ i = .accum) :
    t.buf = s.buf := by
  cases h with
  | round => exact roundAt_buf ..
  | inputAbsorbs | resultStarts | zfillFull | zfillTrailer | len | clear => simp at hi
  | _ => rfl

/-- INPUT and RESULT store at `block_index` only (R86, R115). -/
theorem read_unchanged_of_append (h : ExecEffect s i t) (hi : (∃ b, i = .input b) ∨ i = .result) (k : Nat)
    (hk : k ≠ s.blockIndex.toNat) : t.buf.read k = s.buf.read k := by
  cases h with
  | inputAbsorbs | resultStarts => exact Memory.read_write_other _ _ hk
  | zfillFull | zfillTrailer | len | clear => simp at hi
  | round => rw [roundAt_buf]
  | _ => rfl

theorem read_unchanged_of_zfill (h : ExecEffect s .zfill t) (k : Nat)
    (hk : k < s.blockIndex.toNat ∨ (if 56 < s.blockIndex.toNat then 64 else 56) ≤ k) : t.buf.read k = s.buf.read k := by
  cases h with
  | zfillFull hi => exact Memory.read_zeroFill_outside _ (by rwa [if_pos hi] at hk)
  | zfillTrailer hi => exact Memory.read_zeroFill_outside _ (by rwa [if_neg (Nat.not_lt.2 hi)] at hk)
  | busy hc | round hr => contradiction

theorem read_unchanged_of_len (h : ExecEffect s .len t) (k : Nat) (hk : k < 56 ∨ 64 ≤ k) : t.buf.read k = s.buf.read k := by
  cases h with
  | len => exact Memory.read_write64_outside _ _ hk
  | busy hc | round hr => contradiction

theorem read_unchanged_of_clear (h : ExecEffect s .clear t) (k : Nat) (hk : 64 ≤ k) : t.buf.read k = s.buf.read k := by
  cases h with
  | clear => dsimp only; rw [Memory.read_zeroFill_outside s.buf (.inr hk)]
  | busy hc | round hr => contradiction

theorem blockIndex_unchanged (h : ExecEffect s i t)
    (hi : i = .nop ∨ i = .load ∨ i = .roundCh ∨ i = .roundPar1 ∨ i = .roundMaj ∨ i = .roundPar2) :
    t.blockIndex = s.blockIndex := by
  cases h with
  | round => exact roundAt_blockIndex ..
  | reset | inputAbsorbs | resultStarts | accum | zfillFull | zfillTrailer | len | clear => simp at hi
  | _ => rfl

theorem bitLength_unchanged (h : ExecEffect s i t) (hinput : ∀ b, i ≠ .input b) (hreset : i ≠ .reset) (hclear : i ≠ .clear) :
    t.bitLength = s.bitLength := by
  cases h with
  | round => exact roundAt_bitLength ..
  | inputAbsorbs b => exact absurd rfl (hinput b)
  | reset | clear => contradiction
  | _ => rfl

theorem phase_unchanged (h : ExecEffect s i t) (hi : i = .nop ∨ i = .reset) : t.phase = s.phase := by
  cases h with
  | round hr => rcases hi with rfl | rfl <;> cases hr
  | inputAbsorbs | resultStarts | load | accum | zfillFull | zfillTrailer | len | clear => simp at hi
  | _ => rfl

theorem fin_unchanged (h : ExecEffect s i t) (hresult : i ≠ .result) (hlen : i ≠ .len) (hclear : i ≠ .clear) : t.fin = s.fin := by
  cases h with
  | round => exact roundAt_fin ..
  | resultStarts | len | clear => contradiction
  | _ => rfl

theorem life_unchanged (h : ExecEffect s i t) (hinput : ∀ b, i ≠ .input b) (hreset : i ≠ .reset) (hclear : i ≠ .clear) :
    t.life = s.life := by
  cases h with
  | round => exact roundAt_life ..
  | inputAbsorbs b => exact absurd rfl (hinput b)
  | reset | clear => contradiction
  | _ => rfl

theorem err_unchanged (h : ExecEffect s i t) (hi : i = .nop ∨ i.isMicro = true) : t.err = s.err := by
  cases h with
  | round => exact roundAt_err ..
  | reset | inputRaises | resultRaises => simp [Instr.isMicro] at hi
  | _ => rfl

theorem input_unchanged (h : ExecEffect s i t) : SameInput s t := by
  cases h with
  | round => exact ⟨roundAt_host .., roundAt_powerOns ..⟩
  | _ => exact ⟨rfl, rfl⟩

end ExecEffect

/-- Settles O34: by cases over what `exec` can answer, one lemma for each register or store. -/
theorem onlyTheListedRegistersAreWritten : Obligations.OnlyTheListedRegistersAreWritten := by
  intro i s t hi hexec
  have h := execEffect_of_exec hi hexec
  refine ⟨h.H_unchanged, h.datapath_unchanged, ?load, fun hr => h.W_unchanged_of_round (runPhase_eq_round.2 hr), h.buf_unchanged,
    h.read_unchanged_of_append, ?zfill, ?len, ?clear, h.blockIndex_unchanged, h.bitLength_unchanged, h.phase_unchanged, h.fin_unchanged,
    h.life_unchanged, h.err_unchanged, h.input_unchanged⟩
  case load => rintro rfl; exact h.W_unchanged_of_load
  case zfill => rintro rfl; exact h.read_unchanged_of_zfill
  case len => rintro rfl; exact h.read_unchanged_of_len
  case clear => rintro rfl; exact h.read_unchanged_of_clear

end Sys2Proof.Machine
end

section
/-! The whole-machine rules of spec/10_state.md: the successors of the phases (R28), the writers of the digest words (R21), and the outputs
(R32). -/

namespace Sys2Proof.Machine

open Sys2Proof.Safety

/-- Settles O36: an instruction that changes `H` is RESET or ACCUM, and a step runs those where the statement says. -/
theorem digestWordsHaveThreeWriters : Obligations.DigestWordsHaveThreeWriters := by
  intro s s' hstep hchanged
  cases stepEffect_of_step hstep with
  | powerOn hh => exact .inl ⟨_, hh⟩
  | nothing => exact absurd (afterEdge_H s) hchanged
  | @run i _ hr hh he =>
    by_cases hreset : i = .reset
    · subst hreset
      have hp : s.phase = .idle := (Option.some.inj hr).symm
      exact .inr (.inr ⟨hp, hh hp⟩)
    · by_cases haccum : i = .accum
      · subst haccum
        exact .inr (.inl (Option.some.inj hr).symm)
      · exact absurd (he.H_unchanged hreset haccum) hchanged

/-! ## Phases (R28) -/

theorem StepEffect.next_of_idle {s s' : State} (h : StepEffect s s') (hp : s.phase = .idle) (hrst : ∀ rest, s.host ≠ .powerOn :: rest) :
    s'.phase = .idle ∨ (s'.phase = .load ∧ s'.blockIndex = 64#7 ∧ ∃ b, Presents s (.input b)) ∨
      (s'.phase = .zfill ∧ Presents s .result) := by
  cases h with
  | powerOn hh => exact absurd hh (hrst _)
  | nothing => exact .inl hp
  | run hr hh he =>
    rw [hp] at hr
    have hpresents := hh hp
    cases he with
    | inputAbsorbs b =>
      by_cases hfull : s.blockIndex + 1#7 = 64#7
      · exact .inr (.inl ⟨if_pos hfull, hfull, b, hpresents⟩)
      · exact .inl ((if_neg hfull).trans hp)
    | resultStarts => exact .inr (.inr ⟨rfl, hpresents⟩)
    | busy | nop | reset | inputRefused | inputRaises | resultRefused | resultRaises => exact .inl hp
    | round hround => rw [hround] at hr; cases hr
    | _ => cases hr

/-- The phase after a micro-operation (R28). -/
def busySuccessor (s : State) : Phase :=
  match s.phase with
  | .idle => .idle
  | .load => .round
  | .round => if s.t.toNat = 79 then .accum else .round
  | .accum => afterAccum s.fin
  | .zfill => if 56 < s.blockIndex.toNat then .load else .len
  | .len => .load
  | .clear => .idle

theorem ExecEffect.phase_of_busy {i : Instr} {s t : State} (h : ExecEffect s i t) (hr : runPhase i = some s.phase)
    (hp : s.phase ≠ .idle) : t.phase = busySuccessor s := by
  cases h with
  | busy hc => exact absurd (Option.some.inj ((runPhase_of_isCommand hc).symm.trans hr)).symm hp
  | round hround =>
    have hphase : s.phase = .round := Option.some.inj (hr.symm.trans hround)
    rw [roundAt_phase, busySuccessor, hphase]
  | load | accum | len | clear => simp [busySuccessor, ← Option.some.inj hr]
  | zfillFull hi => rw [busySuccessor, ← Option.some.inj hr]; exact (if_pos hi).symm
  | zfillTrailer hi => rw [busySuccessor, ← Option.some.inj hr]; exact (if_neg (Nat.not_lt.2 hi)).symm
  | _ => contradiction

theorem StepEffect.next_of_busy {s s' : State} (h : StepEffect s s') (hp : s.phase ≠ .idle) (hrst : ∀ rest, s.host ≠ .powerOn :: rest) :
    s'.phase = busySuccessor s := by
  cases h with
  | powerOn hh => exact absurd hh (hrst _)
  | nothing hidle => contradiction
  | run hr _ he => exact he.phase_of_busy hr hp

theorem Phase.code_ne_seven (p : Phase) : p.code ≠ 7#3 := by
  cases p <;> decide

/-- Settles O35: an idle engine by what its command did, a busy one by `busySuccessor`. -/
theorem phasesFollowTheSuccessorRelation : Obligations.PhasesFollowTheSuccessorRelation := by
  refine ⟨⟨rfl, Phase.code_ne_seven⟩, fun s s' hstep hrst => ?_⟩
  have h := stepEffect_of_step hstep
  have hbusy {p : Phase} (hp : s.phase = p) (hne : p ≠ .idle) : s'.phase = busySuccessor s := h.next_of_busy (hp ▸ hne) hrst
  refine ⟨fun hp => h.next_of_idle hp hrst, fun hp => ?load, fun hp => ?round, fun hp => ?accum, fun hp => ?zfill, fun hp => ?len,
    fun hp => ?clear⟩ <;> rw [hbusy hp (by decide), busySuccessor, hp]
  case round => exact ⟨fun hlt => if_neg (Nat.ne_of_lt hlt), fun hlast => if_pos hlast⟩
  case accum => rfl
  case zfill => exact ⟨fun hfull => if_pos hfull, fun hroom => if_neg (Nat.not_lt.2 hroom)⟩

/-! ## Outputs (R32) -/

/-- Byte `k` of a word counted from the most significant (R52), as a number. -/
theorem toNat_unpack32 (w : Word) (k : Fin 4) : (unpack32 w k).toNat = (w.toNat >>> (8 * (3 - k.val))) % 256 := by
  have hshift : 24 - 8 * k.val = 8 * (3 - k.val) := by omega
  rw [unpack32, BitVec.extractLsb'_toNat, hshift]

theorem digestBytes_getElem (H : Vector Word 5) (i : Fin 20) :
    (digestBytes H)[i] = unpack32 (H[i.val / 4]'(by omega)) ⟨i.val % 4, by omega⟩ := by
  simp [digestBytes]

theorem digestValid_iff (s : State) : s.digestValid = true ↔ s.life = .finalized ∧ s.err = .none ∧ s.phase = .idle := by
  simp [State.digestValid, and_assoc]

theorem digest_of_valid {s : State} (h : s.digestValid = true) : s.digest = some (digestBytes s.H) := if_pos h

theorem digest_of_not_valid {s : State} (h : s.digestValid = false) : s.digest = none := if_neg (by simp [h])

/-- Settles O12: the codes by definition, the digest byte by byte. -/
theorem outputsAreFunctionsOfState : Obligations.OutputsAreFunctionsOfState := by
  intro s
  refine ⟨cmdReady_iff s, rfl, rfl, digestValid_iff s, digest_of_not_valid, fun hvalid => ⟨digestBytes s.H, digest_of_valid hvalid, fun i => ?_⟩⟩
  rw [digestBytes_getElem, toNat_unpack32]

/-- Settles O18: `State.reset` holds the values themselves. -/
theorem resetStateIsUninitializedAndReady : Obligations.ResetStateIsUninitializedAndReady :=
  ⟨rfl, rfl, rfl, rfl, rfl, rfl⟩

end Sys2Proof.Machine
end

section
/-! The invariant (spec/10_state.md R26 to R35) holds at reset and is kept by every step. A state with the invariant that is busy, or accepts an
INPUT or a RESULT, is `Live`; each way a live state goes on then owes only what the invariant says of its new phase. -/

namespace Sys2Proof.Safety

open Sys2Proof.Machine

/-- What the invariant says of every state between a RESET and the CLEAR of its finalization that has met no error, in whatever phase. -/
structure Live (s : State) : Prop where
  canonical : s.buf.wf = true
  life : s.life = .reset ∨ s.life = .absorbing
  err : s.err = .none
  wholeBytes : s.bitLength.toNat % 8 = 0
  freshLength : s.life = .reset → s.bitLength = 0#64

section Preservation

variable {s : State}

theorem Live.not_finalized (h : Live s) : s.life ≠ .finalized := by
  rcases h.life with hl | hl <;> simp [hl]

theorem Inv.live (h : Inv s) (hl : s.life = .reset ∨ s.life = .absorbing) (he : s.err = .none) : Live s :=
  ⟨h.canonical, hl, he, h.wholeBytes (by rcases hl with hl | hl <;> simp [hl]), h.freshLength⟩

theorem Inv.live_of_busy (h : Inv s) (hp : s.phase ≠ .idle) : Live s :=
  h.live (h.busyLive hp).1 (h.busyLive hp).2

theorem Inv.live_of_screenLife (h : Inv s) (hs : screenLife s = .passes) : Live s := by
  obtain ⟨he, hl⟩ := screenLife_passes.1 hs
  exact h.live ((lifeLegal_iff _).1 hl) he

/-! ## What the invariant adds to `Live` in each phase -/

/-- The buffer holds a whole block and, before a finalization, so does the length (R33, R35). -/
def FullBlock (s : State) : Prop := s.blockIndex.toNat = 64 ∧ (s.fin = .none → s.bitLength.toNat / 8 % 64 = 0)

/-- The clauses of the invariant about the current phase of a live state. -/
def PhaseInv (s : State) : Prop :=
  match s.phase with
  | .idle => s.fin = .none ∧ s.blockIndex.toNat = s.bitLength.toNat / 8 % 64
  | .load => FullBlock s
  | .round => FullBlock s ∧ s.t.toNat ≤ 79
  | .accum => FullBlock s ∧ s.t.toNat = 79
  | .zfill => s.blockIndex.toNat ≤ 64 ∧ s.fin = .pad
  | .len => s.blockIndex.toNat = 56 ∧ s.fin = .pad
  | .clear => s.blockIndex.toNat = 0 ∧ s.fin = .last

theorem Inv.fullBlock (h : Inv s) (hc : Compressing s) : FullBlock s := ⟨h.fullIndex hc, h.fullLength hc⟩

theorem Live.inv (h : Live s) (hphase : PhaseInv s) : Inv s := by
  have hnf := h.not_finalized
  obtain ⟨hw, hl, he, h8, hfresh⟩ := h
  unfold PhaseInv FullBlock at hphase
  cases hp : s.phase <;> rw [hp] at hphase
  case idle =>
    have hi : s.blockIndex.toNat ≤ 63 := by omega
    constructor <;> simp_all [Compressing]
  all_goals constructor <;> simp_all [Compressing]

/-! ## Every instruction keeps it in the phase in which it runs -/

/-- INPUT (R85): index and length advance together, so the byte that fills the block makes the length a whole number of blocks. -/
theorem Inv.after_absorb (h : Inv s) (b : Byte) (hp : s.phase = .idle) (hs : screenInput s = .passes) (hi : s.blockIndex.toNat < 64)
    (hl : s.bitLength.toNat + 8 < 2 ^ 64) : Inv { s with
      buf := s.buf.write8 s.blockIndex.toNat b, blockIndex := s.blockIndex + 1#7, bitLength := s.bitLength + 8#64, life := .absorbing,
      phase := if s.blockIndex + 1#7 = 64#7 then .load else s.phase } := by
  obtain ⟨he, hlegal, -⟩ := screenInput_passes.1 hs
  have hlive := h.live ((lifeLegal_iff _).1 hlegal) he
  have hindex := h.index hlive.life hp
  have h8 := hlive.wholeBytes
  have hw := Memory.wf_write b hlive.canonical hi
  have hi' : (s.blockIndex + 1#7).toNat = s.blockIndex.toNat + 1 := BitVec.toNat_add_of_lt (show s.blockIndex.toNat + 1 < 128 by omega)
  have hl' : (s.bitLength + 8#64).toNat = s.bitLength.toNat + 8 := BitVec.toNat_add_of_lt hl
  have h8' : (s.bitLength + 8#64).toNat % 8 = 0 := by omega
  by_cases hfull : s.blockIndex + 1#7 = 64#7
  · have h64 : (s.blockIndex + 1#7).toNat = 64 := congrArg BitVec.toNat hfull
    have hblocks : (s.bitLength + 8#64).toNat / 8 % 64 = 0 := by omega
    rw [if_pos hfull]
    exact Live.inv ⟨hw, .inr rfl, he, h8', nofun⟩ ⟨h64, fun _ => hblocks⟩
  · have hne : (s.blockIndex + 1#7).toNat ≠ 64 := fun e => hfull (BitVec.eq_of_toNat_eq e)
    have hindex' : (s.blockIndex + 1#7).toNat = (s.bitLength + 8#64).toNat / 8 % 64 := by omega
    rw [if_neg hfull]
    refine Live.inv ⟨hw, .inr rfl, he, h8', nofun⟩ ?_
    rw [PhaseInv, hp]
    exact ⟨h.idleFin hp, hindex'⟩

/-- RESULT (R116) does not count the terminator. -/
theorem Inv.after_startFinalization (h : Inv s) (hs : screenLife s = .passes) (hi : s.blockIndex.toNat < 64) : Inv { s with
      buf := s.buf.write8 s.blockIndex.toNat padByte, blockIndex := s.blockIndex + 1#7, fin := .pad, phase := .zfill } := by
  obtain ⟨hw, hlife, he, h8, hfresh⟩ := h.live_of_screenLife hs
  have hi' : (s.blockIndex + 1#7).toNat ≤ 64 := (BitVec.toNat_add_of_lt (y := 1#7) (show s.blockIndex.toNat + 1 < 128 by omega)).trans_le hi
  exact Live.inv ⟨Memory.wf_write _ hw hi, hlife, he, h8, hfresh⟩ ⟨hi', rfl⟩

theorem Inv.after_load (h : Inv s) (hp : s.phase = .load) :
    Inv { s with W := packBlock s.buf s.W, work := workOf s.H, t := 0#7, phase := .round } := by
  obtain ⟨hw, hlife, he, h8, hfresh⟩ := h.live_of_busy (by simp [hp])
  exact Live.inv ⟨hw, hlife, he, h8, hfresh⟩ ⟨h.fullBlock (.inl hp), Nat.zero_le _⟩

/-- ROUND (R106): `t` stays below 80, and ACCUM follows only at 79. -/
theorem Inv.after_round (h : Inv s) (hp : s.phase = .round) (f : Word → Word → Word → Word) (K : Word) {n : Fin 80}
    (hn : s.t.toNat = n.val) : Inv (roundAt f K n s) := by
  have hlive : Live (roundAt f K n s) := by
    obtain ⟨hw, hlife, he, h8, hfresh⟩ := h.live_of_busy (by simp [hp])
    constructor <;> simpa
  have hfull : FullBlock (roundAt f K n s) := by simpa [FullBlock] using h.fullBlock (.inr (.inl hp))
  refine hlive.inv ?_
  by_cases hlast : n.val = 79
  · have ht' : (roundAt f K n s).t.toNat = 79 := by simp [hlast, hn]
    rw [PhaseInv, roundAt_phase, if_pos hlast]
    exact ⟨hfull, ht'⟩
  · have ht' : (roundAt f K n s).t.toNat ≤ 79 := by
      rw [roundAt_t, if_neg hlast, BitVec.toNat_add_of_lt (show s.t.toNat + 1 < 128 by omega)]
      show s.t.toNat + 1 ≤ 79
      omega
    rw [PhaseInv, roundAt_phase, if_neg hlast, hp]
    exact ⟨hfull, ht'⟩

/-- ACCUM (R107) empties the buffer and goes on by `fin`. -/
theorem Inv.after_accum (h : Inv s) (hp : s.phase = .accum) :
    Inv { s with H := accumulate s.H s.work, blockIndex := 0#7, phase := afterAccum s.fin } := by
  obtain ⟨hw, hlife, he, h8, hfresh⟩ := h.live_of_busy (by simp [hp])
  have hlength := h.fullLength (.inr (.inr hp))
  cases hf : s.fin with
  | none => exact Live.inv ⟨hw, hlife, he, h8, hfresh⟩ ⟨rfl, (hlength hf).symm⟩
  | pad => exact Live.inv ⟨hw, hlife, he, h8, hfresh⟩ ⟨Nat.zero_le _, rfl⟩
  | last => exact Live.inv ⟨hw, hlife, he, h8, hfresh⟩ ⟨rfl, rfl⟩

/-- ZFILL without room for the trailer (R118): the extra block, `fin` still PAD. -/
theorem Inv.after_zfillFull (h : Inv s) (hp : s.phase = .zfill) :
    Inv { s with buf := s.buf.zeroFill s.blockIndex.toNat 64, blockIndex := 64#7, phase := .load } := by
  obtain ⟨hw, hlife, he, h8, hfresh⟩ := h.live_of_busy (by simp [hp])
  obtain ⟨-, hpad⟩ := h.zfill hp
  exact Live.inv ⟨Memory.wf_zeroFill hw (by decide), hlife, he, h8, hfresh⟩ ⟨rfl, by simp [hpad]⟩

theorem Inv.after_zfillTrailer (h : Inv s) (hp : s.phase = .zfill) :
    Inv { s with buf := s.buf.zeroFill s.blockIndex.toNat 56, blockIndex := 56#7, phase := .len } := by
  obtain ⟨hw, hlife, he, h8, hfresh⟩ := h.live_of_busy (by simp [hp])
  exact Live.inv ⟨Memory.wf_zeroFill hw (by decide), hlife, he, h8, hfresh⟩ ⟨rfl, (h.zfill hp).2⟩

theorem Inv.after_len (h : Inv s) (hp : s.phase = .len) :
    Inv { s with buf := s.buf.write64 56 s.bitLength, blockIndex := 64#7, fin := .last, phase := .load } := by
  obtain ⟨hw, hlife, he, h8, hfresh⟩ := h.live_of_busy (by simp [hp])
  exact Live.inv ⟨Memory.wf_write64 _ hw (by decide), hlife, he, h8, hfresh⟩ ⟨rfl, nofun⟩

/-- CLEAR (R122) leaves a finalized engine with nothing counted and nothing stored. -/
theorem Inv.after_clear (h : Inv s) : Inv { s with
      buf := s.buf.zeroFill 0 64, bitLength := 0#64, blockIndex := 0#7, life := .finalized, fin := .none, phase := .idle } := by
  have hw : (s.buf.zeroFill 0 64).wf = true := Memory.wf_zeroFill h.canonical (by decide)
  constructor <;> simp [Compressing, hw]

/-- An instruction that runs in the phase of a state with the invariant keeps it. -/
theorem Inv.execEffect {i : Instr} {t : State} (h : Inv s) (hr : runPhase i = some s.phase) (he : ExecEffect s i t) : Inv t := by
  cases he with
  | busy | nop | inputRefused | resultRefused => exact h
  | reset hp => exact inv_resetWrites hp h
  | inputRaises _ hp | resultRaises hp => exact inv_raiseError _ hp h
  | inputAbsorbs b hp hs hi hl => exact h.after_absorb b hp hs hi hl
  | resultStarts _ hs hi => exact h.after_startFinalization hs hi
  | load => exact h.after_load (Option.some.inj hr).symm
  | round hround => exact h.after_round (Option.some.inj (hr.symm.trans hround)) _ _ rfl
  | accum => exact h.after_accum (Option.some.inj hr).symm
  | zfillFull => exact h.after_zfillFull (Option.some.inj hr).symm
  | zfillTrailer => exact h.after_zfillTrailer (Option.some.inj hr).symm
  | len => exact h.after_len (Option.some.inj hr).symm
  | clear => exact h.after_clear

end Preservation

/-- Settles O39: by cases over what a step can be. -/
theorem everyStepKeepsTheInvariant : Obligations.EveryStepKeepsTheInvariant := by
  intro s s' h hstep
  have h' : Inv s.afterEdge := inv_withHost h _
  cases stepEffect_of_step hstep with
  | powerOn => exact inv_powerOnStep _
  | nothing => exact h'
  | run hr _ he => exact h'.execEffect hr he

/-- Settles O38: on an idle uninitialized engine the invariant asks for the buffer's form and `fin` = NONE only. -/
theorem invariantHoldsAtReset : Obligations.InvariantHoldsAtReset := by
  unfold Obligations.InvariantHoldsAtReset
  constructor <;> simp [State.reset, Memory.wf_nil, Compressing]

end Sys2Proof.Safety
end

section
/-! How long a busy engine stays busy, and that neither a micro-operation nor a command stops the model in a state with the invariant
(spec/70_reset_and_hazards.md R170, spec/60_exceptions.md R138). -/

namespace Sys2Proof.Safety

open Sys2Proof.Machine

/-- The steps of a finalization that follow the ACCUM of the running compression (R108): none, the last block of 85 steps, or CLEAR. -/
def stepsAfterAccum (f : Finish) : Nat :=
  match f with
  | .none => 0
  | .pad => 85
  | .last => 1

/-- The micro-operations until the engine is ready again (R111, R126). -/
def busySteps (s : State) : Nat :=
  match s.phase with
  | .idle => 0
  | .load => 82 + stepsAfterAccum s.fin
  | .round => 81 - s.t.toNat + stepsAfterAccum s.fin
  | .accum => 1 + stepsAfterAccum s.fin
  | .zfill => if 56 < s.blockIndex.toNat then 168 else 85
  | .len => 84
  | .clear => 1

theorem stepsAfterAccum_le (f : Finish) : stepsAfterAccum f ≤ 85 := by
  cases f <;> decide

theorem busySteps_le_busyBound (s : State) : busySteps s ≤ busyBound := by
  have := stepsAfterAccum_le s.fin
  unfold busySteps busyBound
  cases s.phase with
  | zfill => dsimp only; split <;> omega
  | _ => dsimp only; omega

/-- ACCUM is one step of the count, whatever `fin` says comes after it. -/
theorem busySteps_after_accum {s : State} (hp : s.phase = .accum) :
    busySteps { s with H := accumulate s.H s.work, blockIndex := 0#7, phase := afterAccum s.fin } + 1 = busySteps s := by
  cases hf : s.fin <;> simp [busySteps, hp, hf, afterAccum, stepsAfterAccum]

theorem busySteps_after_round {s : State} (hp : s.phase = .round) (f : Word → Word → Word → Word) (K : Word) {n : Fin 80}
    (hn : s.t.toNat = n.val) : busySteps (roundAt f K n s) + 1 = busySteps s := by
  by_cases hlast : n.val = 79
  · simp [busySteps, hp, hn, hlast]
    omega
  · have ht : (s.t + 1#7).toNat = n.val + 1 := by
      rw [BitVec.toNat_add_of_lt (show s.t.toNat + 1 < 128 by omega), hn]; rfl
    simp only [busySteps, roundAt_phase, roundAt_t, roundAt_fin, if_neg hlast, hp, ht]
    omega

/-- A busy engine goes on to its next micro-operation, keeps the invariant and comes one step nearer to IDLE. -/
theorem microStep_progress {s : State} (h : Inv s) (hp : s.phase ≠ .idle) :
    ∃ t, microStep s = .next t ∧ Inv t ∧ busySteps t + 1 = busySteps s := by
  cases hphase : s.phase with
  | idle => exact absurd hphase hp
  | load => exact ⟨_, by rw [microStep, hphase]; exact exec_load s, h.after_load hphase, by simp [busySteps, hphase]; omega⟩
  | round =>
    have ht : s.t.toNat < 80 := Nat.lt_succ_of_le (h.roundIndex hphase)
    exact ⟨_, microStep_round hphase ht, h.after_round hphase _ _ rfl, busySteps_after_round hphase _ _ rfl⟩
  | accum => exact ⟨_, by rw [microStep, hphase]; exact exec_accum s, h.after_accum hphase, busySteps_after_accum hphase⟩
  | zfill =>
    obtain ⟨-, hpad⟩ := h.zfill hphase
    by_cases hfull : 56 < s.blockIndex.toNat
    · exact ⟨_, microStep_zfill_full hphase hfull, h.after_zfillFull hphase, by simp [busySteps, hphase, hfull, hpad, stepsAfterAccum]⟩
    · exact ⟨_, microStep_zfill_trailer hphase (Nat.not_lt.1 hfull), h.after_zfillTrailer hphase, by simp [busySteps, hphase, hfull]⟩
  | len => exact ⟨_, microStep_len hphase, h.after_len hphase, by simp [busySteps, hphase, stepsAfterAccum]⟩
  | clear => exact ⟨_, by rw [microStep, hphase]; rfl, h.after_clear, by simp [busySteps, hphase]⟩

/-- A screened command goes on when its accept step does. -/
theorem screened_progress {s : State} {d : Screening} {run : State → Answer} (hrun : d = .passes → ∃ t, run s = .next t) :
    ∃ t, screened s d run = .next t := by
  cases d with
  | silent => exact ⟨s, rfl⟩
  | raises e => exact ⟨raiseError s e, rfl⟩
  | passes => exact hrun rfl

/-- An idle engine that no test refuses has room in its buffer for one more byte (R33). -/
theorem index_room {s : State} (h : Inv s) (hp : s.phase = .idle) (hs : screenLife s = .passes) : s.blockIndex.toNat < 64 := by
  have hu : s.life ≠ .uninitialized := by
    rcases (h.live_of_screenLife hs).life with hl | hl <;> simp [hl]
  exact Nat.lt_succ_of_le (h.idleIndex hu hp)

/-- An idle engine accepts any command without a fault, and keeps the invariant. -/
theorem command_progress {s : State} {i : Instr} (h : Inv s) (hp : s.phase = .idle) (hc : i.isCommand = true) :
    ∃ t, exec i s = .next t ∧ Inv t := by
  have hnext : ∃ t, exec i s = .next t := by
    cases i with
    | nop => exact ⟨s, exec_nop s⟩
    | reset => exact ⟨_, exec_reset hp⟩
    | input b =>
      rw [exec_input b hp]
      refine screened_progress fun hs => ?_
      obtain ⟨he, hl, -⟩ := screenInput_passes.1 hs
      exact ⟨_, absorb_next b (index_room h hp (screenLife_passes.2 ⟨he, hl⟩)) (length_room h hs)⟩
    | result =>
      rw [exec_result hp]
      exact screened_progress fun hs => ⟨_, startFinalization_next (index_room h hp hs)⟩
    | _ => exact absurd hc Bool.false_ne_true
  obtain ⟨t, ht⟩ := hnext
  exact ⟨t, ht, h.execEffect ((runPhase_of_isCommand hc).trans (congrArg some hp.symm)) (execEffect_command hc ht)⟩

end Sys2Proof.Safety
end

section
/-! The port against the commands (spec/30_encoding.md R60, R66, R75): a host that keeps its words presented drives the engine through the
composition of its commands, whatever command-free edges stand between them. -/

namespace Sys2Proof.Machine

open Sys2Proof.Safety

/-- The host keeps every word presented until it is accepted, and the edges between are command-free. -/
def KeepsWords (host : List HostEvent) : Prop := ∀ e ∈ host, e = .quiet ∨ ∃ w, e = .present w

theorem KeepsWords.suffix {host rest : List HostEvent} (h : KeepsWords host) (hs : rest <:+ host) : KeepsWords rest :=
  fun e he => h e (hs.subset he)

theorem KeepsWords.rst_low {s : State} (h : KeepsWords s.host) : s.edge.rst = false := by
  cases hrst : s.edge.rst with
  | false => rfl
  | true =>
    obtain ⟨rest, hh⟩ := edge_rst_eq_true hrst
    simpa using h .powerOn (by simp [hh])

theorem hostAfter_suffix (ready : Bool) (host : List HostEvent) : hostAfter ready host <:+ host := by
  cases host with
  | nil => exact List.suffix_rfl
  | cons e rest =>
    cases e with
    | present w => cases ready <;> simp
    | _ => exact List.suffix_cons _ rest

/-- A busy engine consumes no word (R66 case c). -/
theorem presentedWords_hostAfter_busy (host : List HostEvent) : presentedWords (hostAfter false host) = presentedWords host := by
  cases host with
  | nil => rfl
  | cons e rest => cases e <;> rfl

/-- The step of a busy engine without `rst`: its micro-operation, and the host goes on. -/
theorem step_busy {s : State} (hrst : s.edge.rst = false) (hp : s.phase ≠ .idle) :
    step s = withHost (hostAfter false s.host) (microStep s) := by
  have hready : s.cmdReady = false := by simp [State.cmdReady, hp]
  rw [step_of_busy hrst hp, State.afterEdge, hready]
  exact blind_microStep s _

theorem step_idle_quiet {s : State} {rest : List HostEvent} (hp : s.phase = .idle) (hh : s.host = .quiet :: rest) :
    step s = .next { s with host := rest } := by
  simp [step, selected, State.edge, State.afterEdge, hp, hh]

theorem step_idle_present {s : State} {w : CmdWord} {rest : List HostEvent} (hp : s.phase = .idle) (hh : s.host = .present w :: rest) :
    step s = exec (decodeCmd w) { s with host := rest } := by
  simp [step, selected, State.edge, State.afterEdge, State.cmdReady, hp, hh]

/-- `u` is the idle state in which a busy period of `s` ends on the port: the host has used up command-free edges only, and the registers are
what the micro-operations alone leave within `n` steps. -/
structure EndsBusyPeriod (n : Nat) (s u : State) : Prop where
  idle : u.phase = .idle
  inv : Inv u
  suffix : u.host <:+ s.host
  words : presentedWords u.host = presentedWords s.host
  registers : runBusy n s = .next { u with host := s.host }

theorem EndsBusyPeriod.of_idle {s : State} (hp : s.phase = .idle) (h : Inv s) (n : Nat) : EndsBusyPeriod n s s :=
  ⟨hp, h, List.suffix_rfl, rfl, runBusy_idle n hp⟩

/-- A micro-operation in front of a busy period. -/
theorem EndsBusyPeriod.microStep {n : Nat} {s t u : State} (hp : s.phase ≠ .idle) (ht : microStep s = .next t)
    (h : EndsBusyPeriod n { t with host := hostAfter false s.host } u) : EndsBusyPeriod (n + 1) s u where
  idle := h.idle
  inv := h.inv
  suffix := h.suffix.trans (hostAfter_suffix false s.host)
  words := h.words.trans (presentedWords_hostAfter_busy s.host)
  registers := by
    have hhost : t.host = s.host := host_of_blind blind_microStep ht
    have hblind := blind_runBusy n { t with host := hostAfter false s.host } t.host
    rw [h.registers, withHost_next] at hblind
    rw [runBusy_busy n hp, ht, andThen_next, ← hhost]
    exact hblind

/-- Every busy period ends on the port, whatever words the host keeps presented during it: induction on the bound of its length. -/
theorem exists_endsBusyPeriod {n : Nat} {s : State} (h : Inv s) (hkeeps : KeepsWords s.host) (hn : busySteps s ≤ n) :
    ∃ k u, stepN k s = .next u ∧ EndsBusyPeriod n s u := by
  induction n generalizing s with
  | zero =>
    by_cases hp : s.phase = .idle
    · exact ⟨0, s, rfl, .of_idle hp h 0⟩
    · obtain ⟨t, -, -, hless⟩ := microStep_progress h hp
      omega
  | succ n ih =>
    by_cases hp : s.phase = .idle
    · exact ⟨0, s, rfl, .of_idle hp h (n + 1)⟩
    · obtain ⟨t, ht, hinv, hless⟩ := microStep_progress h hp
      have hle : busySteps t ≤ n := by omega
      obtain ⟨k, u, hk, hu⟩ := ih (inv_withHost hinv (hostAfter false s.host)) (hkeeps.suffix (hostAfter_suffix false s.host)) hle
      refine ⟨k + 1, u, ?_, hu.microStep hp ht⟩
      rw [stepN_succ, step_busy hkeeps.rst_low hp, ht]
      exact hk

/-- Issuing a word to an engine whose host does nothing: its command, then the busy period that the port ends in `u`. -/
theorem issue_of_endsBusyPeriod {s t u : State} {w : CmdWord} (hp : s.phase = .idle) (ht : exec (decodeCmd w) s = .next t)
    (h : EndsBusyPeriod busyBound t u) :
    issue (exec (decodeCmd w)) { s with host := [] } = .next { u with host := [] } := by
  have hissue : issue (exec (decodeCmd w)) s = .next { u with host := t.host } := by
    rw [issue_idle _ hp, ht, andThen_next, h.registers]
  rw [blind_issue (blind_command (isCommand_decodeCmd w)) s [], hissue, withHost_next]

/-- The run on the port uses up the host's list and ends in the idle state that the listed words, issued one after the other, give. -/
def RunsOnThePort (s : State) : Prop :=
  ∃ n t, stepN n s = .next t ∧ t.phase = .idle ∧ t.host = [] ∧ issueWords (presentedWords s.host) { s with host := [] } = .next t

theorem runsOnThePort_nil {s : State} (hp : s.phase = .idle) (hh : s.host = []) : RunsOnThePort s := by
  have hs : ({ s with host := [] } : State) = s := by rw [← hh]
  refine ⟨0, s, rfl, hp, hh, ?_⟩
  rw [hh, hs]
  rfl

theorem RunsOnThePort.quiet {s : State} {rest : List HostEvent} (hp : s.phase = .idle) (hh : s.host = .quiet :: rest)
    (h : RunsOnThePort { s with host := rest }) : RunsOnThePort s := by
  obtain ⟨n, t, hn, hidle, hempty, hwords⟩ := h
  refine ⟨n + 1, t, ?_, hidle, hempty, ?_⟩
  · rw [stepN_succ, step_idle_quiet hp hh]
    exact hn
  · rw [hh]
    exact hwords

/-- A word is accepted at once; after its busy period the host still has the later words to present. -/
theorem RunsOnThePort.present {s t u : State} {w : CmdWord} {rest : List HostEvent} {k : Nat} (hp : s.phase = .idle)
    (hh : s.host = .present w :: rest) (ht : exec (decodeCmd w) { s with host := rest } = .next t) (hk : stepN k t = .next u)
    (hu : EndsBusyPeriod busyBound t u) (h : RunsOnThePort u) : RunsOnThePort s := by
  obtain ⟨n, v, hn, hidle, hempty, hwords⟩ := h
  have hthost : t.host = rest := host_of_blind (blind_command (isCommand_decodeCmd w)) ht
  have hissue := issue_of_endsBusyPeriod (s := { s with host := rest }) hp ht hu
  refine ⟨1 + (k + n), v, ?_, hidle, hempty, ?_⟩
  · rw [stepN_add, stepN_succ, step_idle_present hp hh, ht, andThen_next, stepN_zero, andThen_next, stepN_add, hk]
    exact hn
  · rw [hu.words, hthost] at hwords
    rw [hh, presentedWords, issueWords]
    exact (congrArg (andThen · _) hissue).trans hwords

/-- Settles O52: induction on the length of the host's list. A command-free edge shortens it, and so does a word, whose busy period ends with a
list that presents the same later words. -/
theorem portRunsTheCommandSequence : Obligations.PortRunsTheCommandSequence := by
  rintro s _ h hp rfl hkeeps
  change RunsOnThePort s
  induction hlen : s.host.length using Nat.strong_induction_on generalizing s with
  | _ len ih =>
    cases hh : s.host with
    | nil => exact runsOnThePort_nil hp hh
    | cons e rest =>
      have hrest : KeepsWords rest := KeepsWords.suffix hkeeps (by simp [hh])
      have hshorter : rest.length < len := by simp [← hlen, hh]
      have hinv : Inv { s with host := rest } := inv_withHost h rest
      rcases hkeeps e (by simp [hh]) with rfl | ⟨w, rfl⟩
      · exact .quiet hp hh (ih _ hshorter _ hinv hp hrest rfl)
      · obtain ⟨t, ht, hinvt⟩ := command_progress hinv hp (isCommand_decodeCmd w)
        have hthost : t.host = rest := host_of_blind (blind_command (isCommand_decodeCmd w)) ht
        obtain ⟨k, u, hk, hu⟩ := exists_endsBusyPeriod hinvt (hthost ▸ hrest) (busySteps_le_busyBound t)
        have hsuffix : u.host <:+ rest := hthost ▸ hu.suffix
        exact .present hp hh ht hk hu (ih _ (hsuffix.length_le.trans_lt hshorter) u hu.inv hu.idle (hrest.suffix hsuffix) rfl)

end Sys2Proof.Machine
end

section
/-! The packer and the unpackers between bytes and words (spec/20_memory.md R49 to R53). -/

namespace Sys2Proof.Machine

/-- Appending a byte at the low end of a vector, as numbers. -/
theorem toNat_append_byte {w : Nat} (x : BitVec w) (b : Byte) : (x ++ b).toNat = x.toNat * 2 ^ 8 + b.toNat := by
  rw [BitVec.toNat_append, ← Nat.shiftLeft_add_eq_or_of_lt b.isLt, Nat.shiftLeft_eq]

theorem toNat_pack32 (b0 b1 b2 b3 : Byte) :
    (pack32 b0 b1 b2 b3).toNat = b0.toNat * 2 ^ 24 + b1.toNat * 2 ^ 16 + b2.toNat * 2 ^ 8 + b3.toNat := by
  simp only [pack32, toNat_append_byte]
  omega

/-- Unpacking takes a packed word apart again (R49, R52). -/
theorem unpack32_pack32 (b0 b1 b2 b3 : Byte) (k : Fin 4) : unpack32 (pack32 b0 b1 b2 b3) k = #v[b0, b1, b2, b3][k] := by
  apply BitVec.eq_of_toNat_eq
  rw [toNat_unpack32, toNat_pack32, Nat.shiftRight_eq_div_pow]
  match k with
  | 0 | 1 | 2 | 3 => dsimp; omega

/-- Settles O10: packing by the weights of its bytes, unpacking by its inverse and by the shift formula. -/
theorem packerAndUnpackerAreBigEndian : Obligations.PackerAndUnpackerAreBigEndian := by
  refine ⟨fun b0 b1 b2 b3 => ?_, toNat_unpack32, fun H i => ?_, fun _ _ => rfl⟩
  · have hunpack := unpack32_pack32 b0 b1 b2 b3
    exact ⟨toNat_pack32 b0 b1 b2 b3, hunpack 0, hunpack 0, hunpack 1, hunpack 2, hunpack 3⟩
  · rw [digestBytes_getElem, toNat_unpack32]

/-- Byte `k` of the length counted from the most significant (R53), as a number. -/
theorem toNat_unpack64 (L : BitLength) (k : Fin 8) : (unpack64 L k).toNat = (L.toNat >>> (8 * (7 - k.val))) % 256 := by
  have hshift : 56 - 8 * k.val = 8 * (7 - k.val) := by omega
  rw [unpack64, BitVec.extractLsb'_toNat, hshift]

/-- Four adjacent bytes of a vector, the highest first, pack to the word they stand in. -/
theorem pack32_extractLsb' {w : Nat} (x : BitVec w) (i : Nat) :
    pack32 (x.extractLsb' (i + 24) 8) (x.extractLsb' (i + 16) 8) (x.extractLsb' (i + 8) 8) (x.extractLsb' i 8) = x.extractLsb' i 32 := by
  simp only [pack32, BitVec.extractLsb'_append_extractLsb'_eq_extractLsb' (x := x) (show i + 24 = i + 16 + 8 from rfl),
    BitVec.extractLsb'_append_extractLsb'_eq_extractLsb' (x := x) (show i + 16 = i + 8 + 8 from rfl),
    BitVec.extractLsb'_append_extractLsb'_eq_extractLsb' (x := x) (show i + 8 = i + 8 from rfl)]

namespace Memory

variable {m : Memory} {k : Nat}

/-- The first word after `MemWrite(k, 8, v)` is the high half of `v` (R53). -/
theorem read32_write64_high (v : BitLength) (h : m.wf = true) (hk : k + 8 ≤ 64) :
    (m.write64 k v).read32 k = v.extractLsb' 32 32 := by
  have hbyte (i : Fin 8) := read_write64 v i h hk
  calc (m.write64 k v).read32 k
      = pack32 (unpack64 v 0) (unpack64 v 1) (unpack64 v 2) (unpack64 v 3) := by
        rw [← hbyte 0, ← hbyte 1, ← hbyte 2, ← hbyte 3]; rfl
    _ = v.extractLsb' 32 32 := pack32_extractLsb' v 32

/-- And the word behind it the low half. -/
theorem read32_write64_low (v : BitLength) (h : m.wf = true) (hk : k + 8 ≤ 64) :
    (m.write64 k v).read32 (k + 4) = v.extractLsb' 0 32 := by
  have hbyte (i : Fin 8) := read_write64 v i h hk
  calc (m.write64 k v).read32 (k + 4)
      = pack32 (unpack64 v 4) (unpack64 v 5) (unpack64 v 6) (unpack64 v 7) := by
        rw [← hbyte 4, ← hbyte 5, ← hbyte 6, ← hbyte 7]; rfl
    _ = v.extractLsb' 0 32 := pack32_extractLsb' v 0

/-- `MemRead(k, 8)` after `MemWrite(k, 8, v)` (R50, R51). -/
theorem read64_write64 (v : BitLength) (h : m.wf = true) (hk : k + 8 ≤ 64) : (m.write64 k v).read64 k = v := by
  rw [read64, read32_write64_high v h hk, read32_write64_low v h hk,
    BitVec.extractLsb'_append_extractLsb'_eq_extractLsb' (show 32 = 0 + 32 from rfl)]
  exact BitVec.extractLsb'_eq_self

end Memory

/-- Settles O11: LOAD packs words 14 and 15 from the two words that LEN wrote. -/
theorem trailerBecomesTheLastTwoWords : Obligations.TrailerBecomesTheLastTwoWords := by
  intro s h
  refine ⟨toNat_unpack64 s.bitLength, _, _, exec_len s, exec_load _, ?high, ?low, Memory.read64_write64 s.bitLength h (by decide)⟩
  case high => exact (packBlock_direct _ _ (by decide)).trans (Memory.read32_write64_high s.bitLength h (by decide))
  case low => exact (packBlock_direct _ _ (by decide)).trans (Memory.read32_write64_low s.bitLength h (by decide))

end Sys2Proof.Machine
end

section
/-! Decoding and encoding (spec/30_encoding.md R67 to R72, R76, R77): a command word is its `op` field above its `data` field, and the codes of
an instruction decode to what it expands to. -/

namespace Sys2Proof.Machine

/-! ## Command words (R67 to R71) -/

/-- The two fields make up the whole word (R67). -/
theorem opField_append_dataField (w : CmdWord) : opField w ++ dataField w = w := by
  rw [opField, dataField, BitVec.extractLsb'_append_extractLsb'_eq_extractLsb' (show 8 = 0 + 8 from rfl)]
  exact BitVec.extractLsb'_eq_self

@[simp] theorem opField_append (op : BitVec 2) (b : Byte) : opField (op ++ b) = op := BitVec.extractLsb'_append_eq_left

@[simp] theorem dataField_append (op : BitVec 2) (b : Byte) : dataField (op ++ b) = b := BitVec.extractLsb'_append_eq_right

/-- The two ways the encoder's INPUT word is written: 0x200 plus the byte, and the byte below `op` = 0b10 (R68, R71). -/
theorem inputWord_eq_append (b : Byte) : 0x200#10 + b.setWidth 10 = 0b10#2 ++ b := by
  apply BitVec.eq_of_toNat_eq
  rw [toNat_append_byte, BitVec.toNat_add, BitVec.toNat_setWidth, BitVec.toNat_ofNat, BitVec.toNat_ofNat]
  omega

theorem encodeCmd_input (b : Byte) : encodeCmd (.input b) = some (0b10#2 ++ b) := congrArg some (inputWord_eq_append b)

theorem decodeCmd_nop {w : CmdWord} (h : opField w = 0b00#2) : decodeCmd w = .nop := by simp [decodeCmd, h]

theorem decodeCmd_reset {w : CmdWord} (h : opField w = 0b01#2) : decodeCmd w = .reset := by simp [decodeCmd, h]

theorem decodeCmd_input {w : CmdWord} (h : opField w = 0b10#2) : decodeCmd w = .input (dataField w) := by simp [decodeCmd, h]

theorem decodeCmd_result {w : CmdWord} (h : opField w = 0b11#2) : decodeCmd w = .result := by simp [decodeCmd, h]

/-- `Decode(Encode(c)) = c` (R71). -/
theorem exists_encodeCmd {i : Instr} (hc : i.isCommand = true) : ∃ w, encodeCmd i = some w ∧ decodeCmd w = i := by
  cases i with
  | nop => exact ⟨_, rfl, decodeCmd_nop (by decide)⟩
  | reset => exact ⟨_, rfl, decodeCmd_reset (by decide)⟩
  | input b => exact ⟨_, encodeCmd_input b, by rw [decodeCmd_input (opField_append _ b), dataField_append]⟩
  | result => exact ⟨_, rfl, decodeCmd_result (by decide)⟩
  | _ => exact absurd hc Bool.false_ne_true

/-- `Encode(Decode(w))` keeps the `op` field, and the `data` field of an INPUT only (R70, R71). -/
theorem encodeCmd_decodeCmd (w : CmdWord) :
    encodeCmd (decodeCmd w) = some (opField w ++ if opField w = 0b10#2 then dataField w else 0x00#8) := by
  have hops : ∀ op : BitVec 2, op = 0b00#2 ∨ op = 0b01#2 ∨ op = 0b10#2 ∨ op = 0b11#2 := by decide
  rcases hops (opField w) with h | h | h | h
  · rw [decodeCmd_nop h, h, if_neg (by decide)]; rfl
  · rw [decodeCmd_reset h, h, if_neg (by decide)]; rfl
  · rw [decodeCmd_input h, encodeCmd_input, h, if_pos rfl]
  · rw [decodeCmd_result h, h, if_neg (by decide)]; rfl

/-- The words that are canonical (R71). -/
theorem encodeCmd_decodeCmd_eq_iff (w : CmdWord) :
    encodeCmd (decodeCmd w) = some w ↔ opField w = 0b10#2 ∨ dataField w = 0x00#8 := by
  rw [encodeCmd_decodeCmd, Option.some_inj]
  conv => lhs; rhs; rw [← opField_append_dataField w]
  rw [BitVec.append_right_inj]
  by_cases hop : opField w = 0b10#2
  · simp [hop]
  · simp [hop, eq_comm]

/-- Settles O1: by the fields of the word, and command by command. -/
theorem commandWordsDecodeAndEncode : Obligations.CommandWordsDecodeAndEncode := by
  refine ⟨fun w => ⟨decodeCmd_nop, decodeCmd_reset, decodeCmd_input, decodeCmd_result⟩, ⟨rfl, rfl, rfl, fun b => ?_⟩,
    fun i => exists_encodeCmd, encodeCmd_decodeCmd_eq_iff⟩
  rw [BitVec.ofNat_add, BitVec.ofNat_toNat]
  rfl

/-! ## Micro-operations (R72) -/

theorem decodeMicro_round (t : RoundIndex) : decodeMicro 2#3 t = decodeRound t := rfl

theorem decodeRound_roundCh {t : RoundIndex} (h : t.toNat < 20) : decodeRound t = .ok .roundCh := if_pos h

theorem decodeRound_roundPar1 {t : RoundIndex} (h : 20 ≤ t.toNat) (h' : t.toNat < 40) : decodeRound t = .ok .roundPar1 := by
  rw [decodeRound, if_neg (by omega), if_pos h']

theorem decodeRound_roundMaj {t : RoundIndex} (h : 40 ≤ t.toNat) (h' : t.toNat < 60) : decodeRound t = .ok .roundMaj := by
  rw [decodeRound, if_neg (by omega), if_neg (by omega), if_pos h']

theorem decodeRound_roundPar2 {t : RoundIndex} (h : 60 ≤ t.toNat) (h' : t.toNat < 80) : decodeRound t = .ok .roundPar2 := by
  rw [decodeRound, if_neg (by omega), if_neg (by omega), if_neg (by omega), if_pos h']

theorem decodeRound_beyond {t : RoundIndex} (h : 80 ≤ t.toNat) : decodeRound t = .error (.roundIndex t) := by
  rw [decodeRound, if_neg (by omega), if_neg (by omega), if_neg (by omega), if_neg (by omega)]

/-- Settles O2: each word by evaluation. -/
theorem sampleCodesDecode : Obligations.SampleCodesDecode := by
  unfold Obligations.SampleCodesDecode
  decide

/-- Settles O3: each phase by the decoder's own branch, ROUND by the ranges of `t`. -/
theorem phaseAndIndexSelectTheMicroOperation : Obligations.PhaseAndIndexSelectTheMicroOperation := by
  intro t
  refine ⟨?idle, rfl, ?ch, ?par1, ?maj, ?par2, ?beyond, rfl, rfl, rfl, rfl, ?unused⟩
  case idle => exact fun i h => nomatch h
  case ch => exact fun h => decodeRound_roundCh (by omega)
  case par1 => exact fun h h' => decodeRound_roundPar1 h (by omega)
  case maj => exact fun h h' => decodeRound_roundMaj h (by omega)
  case par2 => exact fun h h' => decodeRound_roundPar2 h (by omega)
  case beyond =>
    intro h i
    rw [decodeMicro_round, decodeRound_beyond h]
    exact fun h => nomatch h
  case unused => exact fun i h => nomatch h

theorem exists_encodeMicro {i : Instr} (hm : i.isMicro = true) : ∃ p t, encodeMicro i = some (p, t) ∧ decodeMicro p t = .ok i := by
  cases i with
  | load | roundCh | roundPar1 | roundMaj | roundPar2 | accum | zfill | len | clear => exact ⟨_, _, rfl, rfl⟩
  | _ => exact absurd hm Bool.false_ne_true

/-! ## Pseudo-commands (R76, R77) and whole instructions -/

theorem encodeMicro_eq_none {i : Instr} (hm : i.isMicro = false) : encodeMicro i = none := by
  cases i with
  | nop | reset | input b | result | inputs bytes | hash bytes => rfl
  | _ => exact absurd hm.symm Bool.false_ne_true

theorem expand_eq_self {i : Instr} (h : i.isCommand = true ∨ i.isMicro = true) : i.expand = [i] := by
  cases i with
  | inputs bytes | hash bytes => simp [Instr.isCommand, Instr.isMicro] at h
  | _ => rfl

/-- What is no micro-operation stands for commands only (R76, R77). -/
theorem isCommand_of_mem_expand {i j : Instr} (hm : i.isMicro = false) (hj : j ∈ i.expand) : j.isCommand = true := by
  cases i with
  | nop | reset | input b | result => rw [List.mem_singleton.1 hj]; rfl
  | inputs bytes =>
    obtain ⟨b, -, rfl⟩ := List.mem_map.1 hj
    rfl
  | hash bytes =>
    simp only [Instr.expand, List.cons_append, List.mem_cons, List.mem_append, List.mem_map, List.not_mem_nil, or_false] at hj
    rcases hj with rfl | ⟨b, -, rfl⟩ | rfl <;> rfl
  | _ => exact absurd hm.symm Bool.false_ne_true

theorem decodeAll_command (ws : List CmdWord) : decodeAll (ws.map .command) = .ok (ws.map decodeCmd) := by
  induction ws with
  | nil => rfl
  | cons w rest ih => rw [List.map_cons, decodeAll, ih]; rfl

/-- Encoding a list of commands and decoding the words gives the list. -/
theorem map_decodeCmd_filterMap_encodeCmd {is : List Instr} (h : ∀ i ∈ is, i.isCommand = true) :
    (is.filterMap encodeCmd).map decodeCmd = is := by
  induction is with
  | nil => rfl
  | cons i rest ih =>
    obtain ⟨hi, hrest⟩ := List.forall_mem_cons.1 h
    obtain ⟨w, hw, hdecode⟩ := exists_encodeCmd hi
    rw [List.filterMap_cons_some hw, List.map_cons, hdecode, ih hrest]

theorem decodeAll_encode (i : Instr) : decodeAll (encode i) = .ok i.expand := by
  cases hm : i.isMicro with
  | true =>
    obtain ⟨p, t, hcode, hdecode⟩ := exists_encodeMicro hm
    rw [expand_eq_self (.inr hm)]
    simp [encode, hcode, decodeAll, decode, hdecode]
  | false =>
    have hwords : encode i = i.words.map .command := by rw [encode, encodeMicro_eq_none hm]
    rw [hwords, decodeAll_command, Instr.words, map_decodeCmd_filterMap_encodeCmd fun _ => isCommand_of_mem_expand hm]

/-- Settles O4: a micro-operation by its selector, every other instruction by the words of its expansion. -/
theorem encodedInstructionsDecodeBack : Obligations.EncodedInstructionsDecodeBack :=
  fun i _ => ⟨decodeAll_encode i, expand_eq_self⟩

theorem words_inputs (bytes : List Byte) : (Instr.inputs bytes).words = bytes.map fun b => 0x200#10 + b.setWidth 10 := by
  rw [Instr.words, Instr.expand, List.filterMap_map]
  exact congrFun List.filterMap_eq_map bytes

theorem words_hash (bytes : List Byte) : (Instr.hash bytes).words = 0x100#10 :: ((Instr.inputs bytes).words ++ [0x300#10]) := by
  simp [Instr.words, Instr.expand, List.filterMap_append, encodeCmd]

/-- Settles O5: the words of INPUTS byte by byte, and those of HASH around them. -/
theorem hashExpandsToItsCommandWords : Obligations.HashExpandsToItsCommandWords := by
  intro bytes
  refine ⟨words_inputs bytes, words_hash bytes, ?_⟩
  simp [words_hash, words_inputs]

end Sys2Proof.Machine
end

section
/-! The digest port (spec/30_encoding.md R65): five words side by side, the first at the top, each with its first byte at the top. -/

namespace Sys2Proof.Machine

/-- The eight bits from bit `i` of word `j` on, where they stand on the port. -/
theorem digestPort_extractLsb' (s : State) (j : Fin 5) {i : Nat} (hi : i + 8 ≤ 32) :
    s.digestPort.extractLsb' (i + 32 * (4 - j.val)) 8 = s.H[j].extractLsb' i 8 := by
  match j with
  | 0 | 1 | 2 | 3 | 4 =>
    simp (disch := omega) only [State.digestPort, BitVec.extractLsb'_append_eq_of_le, BitVec.extractLsb'_append_eq_of_add_le]
    simp

/-- Settles O13: byte `i` of the digest is byte `i mod 4` of word `i div 4` (R52). -/
theorem digestPortCarriesTheDigestBytes : Obligations.DigestPortCarriesTheDigestBytes := by
  intro s i
  have hplace : 152 - 8 * i.val = 24 - 8 * (i.val % 4) + 32 * (4 - i.val / 4) := by omega
  rw [digestBytes_getElem, unpack32, hplace]
  exact digestPort_extractLsb' s ⟨i.val / 4, by omega⟩ (by omega)

end Sys2Proof.Machine
end

section
/-! One step by what is on the ports (spec/30_encoding.md R66, R72; spec/70_reset_and_hazards.md R156), and what it leaves of the host's coming
input. -/

namespace Sys2Proof.Machine

section PortRules

variable {s : State} {rest : List HostEvent}

theorem cmdReady_eq_false (hp : s.phase ≠ .idle) : s.cmdReady = false := decide_eq_false hp

theorem afterEdge_of_idle (hp : s.phase = .idle) : s.afterEdge = { s with host := hostAfter true s.host } := by
  rw [State.afterEdge, (cmdReady_iff s).2 hp]

theorem afterEdge_of_busy (hp : s.phase ≠ .idle) : s.afterEdge = { s with host := hostAfter false s.host } := by
  rw [State.afterEdge, cmdReady_eq_false hp]

/-- Only a power-on event raises `rst`. -/
theorem edge_rst_eq_false (h : ∀ rest, s.host ≠ .powerOn :: rest) : s.edge.rst = false :=
  Bool.eq_false_iff.2 fun hrst => (edge_rst_eq_true hrst).elim h

theorem step_powerOn (hh : s.host = .powerOn :: rest) : step s = .next (powerOnStep { s with host := rest }) := by
  simp [step, selected, State.edge, State.afterEdge, hh]

theorem step_idle_nil (hp : s.phase = .idle) (hh : s.host = []) : step s = .next s := by
  have hafter : s.afterEdge = s := by rw [afterEdge_of_idle hp, hh, hostAfter_nil, ← hh]
  simp [step, selected, State.edge, hafter, hp, hh]

theorem step_idle_offer {w : CmdWord} (hp : s.phase = .idle) (hh : s.host = .offer w :: rest) :
    step s = exec (decodeCmd w) { s with host := rest } := by
  simp [step, selected, State.edge, State.afterEdge, hp, hh]

/-- A busy engine's step is the micro-operation that `phase` and `t` decode to, whatever is on the command port (R66 case c, R72). -/
theorem step_of_decode {i : Instr} (hrst : s.edge.rst = false) (hp : s.phase ≠ .idle) (hd : decodeMicro s.phase.code s.t = .ok i) :
    step s = exec i { s with host := hostAfter false s.host } := by
  rw [step_of_busy hrst hp, ← afterEdge_of_busy hp]
  exact microStep_of_decode hd

theorem roundStep_fault (f : Word → Word → Word → Word) (K : Word) (h : 80 ≤ s.t.toNat) : roundStep f K s = .fault (.roundIndex s.t) :=
  dif_neg (Nat.not_lt.2 h)

/-- A step that goes on takes one edge's input, in order, and nothing else. -/
theorem host_of_step {s' : State} (h : step s = .next s') : s'.host = hostAfter s.cmdReady s.host := by
  cases stepEffect_of_step h with
  | powerOn hh => rfl
  | nothing hp => rfl
  | run hr hh he => exact he.input_unchanged.1

end PortRules

/-- Settles O14: an idle engine by its host's first event, a busy one by `step_of_decode`. -/
theorem stepRunsTheSelectedInstruction : Obligations.StepRunsTheSelectedInstruction := by
  intro s
  refine ⟨fun rest hh => step_powerOn hh, step_idle_nil, fun rest hp hh => step_idle_quiet hp hh, fun w rest hp hh => ?accepted,
    fun i hp hd => ?busy⟩
  case accepted => exact hh.elim (step_idle_present hp) (step_idle_offer hp)
  case busy =>
    have hstep (hh : ∀ rest, s.host ≠ .powerOn :: rest) := step_of_decode (edge_rst_eq_false hh) hp hd
    refine ⟨fun hh => ?_, fun w rest hh => ?_, fun w rest hh => ?_, fun rest hh => ?_⟩ <;>
      rw [hstep (by simp [hh]), hh]
    · rw [hostAfter_nil, ← hh]
    · rw [hostAfter_present_busy, ← hh]
    · rfl
    · rfl

/-- Settles O16: each of the four commands waits for phase IDLE. -/
theorem busyEngineIgnoresCommands : Obligations.BusyEngineIgnoresCommands :=
  fun _ _ hp hc => exec_command_busy hc hp

/-- Settles O29: the four variants are one operation, and the decoder selects none of them for the step. -/
theorem roundBeyondSeventyNineStops : Obligations.RoundBeyondSeventyNineStops := by
  intro s ht
  refine ⟨roundStep_fault fCh k0 ht, roundStep_fault fParity k1 ht, roundStep_fault fMaj k2 ht, roundStep_fault fParity k3 ht,
    fun hp hh => ?_⟩
  have hb : s.phase ≠ .idle := by simp [hp]
  have hd : decodeMicro s.phase.code s.t = .error (.roundIndex s.t) := by rw [hp]; exact decodeRound_beyond ht
  rw [step_of_busy (edge_rst_eq_false hh) hb]
  exact microStep_of_no_decode (s := s.afterEdge) hb hd

/-- Settles O15: by what one edge takes of each list. -/
theorem commandsAreAcceptedOnceAndInOrder : Obligations.CommandsAreAcceptedOnceAndInOrder := by
  intro s s' h
  have hhost := host_of_step h
  refine ⟨fun hh => ?empty, fun w rest hh hp => ?kept, fun w rest hh hp => ?accepted, fun e rest hh he => ?gone⟩ <;> rw [hhost, hh]
  case empty => rfl
  case kept => rw [cmdReady_eq_false hp]; rfl
  case accepted => rw [(cmdReady_iff s).2 hp]; rfl
  case gone =>
    cases e with
    | present w => exact absurd rfl (he w)
    | offer w | quiet | powerOn => rfl

end Sys2Proof.Machine
end

section
/-! INPUTS over a message in parts (spec/30_encoding.md R76, R90, R133). -/

namespace Sys2Proof.Machine

theorem issueInputs_append (m₁ m₂ : List Byte) (s : State) :
    issueInputs (m₁ ++ m₂) s = andThen (issueInputs m₁ s) (issueInputs m₂) := by
  induction m₁ generalizing s with
  | nil => rfl
  | cons b rest ih =>
    rw [List.cons_append, issueInputs_cons, issueInputs_cons, andThen_assoc, funext ih]

/-- Settles O47: INPUTS issues one INPUT after the other, so joining two messages composes their meanings. -/
theorem chunkingDoesNotMatter : Obligations.ChunkingDoesNotMatter :=
  ⟨issueInputs_nil, issueInputs_append⟩

end Sys2Proof.Machine
end

section
/-! NOP and RESET (spec/40_reset.md R80, R83). -/

namespace Sys2Proof.Machine

/-- Settles O19: a NOP word is taken from the list like a command-free edge, and its command answers the same state. -/
theorem nopChangesNothing : Obligations.NopChangesNothing := by
  refine fun s => ⟨exec_nop s, fun w rest hp hop => ?_⟩
  have hnop : step { s with host := .present w :: rest } = .next { s with host := rest } := by
    rw [step_idle_present (s := { s with host := .present w :: rest }) hp rfl, decodeCmd_nop hop, exec_nop]
  have hquiet : step { s with host := .quiet :: rest } = .next { s with host := rest } := step_idle_quiet hp rfl
  exact ⟨hnop, hnop.trans hquiet.symm⟩

/-- Settles O20: on an idle engine RESET answers `resetWrites`, whose fields are the listed ones. -/
theorem resetInitializesTheContext : Obligations.ResetInitializesTheContext := by
  refine ⟨fun s hp => exec_command_busy rfl hp, fun s hp => ⟨resetWrites s, exec_reset hp, ?_⟩⟩
  have hready : (resetWrites s).cmdReady = true := (cmdReady_iff _).2 hp
  exact ⟨rfl, rfl, rfl, rfl, rfl, rfl, rfl, rfl, rfl, hp, rfl, rfl, ⟨rfl, rfl, rfl⟩, ⟨rfl, rfl⟩, rfl, rfl, rfl, hready⟩

end Sys2Proof.Machine
end

section
/-! Leftover register contents are never observed (spec/40_reset.md R82, spec/93_implementation_defined.md U10): buffers that agree on their
valid bytes go on agreeing, the words a busy period leaves are functions of what two alike engines share, and so each command keeps them alike. -/

namespace Sys2Proof.Machine

/-! ## Buffers that agree on their first bytes -/

namespace Memory

/-- The two buffers read the same at every offset below `n`. -/
def AgreeBelow (n : Nat) (m m' : Memory) : Prop := ∀ k, k < n → m.read k = m'.read k

theorem agreeBelow_zero (m m' : Memory) : AgreeBelow 0 m m' := fun _ hk => absurd hk (Nat.not_lt_zero _)

variable {n lo hi : Nat} {m m' : Memory}

/-- The byte stored at the first offset not yet valid makes one more byte valid (R86, R115). -/
theorem AgreeBelow.write8 (h : AgreeBelow n m m') (b : Byte) (hw : m.wf = true) (hw' : m'.wf = true) :
    AgreeBelow (n + 1) (m.write8 n b) (m'.write8 n b) := by
  intro k hk
  by_cases hkn : k = n
  · subst hkn
    exact (read_write_self b hw).trans (read_write_self b hw').symm
  · have hlt : k < n := by omega
    calc (m.write8 n b).read k
        = m.read k := read_write_other m b hkn
      _ = m'.read k := h k hlt
      _ = (m'.write8 n b).read k := (read_write_other m' b hkn).symm

/-- A zero fill from the first offset not yet valid covers the leftovers below its end (R118). -/
theorem AgreeBelow.zeroFill (h : AgreeBelow lo m m') (hhi : hi ≤ 64) (hw : m.wf = true) (hw' : m'.wf = true) :
    AgreeBelow hi (m.zeroFill lo hi) (m'.zeroFill lo hi) := by
  intro k hk
  rw [read_zeroFill k hw hhi, read_zeroFill k hw' hhi]
  by_cases hlo : lo ≤ k
  · rw [if_pos ⟨hlo, hk⟩, if_pos ⟨hlo, hk⟩]
  · rw [if_neg (hlo ·.1), if_neg (hlo ·.1)]
    exact h k (Nat.lt_of_not_le hlo)

/-- The trailer completes the block (R119). -/
theorem AgreeBelow.write64 (h : AgreeBelow 56 m m') (v : BitLength) (hw : m.wf = true) (hw' : m'.wf = true) :
    AgreeBelow 64 (m.write64 56 v) (m'.write64 56 v) := by
  intro k hk
  by_cases hlt : k < 56
  · rw [read_write64_outside m v (.inl hlt), read_write64_outside m' v (.inl hlt)]
    exact h k hlt
  · obtain ⟨i, rfl⟩ : ∃ i : Fin 8, k = 56 + i.val := ⟨⟨k - 56, by omega⟩, by dsimp only; omega⟩
    rw [read_write64 v i hw (by decide), read_write64 v i hw' (by decide)]

theorem AgreeBelow.block_eq (h : AgreeBelow 64 m m') : m.block = m'.block := by
  apply Vector.ext
  intro k hk
  rw [block_getElem, block_getElem]
  exact h k hk

end Memory

/-! ## What a finalization leaves -/

/-- A run that has reached IDLE is not prolonged by a larger bound. -/
theorem runBusy_of_le {m n : Nat} {s u : State} (h : runBusy m s = .next u) (hu : u.phase = .idle) (hle : m ≤ n) :
    runBusy n s = .next u := by
  obtain ⟨d, rfl⟩ := Nat.exists_eq_add_of_le hle
  rw [runBusy_add, h, andThen_next, runBusy_idle d hu]

/-- The last block from the bytes before `block_index`: zeros up to offset 56, then the trailer (R118, R119). -/
def lastBlock (m : Memory) (index : Nat) (length : BitLength) : Vector Byte 64 := ((m.zeroFill index 56).write64 56 length).block

theorem lastBlock_congr {m m' : Memory} {index : Nat} (length : BitLength) (h : Memory.AgreeBelow index m m') (hw : m.wf = true)
    (hw' : m'.wf = true) : lastBlock m index length = lastBlock m' index length :=
  ((h.zeroFill (by decide) hw hw').write64 length (Memory.wf_zeroFill hw (by decide)) (Memory.wf_zeroFill hw' (by decide))).block_eq

/-- The digest words that a finalization at its first ZFILL ends with, over one block or two (R117, R120). -/
def finalWords (s : State) : Vector Word 5 :=
  if 56 < s.blockIndex.toNat then
    compress (compress s.H (s.buf.zeroFill s.blockIndex.toNat 64).block) (lastBlock (s.buf.zeroFill s.blockIndex.toNat 64) 0 s.bitLength)
  else compress s.H (lastBlock s.buf s.blockIndex.toNat s.bitLength)

/-- A finalization from its first ZFILL to the end (R126): but for the leftovers in `W`, `A` to `E` and `t`, its end is `finalWords` with
the registers that CLEAR writes. -/
theorem runBusy_finalization {s : State} (hp : s.phase = .zfill) (hf : s.fin = .pad) (hw : s.buf.wf = true) :
    ∃ u, runBusy busyBound s = .next u ∧ u = { s with
      H := finalWords s, buf := [], blockIndex := 0#7, bitLength := 0#64, life := .finalized, fin := .none, phase := .idle
      W := u.W, work := u.work, t := u.t } := by
  unfold finalWords
  by_cases hfull : 56 < s.blockIndex.toNat
  · obtain ⟨u, hrun, -, hu⟩ := runBusy_twoBlocks hp hf hfull hw
    rw [if_pos hfull]
    exact ⟨u, hrun, hu⟩
  · obtain ⟨u, hrun, -, hu⟩ := runBusy_lastBlock hp (Nat.not_lt.1 hfull) hw
    have hidle : u.phase = .idle := by rw [hu]
    rw [if_neg hfull]
    exact ⟨u, runBusy_of_le hrun hidle (by decide), hu⟩

end Sys2Proof.Machine

namespace Sys2Proof.Safety

open Sys2Proof.Machine

/-! ## Alike engines show the same outputs -/

theorem Alike.digest_eq {s₁ s₂ : State} (h : Alike s₁ s₂) : s₁.digest = s₂.digest := by
  have hvalid : s₁.digestValid = s₂.digestValid := by
    rw [State.digestValid, State.digestValid, h.life, h.err, h.idle₁, h.idle₂]
  cases hv : s₁.digestValid with
  | true =>
    obtain ⟨hfinalized, -, -⟩ := (digestValid_iff s₁).1 hv
    rw [digest_of_valid hv, digest_of_valid (hvalid ▸ hv), h.words (by simp [hfinalized])]
  | false => rw [digest_of_not_valid hv, digest_of_not_valid (hvalid ▸ hv)]

theorem Alike.outputs_eq {s₁ s₂ : State} (h : Alike s₁ s₂) : outputs s₁ = outputs s₂ := by
  have hready : s₁.cmdReady = s₂.cmdReady := ((cmdReady_iff s₁).2 h.idle₁).trans ((cmdReady_iff s₂).2 h.idle₂).symm
  rw [outputs, outputs, hready, h.digest_eq, State.lifeOut, State.lifeOut, State.errOut, State.errOut, h.life, h.err]

/-! ## The context that two engines share, in any phase -/

/-- What two alike engines share once a RESET has been accepted, whatever their phase: all but the datapath and the bytes of `buf` from
`block_index` on. -/
structure SameContext (s₁ s₂ : State) : Prop where
  phase : s₁.phase = s₂.phase
  fin : s₁.fin = s₂.fin
  life : s₁.life = s₂.life
  err : s₁.err = s₂.err
  words : s₁.H = s₂.H
  length : s₁.bitLength = s₂.bitLength
  index : s₁.blockIndex = s₂.blockIndex
  bytes : Memory.AgreeBelow s₁.blockIndex.toNat s₁.buf s₂.buf

section Context

variable {s₁ s₂ : State}

theorem Alike.sameContext (h : Alike s₁ s₂) (hl : s₁.life ≠ .uninitialized) : SameContext s₁ s₂ :=
  ⟨h.idle₁.trans h.idle₂.symm, h.fin, h.life, h.err, h.words hl, h.length hl, h.index hl, h.bytes hl⟩

theorem SameContext.alike (h : SameContext s₁ s₂) (hp : s₁.phase = .idle) : Alike s₁ s₂ :=
  ⟨hp, h.phase ▸ hp, h.fin, h.life, h.err, fun _ => h.words, fun _ => h.length, fun _ => h.index, fun _ => h.bytes⟩

/-- The next byte stored, with one count more (R86, R115). -/
theorem SameContext.bytes_append (h : SameContext s₁ s₂) (hinv₁ : Inv s₁) (hinv₂ : Inv s₂) (hi : s₁.blockIndex.toNat < 64) (b : Byte) :
    Memory.AgreeBelow (s₁.blockIndex + 1#7).toNat (s₁.buf.write8 s₁.blockIndex.toNat b) (s₂.buf.write8 s₂.blockIndex.toNat b) := by
  have hnext : (s₁.blockIndex + 1#7).toNat = s₁.blockIndex.toNat + 1 :=
    BitVec.toNat_add_of_lt (show s₁.blockIndex.toNat + 1 < 128 by omega)
  rw [← h.index, hnext]
  exact h.bytes.write8 b hinv₁.canonical hinv₂.canonical

/-- The finalization's blocks hold valid bytes, zeros and the trailer only (R117, R124). -/
theorem SameContext.finalWords_eq (h : SameContext s₁ s₂) (hw₁ : s₁.buf.wf = true) (hw₂ : s₂.buf.wf = true) :
    finalWords s₁ = finalWords s₂ := by
  have hbytes := h.bytes
  have hfirst := (hbytes.zeroFill (Nat.le_refl 64) hw₁ hw₂).block_eq
  rw [h.index] at hbytes hfirst
  unfold finalWords
  rw [h.words, h.index, h.length]
  by_cases hfull : 56 < s₂.blockIndex.toNat
  · rw [if_pos hfull, if_pos hfull, hfirst, lastBlock_congr _ (Memory.agreeBelow_zero _ _)
      (Memory.wf_zeroFill hw₁ (Nat.le_refl 64)) (Memory.wf_zeroFill hw₂ (Nat.le_refl 64))]
  · rw [if_neg hfull, if_neg hfull, lastBlock_congr _ hbytes hw₁ hw₂]

/-! ## A busy period ends alike -/

/-- After the two answers and the busy periods that follow them, both engines are ready and alike. -/
def EndAlike (o₁ o₂ : Answer) : Prop :=
  ∃ t₁ t₂, andThen o₁ (runBusy busyBound) = .next t₁ ∧ andThen o₂ (runBusy busyBound) = .next t₂ ∧ Alike t₁ t₂

theorem Alike.endAlike (h : Alike s₁ s₂) : EndAlike (.next s₁) (.next s₂) :=
  ⟨s₁, s₂, runBusy_idle busyBound h.idle₁, runBusy_idle busyBound h.idle₂, h⟩

/-- The compression of a full block (R111) reads no byte, schedule word or working variable from before. -/
theorem SameContext.after_compression (h : SameContext s₁ s₂) (hp : s₁.phase = .load) (hf : s₁.fin = .none)
    (hi : s₁.blockIndex = 64#7) : EndAlike (.next s₁) (.next s₂) := by
  obtain ⟨u₁, hrun₁, -, -, -, hu₁⟩ := runBusy_compression hp
  obtain ⟨u₂, hrun₂, -, -, -, hu₂⟩ := runBusy_compression (h.phase ▸ hp)
  have hblock : s₁.buf.block = s₂.buf.block := by
    have hbytes := h.bytes
    rw [hi] at hbytes
    exact hbytes.block_eq
  have hwords : compress s₁.H s₁.buf.block = compress s₂.H s₂.buf.block := by rw [h.words, hblock]
  have hidle₁ : u₁.phase = .idle := by rw [hu₁, hf]; rfl
  have hidle₂ : u₂.phase = .idle := by rw [hu₂, ← h.fin, hf]; rfl
  have hsame : SameContext u₁ u₂ := by
    rw [hu₁, hu₂]
    exact ⟨congrArg afterAccum h.fin, h.fin, h.life, h.err, hwords, h.length, rfl, Memory.agreeBelow_zero _ _⟩
  exact ⟨u₁, u₂, runBusy_of_le hrun₁ hidle₁ (by decide), runBusy_of_le hrun₂ hidle₂ (by decide), hsame.alike hidle₁⟩

theorem SameContext.after_finalization (h : SameContext s₁ s₂) (hp : s₁.phase = .zfill) (hf : s₁.fin = .pad)
    (hw₁ : s₁.buf.wf = true) (hw₂ : s₂.buf.wf = true) : EndAlike (.next s₁) (.next s₂) := by
  obtain ⟨u₁, hrun₁, hu₁⟩ := runBusy_finalization hp hf hw₁
  obtain ⟨u₂, hrun₂, hu₂⟩ := runBusy_finalization (h.phase ▸ hp) (h.fin ▸ hf) hw₂
  refine ⟨u₁, u₂, hrun₁, hrun₂, ?_⟩
  rw [hu₁, hu₂]
  exact ⟨rfl, rfl, rfl, rfl, h.err, fun _ => h.finalWords_eq hw₁ hw₂, fun _ => rfl, fun _ => rfl, fun _ _ _ => rfl⟩

/-! ## Every command keeps alike engines alike -/

theorem Alike.after_raiseError (h : Alike s₁ s₂) (e : Err) : Alike (raiseError s₁ e) (raiseError s₂ e) :=
  { h with err := rfl }

theorem Alike.after_resetWrites (h : Alike s₁ s₂) : Alike (resetWrites s₁) (resetWrites s₂) :=
  ⟨h.idle₁, h.idle₂, h.fin, rfl, rfl, fun _ => rfl, fun _ => rfl, fun _ => rfl, fun _ => Memory.agreeBelow_zero _ _⟩

theorem Alike.screenLife_eq (h : Alike s₁ s₂) : screenLife s₁ = screenLife s₂ := by
  rw [screenLife, screenLife, h.err, h.life]

theorem ne_uninitialized_of_screenLife {s : State} (h : screenLife s = .passes) : s.life ≠ .uninitialized := by
  obtain ⟨-, hl⟩ := screenLife_passes.1 h
  rcases (lifeLegal_iff _).1 hl with hl | hl <;> simp [hl]

theorem screenLife_of_screenInput {s : State} (h : screenInput s = .passes) : screenLife s = .passes := by
  obtain ⟨he, hl, -⟩ := screenInput_passes.1 h
  exact screenLife_passes.2 ⟨he, hl⟩

/-- The length is tested only where `life` is legal, so only where both engines have the same one (R142). -/
theorem Alike.screenInput_eq (h : Alike s₁ s₂) : screenInput s₁ = screenInput s₂ := by
  rw [screenInput, screenInput, ← h.screenLife_eq]
  cases hs : screenLife s₁ with
  | silent => rfl
  | raises e => rfl
  | passes => rw [h.length (ne_uninitialized_of_screenLife hs)]

/-- A command that the tests refuse on one engine is refused alike on the other; an accepted one is left to its accept step. -/
theorem Alike.after_screened (h : Alike s₁ s₂) {d : Screening} {run : State → Answer}
    (hrun : d = .passes → EndAlike (run s₁) (run s₂)) :
    EndAlike (screened s₁ d run) (screened s₂ d run) := by
  cases d with
  | silent => exact h.endAlike
  | raises e => exact (h.after_raiseError e).endAlike
  | passes => exact hrun rfl

theorem Alike.after_absorb (h : Alike s₁ s₂) (hinv₁ : Inv s₁) (hinv₂ : Inv s₂) (hs : screenInput s₁ = .passes) (b : Byte) :
    EndAlike (absorb b s₁) (absorb b s₂) := by
  have hs₁ := screenLife_of_screenInput hs
  have hi₁ := index_room hinv₁ h.idle₁ hs₁
  have hi₂ := index_room hinv₂ h.idle₂ (h.screenLife_eq ▸ hs₁)
  have hsame := h.sameContext (ne_uninitialized_of_screenLife hs₁)
  have hbytes := hsame.bytes_append hinv₁ hinv₂ hi₁ b
  rw [absorb_next b hi₁ (length_room hinv₁ hs), absorb_next b hi₂ (length_room hinv₂ (h.screenInput_eq ▸ hs)),
    ← hsame.index, ← hsame.length, ← hsame.phase]
  rw [← hsame.index] at hbytes
  by_cases hfull : s₁.blockIndex + 1#7 = 64#7
  · rw [if_pos hfull]
    exact SameContext.after_compression ⟨rfl, h.fin, rfl, h.err, hsame.words, rfl, rfl, hbytes⟩ rfl (hinv₁.idleFin h.idle₁) hfull
  · rw [if_neg hfull]
    apply Alike.endAlike
    exact SameContext.alike ⟨rfl, h.fin, rfl, h.err, hsame.words, rfl, rfl, hbytes⟩ h.idle₁

theorem Alike.after_startFinalization (h : Alike s₁ s₂) (hinv₁ : Inv s₁) (hinv₂ : Inv s₂) (hs : screenLife s₁ = .passes) :
    EndAlike (startFinalization s₁) (startFinalization s₂) := by
  have hi₁ := index_room hinv₁ h.idle₁ hs
  have hi₂ := index_room hinv₂ h.idle₂ (h.screenLife_eq ▸ hs)
  have hsame := h.sameContext (ne_uninitialized_of_screenLife hs)
  have hbytes := hsame.bytes_append hinv₁ hinv₂ hi₁ padByte
  rw [startFinalization_next hi₁, startFinalization_next hi₂]
  exact SameContext.after_finalization
    ⟨rfl, rfl, h.life, h.err, hsame.words, hsame.length, congrArg (· + 1#7) hsame.index, hbytes⟩ rfl rfl
    (Memory.wf_write _ hinv₁.canonical hi₁) (Memory.wf_write _ hinv₂.canonical hi₂)

theorem Alike.after_command (h : Alike s₁ s₂) (hinv₁ : Inv s₁) (hinv₂ : Inv s₂) {i : Instr} (hc : i.isCommand = true) :
    EndAlike (exec i s₁) (exec i s₂) := by
  cases i with
  | nop =>
    rw [exec_nop, exec_nop]
    exact h.endAlike
  | reset =>
    rw [exec_reset h.idle₁, exec_reset h.idle₂]
    exact h.after_resetWrites.endAlike
  | input b =>
    rw [exec_input b h.idle₁, exec_input b h.idle₂, ← h.screenInput_eq]
    exact h.after_screened fun hs => h.after_absorb hinv₁ hinv₂ hs b
  | result =>
    rw [exec_result h.idle₁, exec_result h.idle₂, ← h.screenLife_eq]
    exact h.after_screened fun hs => h.after_startFinalization hinv₁ hinv₂ hs
  | _ => exact absurd hc Bool.false_ne_true

end Context

/-- Settles O54: every word is a command, and alike engines show the same outputs. -/
theorem leftoversAreNeverObserved : Obligations.LeftoversAreNeverObserved := by
  intro s₁ s₂ w hinv₁ hinv₂ h
  obtain ⟨t₁, t₂, ht₁, ht₂, halike⟩ := h.after_command hinv₁ hinv₂ (isCommand_decodeCmd w)
  exact ⟨h.outputs_eq, t₁, t₂, (issue_idle _ h.idle₁).trans ht₁, (issue_idle _ h.idle₂).trans ht₂, halike, halike.outputs_eq⟩

end Sys2Proof.Safety
end

section
/-! INPUT (spec/41_ingestion.md R85, R86, R92): the accept step of a byte that no test refuses, at the step level and at the command level, and the
compression that follows the byte that fills the buffer. -/

namespace Sys2Proof.Machine

open Sys2Proof.Safety

/-! ## The accept step -/

/-- What both levels do with a byte before the new index is compared with 64: store, count, `life <- ABSORBING` (R85, R86). -/
def absorbed (b : Byte) (s : State) : State :=
  { s with
    buf := s.buf.write8 s.blockIndex.toNat b, blockIndex := s.blockIndex + 1#7, bitLength := s.bitLength + 8#64, life := .absorbing }

section Absorb

variable {s : State}

theorem toNat_absorbed_blockIndex (b : Byte) (hi : s.blockIndex.toNat < 64) : (absorbed b s).blockIndex.toNat = s.blockIndex.toNat + 1 :=
  BitVec.toNat_add_of_lt (show s.blockIndex.toNat + 1 < 128 by omega)

theorem toNat_absorbed_bitLength (b : Byte) (hl : s.bitLength.toNat + 8 < 2 ^ 64) :
    (absorbed b s).bitLength.toNat = s.bitLength.toNat + 8 :=
  BitVec.toNat_add_of_lt hl

/-- The new index is 64 exactly when the byte went to the last offset (R87). -/
theorem absorbed_full_iff (b : Byte) (hi : s.blockIndex.toNat < 64) : (absorbed b s).blockIndex = 64#7 ↔ s.blockIndex.toNat = 63 := by
  rw [← BitVec.toNat_inj, toNat_absorbed_blockIndex b hi]
  exact Nat.succ_inj

/-- The accept step of an INPUT that no test refuses (R92). -/
theorem exec_input_passes (b : Byte) (hp : s.phase = .idle) (hs : screenInput s = .passes) (hi : s.blockIndex.toNat < 64)
    (hl : s.bitLength.toNat + 8 < 2 ^ 64) :
    exec (.input b) s = .next { absorbed b s with phase := if s.blockIndex.toNat = 63 then .load else .idle } := by
  have habsorb : absorb b s = .next { absorbed b s with phase := if (absorbed b s).blockIndex = 64#7 then .load else s.phase } :=
    absorb_next b hi hl
  rw [exec_input b hp, hs, screened_passes, habsorb, hp]
  simp only [absorbed_full_iff b hi]

/-- `DoInput` of a byte that no test refuses (R85). -/
theorem doInput_passes (b : Byte) (hs : screenInput s = .passes) (hi : s.blockIndex.toNat < 64) (hl : s.bitLength.toNat + 8 < 2 ^ 64) :
    doInput b s = .next (if s.blockIndex.toNat = 63 then compressNow (absorbed b s) else absorbed b s) := by
  have hcompress : doInput b s = .next (if (absorbed b s).blockIndex = 64#7 then compressNow (absorbed b s) else absorbed b s) := by
    have hcount := countByte_next (s := { s with
      buf := s.buf.write8 s.blockIndex.toNat b, blockIndex := s.blockIndex + 1#7 }) hl
    rw [doInput, hs, screened_passes, appendByte_next b hi, andThen_next, hcount]
    rfl
  rw [hcompress]
  simp only [absorbed_full_iff b hi]

/-- With room in the length no INPUT is too large (R88). -/
theorem screenInput_passes_of_room (he : s.err = .none) (hl : s.life = .reset ∨ s.life = .absorbing)
    (hroom : s.bitLength.toNat + 8 < 2 ^ 64) : screenInput s = .passes := by
  refine screenInput_passes.2 ⟨he, (lifeLegal_iff _).2 hl, fun hmax => ?_⟩
  rw [hmax] at hroom
  exact absurd hroom (by decide)

end Absorb

/-- Settles O21: the accept step answers `absorbed` with the phase that the trigger sets. -/
theorem inputStoresThenCountsThenTriggers : Obligations.InputStoresThenCountsThenTriggers := by
  intro s b hw hp he hlife hi hl
  have hi' : s.blockIndex.toNat < 64 := Nat.lt_succ_of_le hi
  refine ⟨_, exec_input_passes b hp (screenInput_passes_of_room he hlife hl) hi' hl, ?_⟩
  exact ⟨Memory.read_write_self b hw, fun k => Memory.read_write_other s.buf b, toNat_absorbed_blockIndex b hi',
    toNat_absorbed_bitLength b hl, rfl, fun hfull => if_pos hfull, fun hroom => if_neg hroom, rfl, rfl, he, ⟨rfl, rfl, rfl⟩, ⟨rfl, rfl⟩,
    Memory.wf_write b hw hi'⟩

/-! ## The accept step against `DoInput` (R92) -/

section Refinement

variable {s : State}

/-- A refused INPUT, and one that leaves room in the buffer, is `DoInput` in its accept step alone. -/
theorem exec_input_eq_doInput (b : Byte) (h : Inv s) (hp : s.phase = .idle)
    (hshort : ¬(screenInput s = .passes ∧ s.blockIndex.toNat = 63)) :
    ∃ t, exec (.input b) s = .next t ∧ doInput b s = .next t ∧ t.phase = .idle ∧ t.fin = .none := by
  have hfin := h.idleFin hp
  cases hs : screenInput s with
  | silent => exact ⟨s, by rw [exec_input b hp, hs]; rfl, by rw [doInput, hs]; rfl, hp, hfin⟩
  | raises e => exact ⟨raiseError s e, by rw [exec_input b hp, hs]; rfl, by rw [doInput, hs]; rfl, hp, hfin⟩
  | passes =>
    have hi := index_room h hp (screenLife_of_screenInput hs)
    have hl := length_room h hs
    have hne : s.blockIndex.toNat ≠ 63 := fun h63 => hshort ⟨hs, h63⟩
    refine ⟨absorbed b s, ?_, ?_, hp, hfin⟩
    · rw [exec_input_passes b hp hs hi hl, if_neg hne, ← hp]
      rfl
    · rw [doInput_passes b hs hi hl, if_neg hne]

/-- The INPUT that fills the buffer leaves a full block to compress, and `DoInput` compresses it at once. -/
theorem exec_input_full (b : Byte) (h : Inv s) (hp : s.phase = .idle) (hs : screenInput s = .passes) (h63 : s.blockIndex.toNat = 63) :
    ∃ t, exec (.input b) s = .next t ∧ doInput b s = .next { compressNow t with phase := .idle } ∧ t.phase = .load ∧ t.fin = .none ∧
      t.blockIndex.toNat = 64 := by
  have hi : s.blockIndex.toNat < 64 := by omega
  have hl := length_room h hs
  refine ⟨{ absorbed b s with phase := .load }, ?_, ?_, rfl, h.idleFin hp, ?_⟩
  · rw [exec_input_passes b hp hs hi hl, if_pos h63]
  · rw [doInput_passes b hs hi hl, if_pos h63, ← hp]
    rfl
  · exact (toNat_absorbed_blockIndex b hi).trans (congrArg (· + 1) h63)

end Refinement

/-! ## A compression on a still port (R111) -/

section Compression

variable {s : State}

/-- The phase `k` steps after a LOAD phase begins: LOAD, 80 times ROUND, ACCUM. -/
def compressionPhase (k : Nat) : Phase := if k = 0 then .load else if k = 81 then .accum else .round

theorem compressionPhase_ne_idle (k : Nat) : compressionPhase k ≠ .idle := by
  unfold compressionPhase
  split
  · decide
  · split <;> decide

/-- The micro-operations up to ACCUM touch neither the index nor any phase but the listed ones. -/
theorem runBusy_compressionPhase (hp : s.phase = .load) {k : Nat} (hk : k < 82) :
    ∃ v, runBusy k s = .next v ∧ v.phase = compressionPhase k ∧ v.blockIndex = s.blockIndex := by
  cases k with
  | zero => exact ⟨s, rfl, hp, rfl⟩
  | succ j =>
    obtain ⟨v, hv, hrounds⟩ := runBusy_rounds hp (show j ≤ 80 by omega)
    obtain ⟨-, -, hindex, -⟩ := hrounds.others
    refine ⟨v, Nat.add_comm 1 j ▸ hv, ?_, hindex⟩
    rw [hrounds.phase, compressionPhase, if_neg (Nat.succ_ne_zero j)]
    by_cases hj : j < 80
    · rw [if_pos hj, if_neg (by omega)]
    · rw [if_neg hj, if_pos (by omega)]

/-- On a still port the steps of a compression are its micro-operations. -/
theorem stepN_compression_eq_runBusy (hp : s.phase = .load) (hstill : Still s) {n : Nat} (hn : n ≤ 82) : stepN n s = runBusy n s := by
  refine stepN_still hstill fun k hk => ?_
  obtain ⟨v, hv, hphase, -⟩ := runBusy_compressionPhase hp (show k < 82 by omega)
  exact ⟨v, hv, hphase ▸ compressionPhase_ne_idle k⟩

end Compression

/-! ## INPUT on the port (R92) -/

theorem decodeCmd_inputWord (b : Byte) : decodeCmd (0x200#10 + b.setWidth 10) = .input b := by
  rw [inputWord_eq_append, decodeCmd_input (opField_append _ b), dataField_append]

/-- An idle engine takes the one word its host presents; the answer differs from the command's in the host's list only. -/
theorem step_inputWord {s t : State} {b : Byte} (hp : s.phase = .idle) (hh : s.host = [.present (0x200#10 + b.setWidth 10)])
    (ht : exec (.input b) s = .next t) : step s = .next { t with host := [] } := by
  rw [step_idle_present hp hh, decodeCmd_inputWord, blind_command (i := .input b) rfl s [], ht, withHost_next]

/-- Settles O44: an INPUT that does not fill the buffer is its accept step; one that does goes on through a compression on a port that stays
empty. -/
theorem inputStepsRefineDoInput : Obligations.InputStepsRefineDoInput := by
  intro s b h hp hh
  by_cases hfills : screenInput s = .passes ∧ s.blockIndex.toNat = 63
  · obtain ⟨hs, h63⟩ := hfills
    obtain ⟨t, ht, hdo, hload, hfin, h64⟩ := exec_input_full b h hp hs h63
    have hstep := step_inputWord hp hh ht
    have hsteps (k : Nat) (hk : k ≤ 82) : stepN (k + 1) s = runBusy k { t with host := [] } := by
      rw [stepN_succ, hstep, andThen_next]
      exact stepN_compression_eq_runBusy (s := { t with host := [] }) hload (.inl rfl) hk
    have hbusy (k : Nat) (hk : 1 ≤ k) (hk' : k ≤ 82) : ∃ v, stepN k s = .next v ∧ v.cmdReady = false ∧ v.blockIndex.toNat = 64 ∧
        v.phase = if k = 1 then .load else if k = 82 then .accum else .round := by
      obtain ⟨j, rfl⟩ : ∃ j, k = j + 1 := ⟨k - 1, by omega⟩
      obtain ⟨v, hv, hphase, hindex⟩ := runBusy_compressionPhase (s := { t with host := [] }) hload (show j < 82 by omega)
      refine ⟨v, (hsteps j (by omega)).trans hv, cmdReady_eq_false (hphase ▸ compressionPhase_ne_idle j), hindex ▸ h64, ?_⟩
      rw [hphase, compressionPhase]
      simp only [Nat.add_eq_right, Nat.reduceEqDiff]
    obtain ⟨u, hu, -, -, -, hend⟩ := runBusy_compression (s := { t with host := [] }) hload
    have hidle : u.phase = .idle := by rw [hend, hfin]; rfl
    have hfin' : u.fin = .none := by rw [hend]; exact hfin
    have hhost : u.host = [] := by rw [hend]; rfl
    have hcontext : u.context = { compressNow t with phase := .idle }.context := by rw [hend]; rfl
    exact ⟨83, u, _, (hsteps 82 (Nat.le_refl 82)).trans hu, hdo, hcontext, hidle, hfin', hhost, .inr ⟨rfl, hs, h63, hbusy⟩⟩
  · obtain ⟨t, ht, hdo, hidle, hfin⟩ := exec_input_eq_doInput b h hp hfills
    have hone : stepN 1 s = .next { t with host := [] } := (andThen_next_right _).trans (step_inputWord hp hh ht)
    exact ⟨1, _, t, hone, hdo, rfl, hidle, hfin, rfl, .inl ⟨rfl, hfills⟩⟩

end Sys2Proof.Machine
end

section
/-! The round's parts (spec/42_compression.md R96 to R100): the three functions bit by bit, and the function and the constant of each index. -/

namespace Sys2Proof.Machine

/-! ## The round functions bit by bit -/

section Bits

variable {i : Nat} (B C D : Word)

/-- Choice: B selects between C and D (R96). -/
theorem getLsbD_fCh (hi : i < 32) : (fCh B C D).getLsbD i = if B.getLsbD i then C.getLsbD i else D.getLsbD i := by
  rw [fCh, BitVec.getLsbD_or, BitVec.getLsbD_and, BitVec.getLsbD_and, BitVec.getLsbD_not]
  cases B.getLsbD i <;> simp [hi]

theorem getLsbD_fParity : (fParity B C D).getLsbD i = (B.getLsbD i ^^ C.getLsbD i ^^ D.getLsbD i) := by
  rw [fParity, BitVec.getLsbD_xor, BitVec.getLsbD_xor]

/-- Of three bits two are 1 when one of the three pairs is. -/
theorem majority_eq_decide_count (b c d : Bool) :
    (b && c || b && d || c && d) = decide (2 ≤ b.toNat + c.toNat + d.toNat) := by
  revert b c d
  decide

theorem getLsbD_fMaj :
    (fMaj B C D).getLsbD i = decide (2 ≤ (B.getLsbD i).toNat + (C.getLsbD i).toNat + (D.getLsbD i).toNat) := by
  rw [← majority_eq_decide_count]
  simp only [fMaj, BitVec.getLsbD_or, BitVec.getLsbD_and]

end Bits

/-- Settles O8: the formulas are the definitions; bit by bit each is a function of three bits. -/
theorem roundFunctionsBitByBit : Obligations.RoundFunctionsBitByBit := by
  refine ⟨fun B C D => ⟨rfl, rfl, rfl, fun i hi => ?_⟩, rfl, rfl, rfl, rfl⟩
  exact ⟨getLsbD_fCh B C D hi, getLsbD_fParity B C D, getLsbD_fMaj B C D⟩

/-! ## The function and the constant of an index (R100) -/

/-- The constant changes every twenty rounds. -/
theorem kOf_of_div {t : Fin 80} {n : Nat} (hn : n < 4) (ht : t.val / 20 = n) : kOf t = #v[k0, k1, k2, k3][n] := by
  subst ht
  rfl

/-- Settles O9: in each range the tests of `fOf` and the quotient of `kOf` are decided. -/
theorem roundIndexChoosesFunctionAndConstant : Obligations.RoundIndexChoosesFunctionAndConstant := by
  refine fun t => ⟨fun h => ?ch, fun h h' => ?par1, fun h h' => ?maj, fun h => ?par2⟩
  case ch => exact ⟨if_pos (by omega), kOf_of_div (n := 0) (by decide) (by omega)⟩
  case par1 => exact ⟨by rw [fOf, if_neg (by omega), if_pos (by omega)], kOf_of_div (n := 1) (by decide) (by omega)⟩
  case maj =>
    exact ⟨by rw [fOf, if_neg (by omega), if_neg (by omega), if_pos (by omega)], kOf_of_div (n := 2) (by decide) (by omega)⟩
  case par2 =>
    exact ⟨by rw [fOf, if_neg (by omega), if_neg (by omega), if_neg (by omega)], kOf_of_div (n := 3) (by decide) (by omega)⟩

end Sys2Proof.Machine
end

section
/-! The micro-operations of a compression (spec/42_compression.md R105 to R107): what ROUND does at the index it is selected for, and the steps
that enter LOAD and ACCUM. -/

namespace Sys2Proof.Machine

open Sys2Proof.Safety

/-! ## ROUND -/

/-- After the round, the word at its own index is the word that the round used (R106). -/
theorem roundAt_W_self (f : Word → Word → Word → Word) (K : Word) (t : Fin 80) (s : State) :
    (roundAt f K t s).W[t] = schedWord s.W t := by
  rw [roundAt_W]
  by_cases h16 : 16 ≤ t.val
  · rw [if_pos h16]
    exact Vector.getElem_set_self t.isLt
  · rw [if_neg h16]
    exact (schedWord_direct s.W (Nat.not_le.1 h16)).symm

theorem roundAt_W_other (f : Word → Word → Word → Word) (K : Word) {t u : Fin 80} (s : State) (hu : u ≠ t) :
    (roundAt f K t s).W[u] = s.W[u] := by
  rw [roundAt_W]
  split
  · exact Vector.getElem_set_ne t.isLt u.isLt fun e => hu (Fin.ext e.symm)
  · rfl

/-- The work of a round and its frame, for any function and constant (R101, R106). -/
theorem roundEffect_roundAt (f : Word → Word → Word → Word) (K : Word) {t : Fin 80} {s : State} (ht : s.t.toNat = t.val) :
    RoundEffect f K t s (roundAt f K t s) where
  expanded h16 := (roundAt_W_self f K t s).trans (schedWord_expanded s.W h16)
  direct h16 := (roundAt_W_self f K t s).trans (schedWord_direct s.W h16)
  otherWords u hu := roundAt_W_other f K s hu
  A := by rw [roundAt_W_self, roundAt_work, roundWork]
  B := congrArg Working.B (roundAt_work f K t s)
  C := congrArg Working.C (roundAt_work f K t s)
  D := congrArg Working.D (roundAt_work f K t s)
  E := congrArg Working.E (roundAt_work f K t s)
  last h79 := by rw [roundAt_phase, roundAt_t, if_pos h79, if_pos h79]; exact ⟨rfl, rfl⟩
  next h79 := by
    rw [roundAt_phase, roundAt_t, if_neg h79, if_neg h79, BitVec.toNat_add_of_lt (show s.t.toNat + 1 < 128 by omega), ht]
    exact ⟨rfl, rfl⟩
  frame := by simp [SameInput]

theorem roundStep_roundEffect (f : Word → Word → Word → Word) (K : Word) {t : Fin 80} {s : State} (ht : s.t.toNat = t.val) :
    ∃ s', roundStep f K s = .next s' ∧ RoundEffect f K t s s' := by
  have hlt : s.t.toNat < 80 := ht ▸ t.isLt
  have hindex : (⟨s.t.toNat, hlt⟩ : Fin 80) = t := Fin.ext ht
  exact ⟨_, hindex ▸ roundStep_next f K hlt, roundEffect_roundAt f K ht⟩

/-- Settles O28: the four variants are one operation, with the function and the constant of each. -/
theorem roundVariantsDoOneRound : Obligations.RoundVariantsDoOneRound :=
  fun _ _ _ ht => ⟨fun _ => roundStep_roundEffect fCh k0 ht, fun _ _ => roundStep_roundEffect fParity k1 ht,
    fun _ _ => roundStep_roundEffect fMaj k2 ht, fun _ => roundStep_roundEffect fParity k3 ht⟩

/-! ## LOAD and ACCUM, and where each is entered from -/

section Entered

variable {s t : State}

/-- A step runs a command on an idle engine only (R66 case a). -/
theorem phase_idle_of_runPhase_command {i : Instr} (hc : i.isCommand = true) (hr : runPhase i = some s.phase) : s.phase = .idle :=
  (Option.some.inj ((runPhase_of_isCommand hc).symm.trans hr)).symm

/-- Of the instructions that a step runs, only an INPUT that fills the buffer, ZFILL above 56 and LEN answer with phase LOAD. -/
theorem ExecEffect.enters_load {i : Instr} (h : ExecEffect s i t) (hr : runPhase i = some s.phase) (hload : t.phase = .load) :
    t.blockIndex = 64#7 ∧
      ((s.phase = .idle ∧ ∃ b, i = .input b) ∨ (s.phase = .zfill ∧ 56 < s.blockIndex.toNat) ∨ s.phase = .len) := by
  cases h with
  | inputAbsorbs b hp =>
    by_cases hfull : s.blockIndex + 1#7 = 64#7
    · exact ⟨hfull, .inl ⟨hp, b, rfl⟩⟩
    · cases hp.symm.trans ((if_neg hfull).symm.trans hload)
  | zfillFull hi => exact ⟨rfl, .inr (.inl ⟨(Option.some.inj hr).symm, hi⟩)⟩
  | len => exact ⟨rfl, .inr (.inr (Option.some.inj hr).symm)⟩
  | busy hc => cases (phase_idle_of_runPhase_command hc hr).symm.trans hload
  | nop hp | reset hp | inputRefused _ hp | inputRaises _ hp | resultRefused hp | resultRaises hp => cases hp.symm.trans hload
  | round hround =>
    have hp : s.phase = .round := Option.some.inj (hr.symm.trans hround)
    rw [roundAt_phase, hp] at hload
    split at hload <;> cases hload
  | accum => cases hf : s.fin <;> rw [hf] at hload <;> cases hload
  | resultStarts | load | zfillTrailer | clear => cases hload

/-- Of the instructions that a step runs, only the last round answers with phase ACCUM. -/
theorem ExecEffect.enters_accum {i : Instr} (h : ExecEffect s i t) (hr : runPhase i = some s.phase) (haccum : t.phase = .accum) :
    s.phase = .round ∧ s.t.toNat = 79 := by
  cases h with
  | round hround =>
    have hp : s.phase = .round := Option.some.inj (hr.symm.trans hround)
    rw [roundAt_phase, hp] at haccum
    split at haccum
    · next hlast => exact ⟨hp, hlast⟩
    · cases haccum
  | inputAbsorbs b hp => rw [hp] at haccum; split at haccum <;> cases haccum
  | busy hc => cases (phase_idle_of_runPhase_command hc hr).symm.trans haccum
  | nop hp | reset hp | inputRefused _ hp | inputRaises _ hp | resultRefused hp | resultRaises hp => cases hp.symm.trans haccum
  | accum => cases hf : s.fin <;> rw [hf] at haccum <;> cases haccum
  | resultStarts | load | zfillFull | zfillTrailer | len | clear => cases haccum

/-- A step that leaves the engine busy ran an instruction: a power-on step, and an edge without a command, end in IDLE. -/
theorem StepEffect.exists_run (h : StepEffect s t) (hp : t.phase ≠ .idle) :
    ∃ i, runPhase i = some s.phase ∧ (s.phase = .idle → Presents s i) ∧ ExecEffect s.afterEdge i t := by
  cases h with
  | powerOn => exact absurd rfl hp
  | nothing hidle => exact absurd hidle hp
  | run hr hh he => exact ⟨_, hr, hh, he⟩

theorem step_enters_load (h : step s = .next t) (hload : t.phase = .load) :
    t.blockIndex = 64#7 ∧
      ((s.phase = .idle ∧ ∃ b, Presents s (.input b)) ∨ (s.phase = .zfill ∧ 56 < s.blockIndex.toNat) ∨ s.phase = .len) := by
  obtain ⟨i, hr, hpresents, he⟩ := (stepEffect_of_step h).exists_run (by simp [hload])
  obtain ⟨hfull, hfrom⟩ := he.enters_load hr hload
  refine ⟨hfull, hfrom.imp_left ?_⟩
  rintro ⟨hp, b, rfl⟩
  exact ⟨hp, b, hpresents hp⟩

theorem step_enters_accum (h : step s = .next t) (haccum : t.phase = .accum) : s.phase = .round ∧ s.t.toNat = 79 := by
  obtain ⟨i, hr, -, he⟩ := (stepEffect_of_step h).exists_run (by simp [haccum])
  exact he.enters_accum hr haccum

end Entered

/-- Settles O27: LOAD's one equation, its words by `packBlock`, and the instructions that answer with phase LOAD. -/
theorem loadPacksTheBlock : Obligations.LoadPacksTheBlock := by
  refine fun s => ⟨_, exec_load s, fun j hj => packBlock_direct s.buf s.W hj, fun j hj => packBlock_rest s.buf s.W hj j.isLt, ?_⟩
  exact ⟨rfl, rfl, rfl, rfl, rfl, rfl, rfl, rfl, rfl, rfl, rfl, rfl, rfl, rfl, ⟨rfl, rfl⟩, fun u => step_enters_load⟩

/-- Settles O30: ACCUM's one equation, `afterAccum` at each `fin`, and the one instruction that answers with phase ACCUM. -/
theorem accumAddsAndContinuesByFin : Obligations.AccumAddsAndContinuesByFin := by
  refine fun s => ⟨_, exec_accum s, rfl, rfl, rfl, rfl, rfl, rfl, fun hfin => ?none, fun hfin => congrArg afterAccum hfin,
    fun hfin => congrArg afterAccum hfin, ⟨rfl, rfl, rfl⟩, rfl, rfl, rfl, rfl, rfl, ⟨rfl, rfl⟩, fun u => step_enters_accum⟩
  have hidle : afterAccum s.fin = .idle := congrArg afterAccum hfin
  exact ⟨hidle, (cmdReady_iff _).2 hidle⟩

end Sys2Proof.Machine
end

section
/-! A compression on a still port (spec/42_compression.md R109, R111): its steps are the micro-operations that `runBusy_rounds` and
`runBusy_compression` follow. -/

namespace Sys2Proof.Machine

open Sys2Proof.Safety

section StillPort

variable {s : State}

/-- LOAD and then `j` rounds on the port. -/
theorem stepN_rounds (hp : s.phase = .load) (hstill : Still s) {j : Nat} (hj : j ≤ 80) :
    ∃ u, stepN (1 + j) s = .next u ∧ AfterRounds s j u := by
  rw [stepN_compression_eq_runBusy hp hstill (by omega)]
  exact runBusy_rounds hp hj

theorem AfterRounds.host_eq {j : Nat} {u : State} (h : AfterRounds s j u) : u.host = s.host := by
  obtain ⟨-, -, -, -, -, -, -, hhost, -⟩ := h.others
  exact hhost

end StillPort

/-- Settles O42: the phases and indices from `AfterRounds`, the end from `runBusy_compression`. -/
theorem compressionStepsRefineCompress : Obligations.CompressionStepsRefineCompress := by
  refine fun s hp hstill => ⟨fun j hj => ?round, ?accum, ?done⟩
  case round =>
    obtain ⟨u, hu, h⟩ := stepN_rounds hp hstill (Nat.le_of_lt hj)
    exact ⟨u, hu, h.phase.trans (if_pos hj), by rw [h.index]; omega, h.host_eq⟩
  case accum =>
    obtain ⟨u, hu, h⟩ := stepN_rounds hp hstill (Nat.le_refl 80)
    exact ⟨u, hu, h.phase, h.host_eq⟩
  case done =>
    obtain ⟨t, ht, -, -, -, hend⟩ := runBusy_compression hp
    refine ⟨t, (stepN_compression_eq_runBusy hp hstill (Nat.le_refl 82)).trans ht, ?_⟩
    rw [hend]
    exact ⟨rfl, rfl, rfl, rfl, rfl, rfl, rfl, rfl, rfl⟩

/-- Settles O43: after `j` rounds the registers are those of `AfterRounds`; each word of the finished schedule is what the round of its index
computes from it. -/
theorem expandingOnTheFlyEqualsExpandingFirst : Obligations.ExpandingOnTheFlyEqualsExpandingFirst := by
  refine fun s hp hh => ⟨fun j hj => ?rounds, fun t ht => ?recurrence⟩
  case rounds =>
    obtain ⟨u, hu, h⟩ := stepN_rounds hp (.inl hh) hj
    exact ⟨u, hu, h.work, fun i => ⟨h.computed i.val i.isLt, h.untouched i.val i.isLt⟩⟩
  case recurrence => exact (schedule_schedWord s.buf.block t.val t.isLt).trans (schedWord_expanded _ ht)

end Sys2Proof.Machine
end

section
/-! RESULT (spec/43_finalization.md R113, R115, R116, R126): the accept step of a RESULT that no test refuses, the phases of the busy period that
follows, and the two levels' agreement on its end. -/

namespace Sys2Proof.Machine

open Sys2Proof.Safety

/-! ## The accept step -/

/-- What both levels do first: the terminator at `block_index`, not counted in `bit_length` (R115). -/
def terminated (s : State) : State :=
  { s with buf := s.buf.write8 s.blockIndex.toNat padByte, blockIndex := s.blockIndex + 1#7 }

/-- What the accept step of the step level leaves: the terminator stored, a finalization begun (R116). -/
def finalizing (s : State) : State := { terminated s with fin := .pad, phase := .zfill }

section Accept

variable {s : State}

theorem toNat_terminated_blockIndex (hi : s.blockIndex.toNat < 64) : (terminated s).blockIndex.toNat = s.blockIndex.toNat + 1 :=
  BitVec.toNat_add_of_lt (show s.blockIndex.toNat + 1 < 128 by omega)

theorem wf_terminated (hw : s.buf.wf = true) (hi : s.blockIndex.toNat < 64) : (terminated s).buf.wf = true :=
  Memory.wf_write padByte hw hi

/-- The accept step of a RESULT that no test refuses (R116). -/
theorem exec_result_passes (hp : s.phase = .idle) (hs : screenLife s = .passes) (hi : s.blockIndex.toNat < 64) :
    exec .result s = .next (finalizing s) := by
  rw [exec_result hp, hs, screened_passes, startFinalization_next hi]
  rfl

theorem screenLife_passes_of_legal (he : s.err = .none) (hl : s.life = .reset ∨ s.life = .absorbing) : screenLife s = .passes :=
  screenLife_passes.2 ⟨he, (lifeLegal_iff _).2 hl⟩

end Accept

/-- Settles O26: the accept step answers `finalizing`. -/
theorem resultAppendsTheTerminator : Obligations.ResultAppendsTheTerminator := by
  intro s hw hp he hl hi
  have hi' : s.blockIndex.toNat < 64 := Nat.lt_succ_of_le hi
  have hindex := toNat_terminated_blockIndex hi'
  exact ⟨_, exec_result_passes hp (screenLife_passes_of_legal he hl) hi', Memory.read_write_self padByte hw,
    fun k => Memory.read_write_other s.buf padByte, hindex, hindex.ge.trans' (Nat.le_add_left 1 _),
    hindex.le.trans hi', rfl, rfl, rfl, rfl, he, rfl, ⟨rfl, rfl, rfl⟩, ⟨rfl, rfl⟩, wf_terminated hw hi'⟩

/-! ## `DoResult` (R113) -/

section CommandLevel

variable {s : State}

theorem fillBlock_full (h : 56 < s.blockIndex.toNat) : fillBlock s = { s with
    H := compress s.H (s.buf.zeroFill s.blockIndex.toNat 64).block, blockIndex := 0#7
    buf := (s.buf.zeroFill s.blockIndex.toNat 64).zeroFill 0 56 } :=
  if_pos h

theorem fillBlock_trailer (h : s.blockIndex.toNat ≤ 56) : fillBlock s = { s with buf := s.buf.zeroFill s.blockIndex.toNat 56 } :=
  if_neg (Nat.not_lt.2 h)

theorem wf_fillBlock (hw : s.buf.wf = true) : (fillBlock s).buf.wf = true := by
  by_cases h : 56 < s.blockIndex.toNat
  · rw [fillBlock_full h]
    dsimp only
    exact Memory.wf_zeroFill (Memory.wf_zeroFill hw (by decide)) (by decide)
  · rw [fillBlock_trailer (Nat.not_lt.1 h)]
    dsimp only
    exact Memory.wf_zeroFill hw (by decide)

/-- The command level's last compression gives the words that the step level's finalization ends with. -/
theorem compressNow_fillBlock (s : State) :
    compressNow { fillBlock s with buf := (fillBlock s).buf.write64 56 (fillBlock s).bitLength } =
      { s with H := finalWords s, buf := (fillBlock s).buf.write64 56 s.bitLength, blockIndex := 0#7 } := by
  by_cases h : 56 < s.blockIndex.toNat
  · rw [finalWords, if_pos h, fillBlock_full h]
    simp only [compressNow, lastBlock]
  · rw [finalWords, if_neg h, fillBlock_trailer (Nat.not_lt.1 h)]
    simp only [compressNow, lastBlock]

/-- `DoResult` when no test refuses it. -/
theorem doResult_passes (hw : s.buf.wf = true) (hs : screenLife s = .passes) (hi : s.blockIndex.toNat < 64) :
    doResult s = .next { s with
      H := finalWords (terminated s), buf := [], blockIndex := 0#7, bitLength := 0#64, life := .finalized } := by
  have hempty := Memory.zeroFill_all (Memory.wf_write64 s.bitLength (wf_fillBlock (wf_terminated hw hi)) (k := 56) (by decide))
  simp only [doResult, hs, screened_passes, appendByte_next padByte hi, andThen_next, compressNow_fillBlock]
  rw [← hempty]
  rfl

end CommandLevel

/-! ## The phases of a busy period -/

/-- The micro-operations of `s` run through these phases, one step in each, and end in `t`. -/
structure PassesThrough (phases : List Phase) (s t : State) : Prop where
  ends : runBusy phases.length s = .next t
  passes : ∀ k, k < phases.length → ∃ v, runBusy k s = .next v ∧ phases[k]? = some v.phase

section Phases

variable {s t u : State} {phases : List Phase}

theorem PassesThrough.single {p : Phase} (hp : s.phase = p) (hbusy : p ≠ .idle) (h : microStep s = .next t) : PassesThrough [p] s t where
  ends := (runBusy_one (hp ▸ hbusy)).trans h
  passes k hk := by
    obtain rfl : k = 0 := Nat.lt_one_iff.1 hk
    exact ⟨s, rfl, congrArg some hp.symm⟩

theorem PassesThrough.append {phases' : List Phase} (h : PassesThrough phases s t) (h' : PassesThrough phases' t u) :
    PassesThrough (phases ++ phases') s u where
  ends := by rw [List.length_append, runBusy_add, h.ends, andThen_next, h'.ends]
  passes k hk := by
    by_cases hfirst : k < phases.length
    · rw [List.getElem?_append_left hfirst]
      exact h.passes k hfirst
    · obtain ⟨j, rfl⟩ := Nat.exists_eq_add_of_le (Nat.not_lt.1 hfirst)
      obtain ⟨v, hv, hphase⟩ := h'.passes j (by simpa using hk)
      refine ⟨v, by rw [runBusy_add, h.ends, andThen_next, hv], ?_⟩
      rw [List.getElem?_append_right (Nat.le_add_right _ j), Nat.add_sub_cancel_left, hphase]

/-- On a still port the engine's steps through busy phases are its micro-operations. -/
theorem PassesThrough.stepN_eq_runBusy (h : PassesThrough phases s t) (hbusy : .idle ∉ phases) (hstill : Still s) {n : Nat}
    (hn : n ≤ phases.length) : stepN n s = runBusy n s := by
  refine stepN_still hstill fun k hk => ?_
  obtain ⟨v, hv, hphase⟩ := h.passes k (hk.trans_le hn)
  exact ⟨v, hv, fun hidle => hbusy (hidle ▸ List.mem_of_getElem? hphase)⟩

theorem compressionPhases_getElem? {k : Nat} (hk : k < 82) : compressionPhases[k]? = some (compressionPhase k) := by
  revert k
  decide

theorem PassesThrough.compression (hp : s.phase = .load) (h : runBusy 82 s = .next t) : PassesThrough compressionPhases s t where
  ends := h
  passes k hk := by
    obtain ⟨v, hv, hphase, -⟩ := runBusy_compressionPhase hp hk
    exact ⟨v, hv, hphase ▸ compressionPhases_getElem? hk⟩

/-- From a ZFILL with room for the trailer to the end (R118, R119, R122). -/
theorem passesThrough_lastBlock (hp : s.phase = .zfill) (hi : s.blockIndex.toNat ≤ 56) :
    ∃ t, PassesThrough ([.zfill, .len] ++ compressionPhases ++ [.clear]) s t ∧ t.phase = .idle := by
  have hzfill := PassesThrough.single hp (by decide) (microStep_zfill_trailer hp hi)
  have hlen := PassesThrough.single (p := .len) rfl (by decide)
    (microStep_len (s := { s with buf := s.buf.zeroFill s.blockIndex.toNat 56, blockIndex := 56#7, phase := .len }) rfl)
  obtain ⟨u, hu, -, -, -, hend⟩ := runBusy_compression (s := { s with
    buf := (s.buf.zeroFill s.blockIndex.toNat 56).write64 56 s.bitLength, blockIndex := 64#7, fin := .last, phase := .load }) rfl
  have hpu : u.phase = .clear := by rw [hend]; rfl
  have hclear := PassesThrough.single hpu (by decide) (by rw [microStep, hpu]; rfl)
  exact ⟨_, ((hzfill.append hlen).append (.compression rfl hu)).append hclear, rfl⟩

/-- From the accept step to the end, over one block or two (R126). -/
theorem passesThrough_finalizationPhases (hi : s.blockIndex.toNat < 64) :
    ∃ t, PassesThrough (finalizationPhases s) (finalizing s) t ∧ t.phase = .idle := by
  have hindex := toNat_terminated_blockIndex hi
  unfold finalizationPhases
  by_cases hroom : s.blockIndex.toNat ≤ 55
  · rw [if_pos hroom]
    exact passesThrough_lastBlock rfl (hindex.le.trans (Nat.succ_le_succ hroom))
  · have hfull : 56 < (terminated s).blockIndex.toNat := by omega
    have hzfill := PassesThrough.single (p := .zfill) rfl (by decide) (microStep_zfill_full (s := finalizing s) rfl hfull)
    obtain ⟨u, hu, -, -, -, hend⟩ := runBusy_compression (s := { finalizing s with
      buf := (terminated s).buf.zeroFill (terminated s).blockIndex.toNat 64, blockIndex := 64#7, phase := .load }) rfl
    obtain ⟨t, ht, hidle⟩ := passesThrough_lastBlock (s := u) (by rw [hend]; rfl) (by rw [hend]; exact Nat.zero_le 56)
    rw [if_neg hroom]
    exact ⟨t, by simpa only [List.append_assoc] using (hzfill.append (.compression rfl hu)).append ht, hidle⟩

theorem idle_not_mem_finalizationPhases (s : State) : .idle ∉ finalizationPhases s := by
  unfold finalizationPhases
  split <;> decide

end Phases

/-! ## RESULT on the port (R126) -/

theorem length_finalizationPhases_of_room {s : State} (h : s.blockIndex.toNat ≤ 55) : (finalizationPhases s).length = 85 := by
  rw [finalizationPhases, if_pos h]
  rfl

theorem length_finalizationPhases_of_full {s : State} (h : 56 ≤ s.blockIndex.toNat) : (finalizationPhases s).length = 168 := by
  rw [finalizationPhases, if_neg (by omega)]
  rfl

theorem length_finalizationPhases_le (s : State) : (finalizationPhases s).length ≤ busyBound := by
  unfold finalizationPhases
  split <;> decide

/-- Settles O45: the accept step, then the phases on a port that stays empty; the end of the busy period is the one of `runBusy_finalization`,
with the registers of `DoResult`. -/
theorem resultStepsRefineDoResult : Obligations.ResultStepsRefineDoResult := by
  intro s h hp he hl hh
  have hs := screenLife_passes_of_legal he hl
  have hi := index_room h hp hs
  have hw := h.canonical
  obtain ⟨t, ht, hidle⟩ := passesThrough_finalizationPhases (s := { s with host := [] }) hi
  have hsteps (n : Nat) (hn : n ≤ (finalizationPhases s).length) :
      stepN (n + 1) s = runBusy n (finalizing { s with host := [] }) := by
    rw [stepN_succ, step_idle_present hp hh, decodeCmd_result (by decide),
      exec_result_passes (s := { s with host := [] }) hp hs hi, andThen_next]
    exact ht.stepN_eq_runBusy (idle_not_mem_finalizationPhases _) (.inl rfl) hn
  refine ⟨fun hroom => by rw [length_finalizationPhases_of_room hroom], fun hfull => by rw [length_finalizationPhases_of_full hfull],
    fun k hk => ?phases, t, _, (hsteps _ le_rfl).trans ht.ends, doResult_passes hw hs hi, ?_⟩
  case phases =>
    rw [Nat.add_comm, hsteps k hk.le]
    exact ht.passes k hk
  obtain ⟨u, hu, hend⟩ := runBusy_finalization (s := finalizing { s with host := [] }) rfl rfl (wf_terminated hw hi)
  obtain rfl : t = u := Host.Outcome.next.inj ((runBusy_of_le ht.ends hidle (length_finalizationPhases_le _)).symm.trans hu)
  rw [hend]
  exact ⟨rfl, rfl, rfl, rfl⟩

end Sys2Proof.Machine
end

section
/-! The micro-operations of a finalization (spec/43_finalization.md R118, R119, R122): what each leaves, and the steps that enter their phases. -/

namespace Sys2Proof.Machine

open Sys2Proof.Safety

/-! ## Where ZFILL, LEN and CLEAR are entered from -/

section Entered

variable {s t : State}

/-- Of the instructions that a step runs, RESULT and ACCUM answer with phase ZFILL, ZFILL with phase LEN, and ACCUM with phase CLEAR. -/
theorem ExecEffect.enters_finalization {i : Instr} (h : ExecEffect s i t) (hr : runPhase i = some s.phase) :
    (t.phase = .zfill → (s.phase = .idle ∧ i = .result ∧ 1 ≤ t.blockIndex.toNat ∧ t.blockIndex.toNat ≤ 64) ∨
      (s.phase = .accum ∧ s.fin = .pad ∧ t.blockIndex = 0#7)) ∧
    (t.phase = .len → s.phase = .zfill ∧ t.blockIndex = 56#7) ∧
    (t.phase = .clear → s.phase = .accum ∧ s.fin = .last ∧ t.blockIndex = 0#7) := by
  cases h with
  | resultStarts hp _ hi =>
    have hindex := toNat_terminated_blockIndex hi
    exact ⟨fun _ => .inl ⟨hp, rfl, hindex.ge.trans' (Nat.le_add_left 1 _), hindex.le.trans hi⟩, nofun, nofun⟩
  | accum =>
    have hp : s.phase = .accum := (Option.some.inj hr).symm
    cases hfin : s.fin with
    | none => exact ⟨nofun, nofun, nofun⟩
    | pad => exact ⟨fun _ => .inr ⟨hp, rfl, rfl⟩, nofun, nofun⟩
    | last => exact ⟨nofun, nofun, fun _ => ⟨hp, rfl, rfl⟩⟩
  | zfillTrailer => exact ⟨nofun, fun _ => ⟨(Option.some.inj hr).symm, rfl⟩, nofun⟩
  | round hround =>
    have hp : s.phase = .round := Option.some.inj (hr.symm.trans hround)
    rw [roundAt_phase, hp]
    split <;> exact ⟨nofun, nofun, nofun⟩
  | inputAbsorbs b hp =>
    dsimp only
    rw [hp]
    split <;> exact ⟨nofun, nofun, nofun⟩
  | busy hc => rw [phase_idle_of_runPhase_command hc hr]; exact ⟨nofun, nofun, nofun⟩
  | nop hp | reset hp | inputRefused _ hp | inputRaises _ hp | resultRefused hp | resultRaises hp => simp [hp]
  | load | zfillFull | len | clear => exact ⟨nofun, nofun, nofun⟩

theorem step_enters_zfill (h : step s = .next t) (hzfill : t.phase = .zfill) :
    (s.phase = .idle ∧ Presents s .result ∧ 1 ≤ t.blockIndex.toNat ∧ t.blockIndex.toNat ≤ 64) ∨
      (s.phase = .accum ∧ s.fin = .pad ∧ t.blockIndex = 0#7) := by
  obtain ⟨i, hr, hpresents, he⟩ := (stepEffect_of_step h).exists_run (by simp [hzfill])
  obtain ⟨hfrom, -, -⟩ := he.enters_finalization hr
  refine (hfrom hzfill).imp_left ?_
  rintro ⟨hp, rfl, hindex⟩
  exact ⟨hp, hpresents hp, hindex⟩

theorem step_enters_len (h : step s = .next t) (hlen : t.phase = .len) : s.phase = .zfill ∧ t.blockIndex = 56#7 := by
  obtain ⟨i, hr, -, he⟩ := (stepEffect_of_step h).exists_run (by simp [hlen])
  obtain ⟨-, hfrom, -⟩ := he.enters_finalization hr
  exact hfrom hlen

theorem step_enters_clear (h : step s = .next t) (hclear : t.phase = .clear) :
    s.phase = .accum ∧ s.fin = .last ∧ t.blockIndex = 0#7 := by
  obtain ⟨i, hr, -, he⟩ := (stepEffect_of_step h).exists_run (by simp [hclear])
  obtain ⟨-, -, hfrom⟩ := he.enters_finalization hr
  exact hfrom hclear

end Entered

/-! ## What they leave -/

/-- Settles O31: one of ZFILL's two equations by the index, the bytes by `read_zeroFill`. -/
theorem zfillFillsToTheTrailerOrTheEnd : Obligations.ZfillFillsToTheTrailerOrTheEnd := by
  intro s hw
  by_cases hfull : 56 < s.blockIndex.toNat
  · refine ⟨_, exec_zfill_full hfull, fun _ => ⟨fun k => ?_, rfl, rfl⟩, fun hroom => absurd hfull (Nat.not_lt.2 hroom), rfl, rfl, rfl, rfl,
      rfl, ⟨rfl, rfl, rfl⟩, ⟨rfl, rfl⟩, Memory.wf_zeroFill hw (Nat.le_refl 64), fun u => step_enters_zfill⟩
    exact (Memory.read_zeroFill k hw (Nat.le_refl 64)).trans (by simp only [Nat.lt_succ_iff])
  · have hroom := Nat.not_lt.1 hfull
    refine ⟨_, exec_zfill_trailer hroom, fun hfull' => absurd hfull' hfull, fun _ => ⟨fun k => ?_, rfl, rfl⟩, rfl, rfl, rfl, rfl,
      rfl, ⟨rfl, rfl, rfl⟩, ⟨rfl, rfl⟩, Memory.wf_zeroFill hw (by decide), fun u => step_enters_zfill⟩
    exact (Memory.read_zeroFill k hw (by decide)).trans (by simp only [Nat.lt_succ_iff])

/-- Settles O32: LEN's one equation; the trailer's bytes are those of `MemWrite(56, 8, bit_length)`. -/
theorem lenWritesTheTrailer : Obligations.LenWritesTheTrailer := by
  intro s hw
  refine ⟨_, exec_len s, fun k => ?_, fun k => Memory.read_write64_outside s.buf s.bitLength, rfl, rfl, rfl, rfl, rfl, rfl, rfl,
    ⟨rfl, rfl, rfl⟩, ⟨rfl, rfl⟩, Memory.wf_write64 s.bitLength hw (Nat.le_refl 64), fun u => step_enters_len⟩
  exact (congrArg BitVec.toNat (Memory.read_write64 s.bitLength k hw (Nat.le_refl 64))).trans (toNat_unpack64 s.bitLength k)

/-- Settles O33: CLEAR's one equation; on an engine without an error its end shows the digest. -/
theorem clearErasesBufferAndCounters : Obligations.ClearErasesBufferAndCounters := by
  intro s hw
  refine ⟨_, exec_clear hw, fun k => rfl, rfl, rfl, rfl, rfl, rfl, rfl, rfl, rfl, ⟨rfl, rfl, rfl⟩, ⟨rfl, rfl⟩, fun he => ?_, rfl, rfl,
    fun u => step_enters_clear⟩
  have hvalid := (digestValid_iff { s with
    buf := [], bitLength := 0#64, blockIndex := 0#7, life := .finalized, fin := .none, phase := .idle }).2 ⟨rfl, he, rfl⟩
  exact ⟨hvalid, digest_of_valid hvalid⟩

end Sys2Proof.Machine
end

section
/-! A finalized engine (spec/43_finalization.md R123): it refuses INPUT and RESULT, and an edge without a command or with a NOP leaves it as it is. -/

namespace Sys2Proof.Machine

open Sys2Proof.Safety

section Idle

variable {s : State}

/-- An edge that brings an idle engine no command, or a NOP, changes the host's list only (R66 case b, R83). -/
theorem step_idle_of_nop (hp : s.phase = .idle) (hrst : ∀ rest, s.host ≠ .powerOn :: rest)
    (hnop : ∀ w rest, s.host = .present w :: rest ∨ s.host = .offer w :: rest → decodeCmd w = .nop) :
    step s = .next { s with host := hostAfter true s.host } := by
  cases hh : s.host with
  | nil => rw [step_idle_nil hp hh, hostAfter_nil, ← hh]
  | cons e rest =>
    cases e with
    | present w => rw [step_idle_present hp hh, hnop w rest (.inl hh), exec_nop]; rfl
    | offer w => rw [step_idle_offer hp hh, hnop w rest (.inr hh), exec_nop]; rfl
    | quiet => exact step_idle_quiet hp hh
    | powerOn => exact absurd hh (hrst rest)

/-- INPUT and RESULT on a finalized engine: refused by the life, or silently when an error is recorded already (R142, R145). -/
theorem exec_of_finalized {i : Instr} (hp : s.phase = .idle) (hl : s.life = .finalized) (hi : (∃ b, i = .input b) ∨ i = .result) :
    (s.err = .none → exec i s = .next { s with err := .usage }) ∧ (s.err ≠ .none → exec i s = .next s) := by
  have hillegal : lifeLegal s.life = false := by rw [hl]; rfl
  rcases hi with ⟨b, rfl⟩ | rfl
  · rw [exec_input b hp]
    refine ⟨fun he => ?_, fun he => ?_⟩
    · rw [screenInput_raises.2 ⟨he, .inl ⟨hillegal, rfl⟩⟩]; rfl
    · rw [screenInput_silent.2 he]; rfl
  · rw [exec_result hp]
    refine ⟨fun he => ?_, fun he => ?_⟩
    · rw [screenLife_raises.2 ⟨he, hillegal, rfl⟩]; rfl
    · rw [screenLife_silent.2 he]; rfl

end Idle

/-- Settles O37: by the command that the host presents, and by the edges that present none or a NOP. -/
theorem finalizedIsTerminalUntilReset : Obligations.FinalizedIsTerminalUntilReset := by
  intro s hp hl hrst
  refine ⟨fun w rest hh => ?command, fun hnop => ⟨_, step_idle_of_nop hp hrst hnop, rfl, rfl, hl⟩⟩
  have hstep : step s = exec (decodeCmd w) { s with host := rest } := hh.elim (step_idle_present hp) (step_idle_offer hp)
  rw [hstep]
  refine ⟨fun hw => ?reset, fun hw => ?nop, exec_of_finalized (s := { s with host := rest }) hp hl⟩
  case reset => exact ⟨_, by rw [hw]; exact exec_reset hp, rfl, rfl, rfl⟩
  case nop => rw [hw, exec_nop]

end Sys2Proof.Machine
end

section
/-! The length of the padded message (spec/43_finalization.md R124, R125). -/

namespace Sys2Proof.Machine

theorem padding_length (n : Nat) : (padding n).length = padZeros n + 9 := by
  simp [padding]

/-- Settles O46: the zeros fill up the block that the trailer ends. -/
theorem paddedMessageIsWholeBlocks : Obligations.PaddedMessageIsWholeBlocks := by
  intro m
  refine ⟨rfl, fun hshort => ?_, fun hlong => ?_⟩
  · rw [padding_length, padded_length, padZeros_short hshort]
    omega
  · rw [padding_length, padded_length, padZeros_long (Nat.not_le.2 hlong)]
    omega

end Sys2Proof.Machine
end

section
/-! The absorption of a message, over what the two levels agree on (spec/41_ingestion.md R85, R92, R112; spec/10_state.md R34, R35): the context after
each byte, what is counted and what is stored. -/

namespace Sys2Proof.Machine

open Sys2Proof.Safety

/-! ## The context after a byte (R85) -/

/-- What an INPUT that no test refuses makes of the context: store, count, and a full block compressed. -/
def Context.absorb (c : Context) (b : Byte) : Context where
  H := if c.blockIndex.toNat = 63 then compress c.H (c.buf.write8 c.blockIndex.toNat b).block else c.H
  buf := c.buf.write8 c.blockIndex.toNat b
  blockIndex := if c.blockIndex.toNat = 63 then 0#7 else c.blockIndex + 1#7
  bitLength := c.bitLength + 8#64
  life := .absorbing
  err := c.err

/-- One byte after the other (R90). -/
def Context.absorbAll (c : Context) (m : List Byte) : Context := m.foldl Context.absorb c

theorem context_compressNow_absorbed {s : State} (b : Byte) (h63 : s.blockIndex.toNat = 63) :
    (compressNow (absorbed b s)).context = s.context.absorb b := by
  simp [State.context, Context.absorb, absorbed, h63]

theorem context_absorbed {s : State} (b : Byte) (h63 : s.blockIndex.toNat ≠ 63) : (absorbed b s).context = s.context.absorb b := by
  simp [State.context, Context.absorb, absorbed, h63]

/-- The index advances modulo 64 (R35). -/
theorem toNat_absorb_blockIndex {c : Context} (b : Byte) (hi : c.blockIndex.toNat < 64) :
    (c.absorb b).blockIndex.toNat = (c.blockIndex.toNat + 1) % 64 := by
  dsimp only [Context.absorb]
  split
  · next h63 => rw [h63]; rfl
  · next h63 =>
    rw [BitVec.toNat_add_of_lt (show c.blockIndex.toNat + 1 < 128 by omega)]
    exact (Nat.mod_eq_of_lt (show c.blockIndex.toNat + 1 < 64 by omega)).symm

/-! ## Counting (R34, R35) -/

/-- Since its RESET the engine has counted `n` bytes and met no error. -/
structure Counted (n : Nat) (c : Context) : Prop where
  canonical : c.buf.wf = true
  life : c.life = .reset ∨ c.life = .absorbing
  err : c.err = .none
  index : c.blockIndex.toNat = n % 64
  length : c.bitLength.toNat = 8 * n

section Counting

variable {n : Nat} {c : Context}

theorem Counted.index_lt (h : Counted n c) : c.blockIndex.toNat < 64 := h.index ▸ Nat.mod_lt n (by decide)

/-- One byte more (R85): the index and the length advance together. -/
theorem Counted.absorb (h : Counted n c) (hroom : 8 * (n + 1) < 2 ^ 64) (b : Byte) : Counted (n + 1) (c.absorb b) where
  canonical := Memory.wf_write b h.canonical h.index_lt
  life := .inr rfl
  err := h.err
  index := by rw [toNat_absorb_blockIndex b h.index_lt, h.index, Nat.mod_add_mod]
  length := by
    have hlength := h.length
    have hadd : (c.bitLength + 8#64).toNat = c.bitLength.toNat + 8 :=
      BitVec.toNat_add_of_lt (show c.bitLength.toNat + 8 < 2 ^ 64 by omega)
    exact hadd.trans (by omega)

theorem Counted.absorbAll (h : Counted n c) {m : List Byte} (hroom : 8 * (n + m.length) < 2 ^ 64) :
    Counted (n + m.length) (c.absorbAll m) := by
  induction m generalizing n c with
  | nil => exact h
  | cons b rest ih =>
    simp only [List.length_cons] at hroom ⊢
    rw [Nat.add_comm rest.length, ← Nat.add_assoc]
    exact ih (h.absorb (by omega) b) (by omega)

/-- An INPUT with room for its byte is not refused (R88, R142). -/
theorem Counted.screenInput {s : State} (h : Counted n s.context) (hroom : 8 * (n + 1) < 2 ^ 64) : screenInput s = .passes := by
  have hlength : s.bitLength.toNat = 8 * n := h.length
  exact screenInput_passes_of_room h.err h.life (by omega)

/-- On an idle engine that was reset and has met no error, the invariant says how much has been counted (R26, R35). -/
theorem counted_of_inv {s : State} (h : Inv s) (hp : s.phase = .idle) (he : s.err = .none)
    (hl : s.life = .reset ∨ s.life = .absorbing) : Counted (s.bitLength.toNat / 8) s.context := by
  have h8 := (h.live hl he).wholeBytes
  exact ⟨h.canonical, hl, he, h.index hl hp, show s.bitLength.toNat = _ by omega⟩

end Counting

/-! ## Storing (R112) -/

/-- The engine has absorbed the message `m` since a RESET: its full blocks are compressed in order, the bytes left over stand in the buffer. -/
structure Ingested (m : List Byte) (c : Context) : Prop extends Counted m.length c where
  words : c.H = chain iv (blocks (m.length / 64) m)
  bytes : ∀ k, k < m.length % 64 → c.buf.read k = m.getD (64 * (m.length / 64) + k) 0x00#8

section Storing

variable {m : List Byte} {c : Context}

/-- The bytes of the current block with the next one behind them. -/
theorem Ingested.read_write8 (h : Ingested m c) (b : Byte) {k : Nat} (hk : k ≤ m.length % 64) :
    (c.buf.write8 c.blockIndex.toNat b).read k = (m ++ [b]).getD (64 * (m.length / 64) + k) 0x00#8 := by
  rw [h.index]
  by_cases hlast : k = m.length % 64
  · have hend : 64 * (m.length / 64) + k = m.length := by omega
    rw [hend, hlast, Memory.write8, Memory.read_write_self b h.canonical, List.getD_append_right _ _ _ _ le_rfl, Nat.sub_self]
    rfl
  · have hlt : 64 * (m.length / 64) + k < m.length := by omega
    rw [Memory.write8, Memory.read_write_other _ b hlast, List.getD_append _ _ _ _ hlt, h.bytes k (by omega)]

/-- The byte that completes a block: it is compressed, and nothing is left over. -/
theorem Ingested.words_absorb_full (h : Ingested m c) (b : Byte) (h63 : m.length % 64 = 63) :
    compress c.H (c.buf.write8 c.blockIndex.toNat b).block = chain iv (blocks (m.length / 64 + 1) (m ++ [b])) := by
  have hblock : (c.buf.write8 c.blockIndex.toNat b).block = firstBlock ((m ++ [b]).drop (64 * (m.length / 64))) := by
    apply Vector.ext
    intro k hk
    rw [Memory.block_getElem, h.read_write8 b (by omega), firstBlock_drop _ _ _ hk]
  rw [blocks_succ, chain_append, chain_one, blocks_append _ _ (by omega), hblock, h.words]

theorem Ingested.absorb (h : Ingested m c) (hroom : 8 * (m.length + 1) < 2 ^ 64) (b : Byte) : Ingested (m ++ [b]) (c.absorb b) := by
  have hcounted : Counted (m ++ [b]).length (c.absorb b) := by
    rw [List.length_append]
    exact h.toCounted.absorb hroom b
  have hlength : (m ++ [b]).length = m.length + 1 := List.length_append
  by_cases h63 : m.length % 64 = 63
  · have hdiv : (m.length + 1) / 64 = m.length / 64 + 1 := by omega
    refine ⟨hcounted, ?_, fun k hk => by omega⟩
    rw [hlength, hdiv, ← h.words_absorb_full b h63]
    exact if_pos (h.index.trans h63)
  · have hdiv : (m.length + 1) / 64 = m.length / 64 := by omega
    refine ⟨hcounted, ?_, fun k hk => ?_⟩
    · rw [hlength, hdiv, blocks_append _ _ (by omega), ← h.words]
      exact if_neg (h.index ▸ h63)
    · rw [hlength, hdiv]
      exact h.read_write8 b (by omega)

theorem Ingested.absorbAll {m' : List Byte} (h : Ingested m c) (hroom : 8 * (m ++ m').length < 2 ^ 64) :
    Ingested (m ++ m') (c.absorbAll m') := by
  induction m' generalizing m c with
  | nil => rw [List.append_nil]; exact h
  | cons b rest ih =>
    rw [List.append_cons] at hroom ⊢
    refine ih (h.absorb ?_ b) hroom
    simp only [List.length_append, List.length_cons, List.length_nil] at hroom
    omega

/-- A fresh context holds the empty message (R80). -/
theorem ingested_nil {c : Context} (hw : c.buf.wf = true) (hl : c.life = .reset) (he : c.err = .none) (hH : c.H = iv)
    (hi : c.blockIndex = 0#7) (hb : c.bitLength = 0#64) : Ingested [] c where
  canonical := hw
  life := .inl hl
  err := he
  index := by rw [hi]; rfl
  length := by rw [hb]; rfl
  words := hH
  bytes k hk := absurd hk (Nat.not_lt_zero k)

end Storing

end Sys2Proof.Machine
end

section
/-! The blocks of a finalization are the last blocks of the padded message (spec/43_finalization.md R117 to R120, R124), so its digest words are
those of `SHA1` (spec/44_hash_wrapper.md R130). -/

namespace Sys2Proof.Machine

open Sys2Proof.Safety

/-! ## The padded message, region by region (R124) -/

section Regions

variable (m : List Byte)

theorem padded_getD_message {k : Nat} (hk : k < m.length) : (padded m).getD k 0#8 = m.getD k 0#8 := by
  rw [padded_getD, if_pos hk]

theorem padded_getD_terminator : (padded m).getD m.length 0#8 = padByte := by
  rw [padded_getD, if_neg (Nat.lt_irrefl _), if_pos rfl, padByte]

theorem padded_getD_zeros {k : Nat} (hk : m.length < k) (hk' : k < m.length + 1 + padZeros m.length) : (padded m).getD k 0#8 = 0#8 := by
  rw [padded_getD, if_neg (by omega), if_neg (by omega), if_pos hk']

theorem padded_getD_trailer (j : Fin 8) :
    (padded m).getD (m.length + 1 + padZeros m.length + j.val) 0#8 = unpack64 (BitVec.ofNat 64 (8 * m.length)) j := by
  have hj : m.length + 1 + padZeros m.length + j.val - (m.length + 1 + padZeros m.length) = j.val := by omega
  rw [padded_getD, if_neg (by omega), if_neg (by omega), if_neg (by omega)]
  simp only [hj, j.isLt, dif_pos]

end Regions

/-! ## Buffers that hold a part of a byte list -/

namespace Memory

/-- Offsets 0 to `n - 1` of the buffer hold the bytes of `p` from `start` on. -/
def HoldsFrom (p : List Byte) (start n : Nat) (buf : Memory) : Prop := ∀ k, k < n → buf.read k = p.getD (start + k) 0#8

section Holds

variable {p : List Byte} {start n hi : Nat} {buf : Memory}

theorem HoldsFrom.block_eq (h : HoldsFrom p start 64 buf) : buf.block = firstBlock (p.drop start) := by
  apply Vector.ext
  intro k hk
  rw [block_getElem, firstBlock_drop p start k hk, h k hk]

/-- A zero fill covers zeros of the list (R118). -/
theorem HoldsFrom.zeroFill (h : HoldsFrom p start n buf) (hhi : hi ≤ 64) (hw : buf.wf = true)
    (hzeros : ∀ k, n ≤ k → k < hi → p.getD (start + k) 0#8 = 0#8) : HoldsFrom p start hi (buf.zeroFill n hi) := by
  intro k hk
  rw [read_zeroFill k hw hhi]
  by_cases hn : n ≤ k
  · rw [if_pos ⟨hn, hk⟩, hzeros k hn hk]
  · rw [if_neg (hn ·.1), h k (Nat.lt_of_not_le hn)]

/-- The trailer completes a block (R119). -/
theorem HoldsFrom.write64 (h : HoldsFrom p start 56 buf) (v : BitLength) (hw : buf.wf = true)
    (htrailer : ∀ j : Fin 8, p.getD (start + (56 + j.val)) 0#8 = unpack64 v j) : HoldsFrom p start 64 (buf.write64 56 v) := by
  intro k hk
  by_cases hlt : k < 56
  · rw [read_write64_outside buf v (.inl hlt), h k hlt]
  · obtain ⟨j, rfl⟩ : ∃ j : Fin 8, k = 56 + j.val := ⟨⟨k - 56, by omega⟩, by dsimp only; omega⟩
    rw [read_write64 v j hw (by decide), htrailer j]

end Holds

end Memory

/-! ## The digest words of a finalization -/

section Finalization

variable {m : List Byte} {s : State}

/-- With the terminator stored, the current block holds the padded message up to it (R115). -/
theorem Ingested.holdsFrom_terminated (h : Ingested m s.context) :
    Memory.HoldsFrom (padded m) (64 * (m.length / 64)) (m.length % 64 + 1) (terminated s).buf := by
  intro k hk
  have hread : (terminated s).buf.read k = (m ++ [padByte]).getD (64 * (m.length / 64) + k) 0#8 := h.read_write8 padByte (by omega)
  rw [hread]
  by_cases hlast : k = m.length % 64
  · have hend : 64 * (m.length / 64) + k = m.length := by omega
    rw [hend, padded_getD_terminator, List.getD_append_right _ _ _ _ le_rfl, Nat.sub_self]
    rfl
  · have hlt : 64 * (m.length / 64) + k < m.length := by omega
    rw [padded_getD_message m hlt, List.getD_append _ _ _ _ hlt]

/-- The trailer holds the length of the message in bits (R119, R124). -/
theorem Counted.bitLength_eq {n : Nat} {c : Context} (h : Counted n c) : c.bitLength = BitVec.ofNat 64 (8 * n) := by
  rw [← h.length, BitVec.ofNat_toNat, BitVec.setWidth_eq]

/-- Where the bytes end at `n` in a block with room for the trailer, zeros and trailer fill the block (R118, R119). -/
theorem lastBlock_eq_firstBlock {n start : Nat} {buf : Memory} (h : Memory.HoldsFrom (padded m) start n buf) (hw : buf.wf = true)
    (hn : m.length < start + n) (htrailer : start + 56 = m.length + 1 + padZeros m.length) :
    lastBlock buf n (BitVec.ofNat 64 (8 * m.length)) = firstBlock ((padded m).drop start) := by
  have hzeros := h.zeroFill (hi := 56) (by decide) hw fun k hk hk' => padded_getD_zeros m (k := start + k) (by omega) (by omega)
  refine (hzeros.write64 _ (Memory.wf_zeroFill hw (by decide)) fun j => ?_).block_eq
  rw [← Nat.add_assoc, htrailer, padded_getD_trailer]

/-- R130: finalizing an engine that has absorbed `m` gives the digest words of `m`. -/
theorem finalWords_terminated (h : Ingested m s.context) : finalWords (terminated s) = sha1Words m := by
  have hindex : (terminated s).blockIndex.toNat = m.length % 64 + 1 := by
    rw [toNat_terminated_blockIndex h.index_lt]
    exact congrArg (· + 1) h.index
  have hlength : (terminated s).bitLength = BitVec.ofNat 64 (8 * m.length) := h.bitLength_eq
  have hw : (terminated s).buf.wf = true := wf_terminated h.canonical h.index_lt
  have hwords : (terminated s).H = chain iv (blocks (m.length / 64) (padded m)) := by
    rw [padded, blocks_append _ _ (by omega)]
    exact h.words
  have hholds := h.holdsFrom_terminated
  rw [finalWords, hindex, hlength, hwords, sha1Words, padded_length]
  by_cases hshort : m.length % 64 ≤ 55
  · have hzeros := padZeros_short hshort
    have hcount : (m.length + 9 + padZeros m.length) / 64 = m.length / 64 + 1 := by omega
    rw [if_neg (by omega), hcount, blocks_succ, chain_append, chain_one, lastBlock_eq_firstBlock hholds hw (by omega) (by omega)]
  · have hzeros := padZeros_long hshort
    have hcount : (m.length + 9 + padZeros m.length) / 64 = m.length / 64 + 1 + 1 := by omega
    have hfull := (hholds.zeroFill le_rfl hw fun k hk hk' => padded_getD_zeros m (by omega) (by omega)).block_eq
    have hlast := lastBlock_eq_firstBlock (m := m) (n := 0) (start := 64 * (m.length / 64 + 1))
      (buf := (terminated s).buf.zeroFill (m.length % 64 + 1) 64) nofun (Memory.wf_zeroFill hw le_rfl) (by omega) (by omega)
    rw [if_pos (by omega), hcount, blocks_succ, blocks_succ, chain_append, chain_append, chain_one, chain_one, hfull, hlast]

end Finalization

end Sys2Proof.Machine
end

section
/-! INPUTS on an engine with room (spec/41_ingestion.md R90; spec/44_hash_wrapper.md R137): each INPUT, run until the engine is ready again, leaves the
context that `DoInput` leaves. -/

namespace Sys2Proof.Safety

open Sys2Proof.Machine

section Runs

variable {s t : State}

theorem SameInput.trans {u : State} (h : SameInput s t) (h' : SameInput t u) : SameInput s u := ⟨h'.1.trans h.1, h'.2.trans h.2⟩

/-- A micro-operation touches neither the host's list nor the number of power-ons. -/
theorem sameInput_of_microStep (h : microStep s = .next t) : SameInput s t := by
  by_cases hp : s.phase = .idle
  · rw [microStep, hp] at h
    cases h
    exact ⟨rfl, rfl⟩
  · cases hd : decodeMicro s.phase.code s.t with
    | error e => rw [microStep_of_no_decode hp hd] at h; exact (nomatch h)
    | ok i =>
      rw [microStep_of_decode hd] at h
      exact (execEffect_micro (runPhase_of_decodeMicro hd).1 h).input_unchanged

/-- Run for long enough, an engine with the invariant gets ready (R170). -/
theorem exists_runBusy_idle {n : Nat} (h : Inv s) (hn : busySteps s ≤ n) :
    ∃ t, runBusy n s = .next t ∧ Inv t ∧ t.phase = .idle ∧ SameInput s t := by
  induction n generalizing s with
  | zero =>
    by_cases hp : s.phase = .idle
    · exact ⟨s, rfl, h, hp, rfl, rfl⟩
    · obtain ⟨t, -, -, hless⟩ := microStep_progress h hp
      omega
  | succ n ih =>
    by_cases hp : s.phase = .idle
    · exact ⟨s, runBusy_idle _ hp, h, hp, rfl, rfl⟩
    · obtain ⟨t, ht, hinv, hless⟩ := microStep_progress h hp
      obtain ⟨u, hu, hinvu, hidle, hsame⟩ := ih hinv (by omega)
      exact ⟨u, by rw [runBusy_busy n hp, ht, andThen_next, hu], hinvu, hidle, (sameInput_of_microStep ht).trans hsame⟩

/-- A command issued to an idle engine with the invariant leaves one. -/
theorem inv_of_issue {i : Instr} (h : Inv s) (hp : s.phase = .idle) (hc : i.isCommand = true) (ht : issue (exec i) s = .next t) :
    Inv t ∧ t.phase = .idle ∧ SameInput s t := by
  obtain ⟨u, hu, hinv⟩ := command_progress h hp hc
  obtain ⟨v, hv, hinvv, hidle, hsame⟩ := exists_runBusy_idle hinv (busySteps_le_busyBound u)
  rw [issue_idle _ hp, hu, andThen_next, hv] at ht
  cases ht
  exact ⟨hinvv, hidle, (execEffect_command hc hu).input_unchanged.trans hsame⟩

end Runs

end Sys2Proof.Safety

namespace Sys2Proof.Machine

open Sys2Proof.Safety

section Inputs

variable {s : State} {n : Nat}

theorem issueInputs_cons_exec (b : Byte) (rest : List Byte) (s : State) :
    issueInputs (b :: rest) s = andThen (issue (exec (.input b)) s) (issueInputs rest) := rfl

/-- An INPUT that no test refuses, run until the engine is ready again (R92). -/
theorem exists_issue_input (b : Byte) (h : Inv s) (hp : s.phase = .idle) (hs : screenInput s = .passes) :
    ∃ t, issue (exec (.input b)) s = .next t ∧ t.context = s.context.absorb b := by
  have hi := index_room h hp (screenLife_of_screenInput hs)
  rw [issue_idle _ hp, exec_input_passes b hp hs hi (length_room h hs), andThen_next]
  by_cases h63 : s.blockIndex.toNat = 63
  · rw [if_pos h63]
    obtain ⟨u, hu, -, -, -, hend⟩ := runBusy_compression (s := { absorbed b s with phase := .load }) rfl
    have hidle : u.phase = .idle := by rw [hend]; exact congrArg afterAccum (h.idleFin hp)
    refine ⟨u, runBusy_of_le hu hidle (by decide), ?_⟩
    rw [hend, ← context_compressNow_absorbed b h63]
    rfl
  · rw [if_neg h63]
    exact ⟨_, runBusy_idle _ rfl, context_absorbed b h63⟩

/-- INPUTS with room for its bytes (R137). -/
theorem exists_issueInputs {m : List Byte} (h : Inv s) (hp : s.phase = .idle) (hc : Counted n s.context)
    (hroom : 8 * (n + m.length) < 2 ^ 64) :
    ∃ t, issueInputs m s = .next t ∧ Inv t ∧ t.phase = .idle ∧ SameInput s t ∧ t.context = s.context.absorbAll m := by
  induction m generalizing s n with
  | nil => exact ⟨s, rfl, h, hp, ⟨rfl, rfl⟩, rfl⟩
  | cons b rest ih =>
    rw [List.length_cons] at hroom
    obtain ⟨t, ht, hcontext⟩ := exists_issue_input b h hp (hc.screenInput (by omega))
    obtain ⟨hinv, hidle, hsame⟩ := inv_of_issue h hp rfl ht
    have hct : Counted (n + 1) t.context := hcontext ▸ hc.absorb (by omega) b
    obtain ⟨u, hu, hinvu, hidleu, hsameu, hcontextu⟩ := ih hinv hidle hct (by omega)
    refine ⟨u, ?_, hinvu, hidleu, hsame.trans hsameu, ?_⟩
    · rw [issueInputs_cons_exec, ht, andThen_next, hu]
    · rw [hcontextu, hcontext]
      rfl

/-- `DoInput` of a byte with room, over the context (R85). -/
theorem exists_doInput (b : Byte) (hc : Counted n s.context) (hroom : 8 * (n + 1) < 2 ^ 64) :
    ∃ u, doInput b s = .next u ∧ u.context = s.context.absorb b := by
  have hlength : s.bitLength.toNat = 8 * n := hc.length
  refine ⟨_, doInput_passes b (hc.screenInput hroom) hc.index_lt (by omega), ?_⟩
  by_cases h63 : s.blockIndex.toNat = 63
  · rw [if_pos h63, context_compressNow_absorbed b h63]
  · rw [if_neg h63, context_absorbed b h63]

theorem exists_doInputs {m : List Byte} (hc : Counted n s.context) (hroom : 8 * (n + m.length) < 2 ^ 64) :
    ∃ u, doInputs m s = .next u ∧ u.context = s.context.absorbAll m := by
  induction m generalizing s n with
  | nil => exact ⟨s, rfl, rfl⟩
  | cons b rest ih =>
    rw [List.length_cons] at hroom
    obtain ⟨t, ht, hcontext⟩ := exists_doInput b hc (by omega)
    have hct : Counted (n + 1) t.context := hcontext ▸ hc.absorb (by omega) b
    obtain ⟨u, hu, hcontextu⟩ := ih hct (by omega)
    refine ⟨u, by rw [doInputs, ht, andThen_next, hu], ?_⟩
    rw [hcontextu, hcontext]
    rfl

/-- The last byte leaves the engine ABSORBING (R30). -/
theorem life_absorbAll {c : Context} {m : List Byte} (hm : m ≠ []) : (c.absorbAll m).life = .absorbing := by
  rw [← List.dropLast_append_getLast hm, Context.absorbAll, List.foldl_append]
  rfl

/-- An engine right after RESET has absorbed the empty message, once its digest words are the initial ones. -/
theorem ingested_nil_of_inv (h : Inv s) (hp : s.phase = .idle) (he : s.err = .none) (hl : s.life = .reset) (hH : s.H = iv) :
    Ingested [] s.context := by
  have hlength := h.freshLength hl
  have hindex := h.index (.inl hl) hp
  rw [hlength] at hindex
  exact ingested_nil h.canonical hl he hH (BitVec.eq_of_toNat_eq hindex) hlength

end Inputs

/-- Settles O48: the counts by `Counted`, the words and the bytes by `Ingested`, carried through the bytes of the message. -/
theorem inputsAbsorbTheWholeMessage : Obligations.InputsAbsorbTheWholeMessage := by
  intro s m h hp he hl hroom
  have hc := counted_of_inv h hp he hl
  have hbits : s.bitLength.toNat = 8 * (s.bitLength.toNat / 8) := hc.length
  have hroom' : 8 * (s.bitLength.toNat / 8 + m.length) < 2 ^ 64 := by omega
  obtain ⟨t, ht, hinv, hidle, hsame, hcontext⟩ := exists_issueInputs h hp hc hroom'
  have hct : Counted (s.bitLength.toNat / 8 + m.length) t.context := hcontext ▸ hc.absorbAll hroom'
  have hindex : s.blockIndex.toNat = s.bitLength.toNat / 8 % 64 := hc.index
  refine ⟨t, ht, hinv, hidle, hct.err, fun hm => ?_, fun hm => ?_, ?_, ?_, hsame, fun hreset hH => ?_⟩
  · subst hm
    exact congrArg Context.life hcontext
  · exact (congrArg Context.life hcontext).trans (life_absorbAll hm)
  · exact hct.length.trans (by omega)
  · exact hct.index.trans (by omega)
  · have hingested : Ingested m t.context :=
      hcontext ▸ (ingested_nil_of_inv h hp he hreset hH).absorbAll (m' := m) (by rw [List.nil_append]; omega)
    exact ⟨hingested.words, hingested.bytes⟩

end Sys2Proof.Machine
end

section
/-! HASH (spec/44_hash_wrapper.md R129, R130): RESET, the bytes and RESULT leave one and the same context at both levels, with the digest words of
the message; a message that is too long ends in INPUT_TOO_LARGE. -/

namespace Sys2Proof.Machine

open Sys2Proof.Safety

/-- The context that a finalization leaves, the digest words of `m` in it (R41, R128). -/
def finalizedContext (m : List Byte) : Context where
  H := sha1Words m
  buf := []
  blockIndex := 0#7
  bitLength := 0#64
  life := .finalized
  err := .none

section Hash

variable {s : State} {m : List Byte}

theorem exec_hash_exec (m : List Byte) (s : State) :
    exec (.hash m) s = andThen (issue (exec .reset) s) fun s₁ => andThen (issueInputs m s₁) (issue (exec .result)) := rfl

/-! ## RESET -/

/-- RESET, issued in any phase, leaves an idle engine that has absorbed the empty message (R80). -/
theorem exists_issue_reset (h : Inv s) :
    ∃ t, issue (exec .reset) s = .next t ∧ Inv t ∧ t.phase = .idle ∧ SameInput s t ∧ Ingested [] t.context := by
  obtain ⟨u, hu, hinv, hidle, hsame⟩ := exists_runBusy_idle h (busySteps_le_busyBound s)
  have hinv' := inv_resetWrites hidle hinv
  refine ⟨resetWrites u, ?_, hinv', hidle, hsame, ingested_nil_of_inv hinv' hidle rfl rfl rfl⟩
  rw [issue, hu, andThen_next, exec_reset hidle, andThen_next, runBusy_idle _ (s := resetWrites u) hidle]

/-! ## RESULT -/

/-- A finalization ends right after the last round of its last block (R27). -/
theorem toNat_t_of_finalization {u : State} (hp : s.phase = .zfill) (hf : s.fin = .pad) (hw : s.buf.wf = true)
    (hu : runBusy busyBound s = .next u) : u.t.toNat = 79 := by
  by_cases hfull : 56 < s.blockIndex.toNat
  · obtain ⟨v, hv, h79, -⟩ := runBusy_twoBlocks hp hf hfull hw
    cases hu.symm.trans hv
    exact h79
  · obtain ⟨v, hv, h79, hend⟩ := runBusy_lastBlock hp (Nat.not_lt.1 hfull) hw
    have hidle : v.phase = .idle := by rw [hend]
    cases hu.symm.trans (runBusy_of_le hv hidle (by decide))
    exact h79

/-- RESULT on an engine that has absorbed `m`, run until the engine is ready again (R126). -/
theorem exists_issue_result (hp : s.phase = .idle) (hm : Ingested m s.context) :
    ∃ t, issue (exec .result) s = .next t ∧ t.context = finalizedContext m ∧ t.t.toNat = 79 := by
  have hi := hm.index_lt
  have hw : (finalizing s).buf.wf = true := wf_terminated hm.canonical hi
  obtain ⟨t, ht, hend⟩ := runBusy_finalization (s := finalizing s) rfl rfl hw
  refine ⟨t, ?_, ?_, toNat_t_of_finalization rfl rfl hw ht⟩
  · rw [issue_idle _ hp, exec_result_passes hp (screenLife_passes_of_legal hm.err hm.life) hi, andThen_next, ht]
  · have hwords : finalWords (finalizing s) = sha1Words m := finalWords_terminated hm
    have herr : (finalizing s).err = .none := hm.err
    rw [hend, State.context, finalizedContext, hwords, herr]

theorem exists_doResult (hm : Ingested m s.context) : ∃ u, doResult s = .next u ∧ u.context = finalizedContext m := by
  refine ⟨_, doResult_passes hm.canonical (screenLife_passes_of_legal hm.err hm.life) hm.index_lt, ?_⟩
  have herr : s.err = .none := hm.err
  rw [State.context, finalizedContext, finalWords_terminated hm, herr]

/-! ## HASH of a message that fits -/

theorem Ingested.absorbAll_of_nil {c : Context} (h : Ingested [] c) (hm : m.length ≤ 2 ^ 61 - 1) : Ingested m (c.absorbAll m) :=
  h.absorbAll (by rw [List.nil_append]; omega)

theorem room_of_length (hm : m.length ≤ 2 ^ 61 - 1) : 8 * (0 + m.length) < 2 ^ 64 := by omega

/-- HASH from any state with the invariant, busy ones included (R130). -/
theorem exists_exec_hash (h : Inv s) (hm : m.length ≤ 2 ^ 61 - 1) :
    ∃ t, exec (.hash m) s = .next t ∧ Inv t ∧ t.phase = .idle ∧ SameInput s t ∧ t.context = finalizedContext m ∧ t.t.toNat = 79 := by
  obtain ⟨s₁, h₁, hinv₁, hidle₁, hsame₁, hempty⟩ := exists_issue_reset h
  obtain ⟨s₂, h₂, hinv₂, hidle₂, hsame₂, hcontext⟩ := exists_issueInputs hinv₁ hidle₁ hempty.toCounted (room_of_length hm)
  obtain ⟨t, ht, hfinal, h79⟩ := exists_issue_result hidle₂ (hcontext ▸ hempty.absorbAll_of_nil hm)
  obtain ⟨hinv, hidle, hsame⟩ := inv_of_issue hinv₂ hidle₂ rfl ht
  refine ⟨t, ?_, hinv, hidle, (hsame₁.trans hsame₂).trans hsame, hfinal, h79⟩
  rw [exec_hash_exec, h₁, andThen_next, h₂, andThen_next, ht]

theorem exists_doHash (h : Inv s) (hp : s.phase = .idle) (hm : m.length ≤ 2 ^ 61 - 1) :
    ∃ u, doHash m s = .next u ∧ u.context = finalizedContext m := by
  have hempty : Ingested [] (doReset s).context := ingested_nil_of_inv (inv_resetWrites hp h) hp rfl rfl rfl
  obtain ⟨v, hv, hcontext⟩ := exists_doInputs hempty.toCounted (room_of_length hm)
  obtain ⟨u, hu, hfinal⟩ := exists_doResult (hcontext ▸ hempty.absorbAll_of_nil hm)
  exact ⟨u, by rw [doHash, hv, andThen_next, hu], hfinal⟩

theorem digestValid_of_finalizedContext (hp : s.phase = .idle) (hc : s.context = finalizedContext m) : s.digestValid = true :=
  (digestValid_iff s).2 ⟨congrArg Context.life hc, congrArg Context.err hc, hp⟩

theorem digest_of_finalizedContext (hp : s.phase = .idle) (hc : s.context = finalizedContext m) : s.digest = some (sha1 m) := by
  have hwords : s.H = sha1Words m := congrArg Context.H hc
  rw [digest_of_valid (digestValid_of_finalizedContext hp hc), hwords, sha1]

/-! ## HASH of a message that is too long (R88, R145) -/

/-- With an error recorded, INPUT and RESULT leave an idle engine as it is. -/
theorem issue_refused {i : Instr} (hp : s.phase = .idle) (he : s.err ≠ .none) (hi : (∃ b, i = .input b) ∨ i = .result) :
    issue (exec i) s = .next s := by
  have hrefused : exec i s = .next s := by
    rcases hi with ⟨b, rfl⟩ | rfl
    · rw [exec_input b hp, screenInput_silent.2 he, screened_silent]
    · rw [exec_result hp, screenLife_silent.2 he, screened_silent]
  rw [issue_idle _ hp, hrefused, andThen_next, runBusy_idle _ hp]

theorem issueInputs_refused (hp : s.phase = .idle) (he : s.err ≠ .none) : issueInputs m s = .next s := by
  induction m with
  | nil => rfl
  | cons b rest ih => rw [issueInputs_cons_exec, issue_refused hp he (.inl ⟨b, rfl⟩), andThen_next, ih]

/-- The byte for which the length has no room left. -/
theorem issue_input_tooLarge (b : Byte) (hp : s.phase = .idle) (hc : Counted (2 ^ 61 - 1) s.context) :
    issue (exec (.input b)) s = .next (raiseError s .inputTooLarge) := by
  have hmax : s.bitLength = maxBitLength := BitVec.eq_of_toNat_eq hc.length
  have hraises := screenInput_raises.2 ⟨hc.err, .inr ⟨(lifeLegal_iff _).2 hc.life, hmax, rfl⟩⟩
  rw [issue_idle _ hp, exec_input b hp, hraises, screened_raises, andThen_next,
    runBusy_idle _ (s := raiseError s .inputTooLarge) hp]

theorem exists_exec_hash_tooLarge (h : Inv s) (hm : 2 ^ 61 ≤ m.length) :
    ∃ t, exec (.hash m) s = .next t ∧ t.err = .inputTooLarge ∧ t.bitLength.toNat = 2 ^ 64 - 8 := by
  obtain ⟨s₁, h₁, hinv₁, hidle₁, -, hempty⟩ := exists_issue_reset h
  have hfits : (m.take (2 ^ 61 - 1)).length = 2 ^ 61 - 1 := by rw [List.length_take]; omega
  obtain ⟨s₂, h₂, hinv₂, hidle₂, -, hcontext⟩ := exists_issueInputs hinv₁ hidle₁ hempty.toCounted (room_of_length hfits.le)
  have hcounted : Counted (2 ^ 61 - 1) s₂.context := by
    have hingested := hempty.absorbAll_of_nil hfits.le
    rw [← hcontext] at hingested
    exact hfits ▸ hingested.toCounted
  obtain ⟨b, rest, hrest⟩ : ∃ b rest, m.drop (2 ^ 61 - 1) = b :: rest :=
    List.exists_cons_of_length_pos (by rw [List.length_drop]; omega)
  have hidle : (raiseError s₂ .inputTooLarge).phase = .idle := hidle₂
  have herr : (raiseError s₂ .inputTooLarge).err ≠ .none := nofun
  refine ⟨raiseError s₂ .inputTooLarge, ?_, rfl, hcounted.length⟩
  rw [exec_hash_exec, h₁, andThen_next, ← List.take_append_drop (2 ^ 61 - 1) m, issueInputs_append, h₂, andThen_next, hrest,
    issueInputs_cons_exec, issue_input_tooLarge b hidle₂ hcounted, andThen_next, issueInputs_refused hidle herr, andThen_next,
    issue_refused hidle herr (.inr rfl)]

end Hash

/-- Settles O49: RESET leaves the empty message absorbed, the INPUTs the whole one, and RESULT its digest words. -/
theorem hashComputesSha1 : Obligations.HashComputesSha1 := by
  intro s m h hm
  obtain ⟨t, ht, hinv, hidle, hsame, hcontext, h79⟩ := exists_exec_hash h hm
  have hbuf : t.buf = [] := congrArg Context.buf hcontext
  exact ⟨t, ht, digest_of_finalizedContext hidle hcontext, digestValid_of_finalizedContext hidle hcontext, congrArg Context.H hcontext,
    fun k => by rw [hbuf, Memory.read_nil], congrArg Context.bitLength hcontext, congrArg Context.blockIndex hcontext,
    congrArg Context.life hcontext, congrArg Context.err hcontext, hinv.idleFin hidle, hidle, h79, hsame⟩

/-- Settles O50: both levels end in `finalizedContext`; the byte without room raises the error, and no later command clears it. -/
theorem hashRefinesDoHash : Obligations.HashRefinesDoHash := by
  intro s m h hp
  refine ⟨?words, fun hm => ?fits, fun hm => ?tooLarge⟩
  case words => rw [words_hash, words_inputs]
  case fits =>
    obtain ⟨t, ht, -, hidle, -, hcontext, -⟩ := exists_exec_hash h hm
    obtain ⟨u, hu, hcontextu⟩ := exists_doHash h hp hm
    exact ⟨t, u, ht, hu, hcontext.trans hcontextu.symm, congrArg Context.err hcontext, digestValid_of_finalizedContext hidle hcontext⟩
  case tooLarge =>
    obtain ⟨t, ht, herr, hbits⟩ := exists_exec_hash_tooLarge h hm
    have hvalid : t.digestValid = false := by rw [State.digestValid, herr]; simp
    exact ⟨t, ht, herr, hvalid, hbits⟩

end Sys2Proof.Machine
end

section
/-! HASH on the port (spec/44_hash_wrapper.md R129, R131, R134): a host that keeps the words presented drives an idle engine through HASH in the number
of steps that R169 states, and a power-on step leaves an engine on which it may do so. -/

namespace Sys2Proof.Machine

open Sys2Proof.Safety

/-! ## One word and its busy period -/

/-- The engine is busy for exactly `k` micro-operations, which end in `t`. -/
structure BusyFor (k : Nat) (s t : State) : Prop where
  ends : runBusy k s = .next t
  idle : t.phase = .idle
  busy : ∀ j, j < k → ∃ v, runBusy j s = .next v ∧ v.phase ≠ .idle

section Word

variable {s t u : State} {k : Nat} {ws : List CmdWord}

theorem BusyFor.of_idle (hp : s.phase = .idle) : BusyFor 0 s s := ⟨rfl, hp, fun j hj => absurd hj (Nat.not_lt_zero j)⟩

/-- The compression that an INPUT starts (R111). -/
theorem exists_busyFor_compression (hp : s.phase = .load) (hf : s.fin = .none) : ∃ t, BusyFor 82 s t := by
  obtain ⟨t, ht, -, -, -, hend⟩ := runBusy_compression hp
  refine ⟨t, ht, by rw [hend, hf]; rfl, fun j hj => ?_⟩
  obtain ⟨v, hv, hphase, -⟩ := runBusy_compressionPhase hp hj
  exact ⟨v, hv, hphase ▸ compressionPhase_ne_idle j⟩

/-- The finalization that a RESULT starts (R126). -/
theorem exists_busyFor_finalizing (hi : s.blockIndex.toNat < 64) : ∃ t, BusyFor (finalizationPhases s).length (finalizing s) t := by
  obtain ⟨t, ht, hidle⟩ := passesThrough_finalizationPhases hi
  refine ⟨t, ht.ends, hidle, fun j hj => ?_⟩
  obtain ⟨v, hv, hphase⟩ := ht.passes j hj
  exact ⟨v, hv, fun hv' => idle_not_mem_finalizationPhases s (hv' ▸ List.mem_of_getElem? hphase)⟩

/-- With only kept words on the port, the steps of a busy period are its micro-operations. -/
theorem BusyFor.stepN_eq (h : BusyFor k s t) (ws : List CmdWord) :
    stepN k { s with host := ws.map .present } = .next { t with host := ws.map .present } := by
  have hstill : Still { s with host := ws.map .present } := by
    cases ws with
    | nil => exact .inl rfl
    | cons w rest => exact .inr ⟨w, rest.map .present, rfl⟩
  rw [stepN_still hstill fun j hj => ?_, blind_runBusy k s, h.ends, withHost_next]
  obtain ⟨v, hv, hbusy⟩ := h.busy j hj
  exact ⟨{ v with host := ws.map .present }, by rw [blind_runBusy j s, hv, withHost_next], hbusy⟩

/-- A word kept on the port of an idle engine does in one step and its busy period what its command, issued, does. -/
theorem stepN_word {i : Instr} {w : CmdWord} (hp : s.phase = .idle) (hw : decodeCmd w = i) (hh : s.host = (w :: ws).map .present)
    (hexec : exec i s = .next u) {v : State} (hbusy : BusyFor k u v) (hk : k ≤ busyBound) (ht : issue (exec i) s = .next t) :
    stepN (k + 1) s = .next { t with host := ws.map .present } := by
  subst hw
  rw [issue_idle _ hp, hexec, andThen_next, runBusy_of_le hbusy.ends hbusy.idle hk] at ht
  cases ht
  rw [stepN_succ, step_idle_present hp hh, blind_command (isCommand_decodeCmd w) s, hexec, withHost_next, andThen_next, hbusy.stepN_eq]

end Word

/-! ## The words of HASH -/

section Words

variable {s t : State} {ws : List CmdWord}

theorem stepN_resetWord (hp : s.phase = .idle) (hh : s.host = (0x100#10 :: ws).map .present) (ht : issue (exec .reset) s = .next t) :
    stepN 1 s = .next { t with host := ws.map .present } :=
  stepN_word hp (decodeCmd_reset (by decide)) hh (exec_reset hp) (.of_idle (s := resetWrites s) hp) (Nat.zero_le _) ht

/-- An INPUT word: one step, and the 82 of a compression when it fills the buffer (R92, R111). -/
theorem stepN_inputWord {b : Byte} (h : Inv s) (hp : s.phase = .idle) (hs : screenInput s = .passes)
    (hh : s.host = ((0x200#10 + b.setWidth 10) :: ws).map .present) (ht : issue (exec (.input b)) s = .next t) :
    stepN ((if s.blockIndex.toNat = 63 then 82 else 0) + 1) s = .next { t with host := ws.map .present } := by
  have haccept := exec_input_passes b hp hs (index_room h hp (screenLife_of_screenInput hs)) (length_room h hs)
  obtain ⟨u, hu⟩ : ∃ u, BusyFor (if s.blockIndex.toNat = 63 then 82 else 0)
      { absorbed b s with phase := if s.blockIndex.toNat = 63 then .load else .idle } u := by
    split
    · exact exists_busyFor_compression rfl (h.idleFin hp)
    · exact ⟨_, .of_idle rfl⟩
  exact stepN_word hp (decodeCmd_inputWord b) hh haccept hu (by split <;> decide) ht

/-- RESULT's word: one step, and the finalization over one block or two (R126). -/
theorem stepN_resultWord (hp : s.phase = .idle) (hs : screenLife s = .passes) (hi : s.blockIndex.toNat < 64)
    (hh : s.host = [.present 0x300#10]) (ht : issue (exec .result) s = .next t) :
    stepN ((finalizationPhases s).length + 1) s = .next { t with host := [] } := by
  obtain ⟨u, hu⟩ := exists_busyFor_finalizing hi
  exact stepN_word (ws := []) hp (decodeCmd_result (by decide)) hh (exec_result_passes hp hs hi) hu (length_finalizationPhases_le s) ht

/-- The INPUT words of a message with room: one step a byte, and one compression a block (R169). -/
theorem stepN_inputWords {m : List Byte} {n : Nat} (h : Inv s) (hp : s.phase = .idle) (hc : Counted n s.context)
    (hroom : 8 * (n + m.length) < 2 ^ 64) (hh : s.host = ((Instr.inputs m).words ++ ws).map .present)
    (ht : issueInputs m s = .next t) :
    stepN (m.length + 82 * ((n % 64 + m.length) / 64)) s = .next { t with host := ws.map .present } := by
  induction m generalizing s n t with
  | nil =>
    cases ht
    have hsteps : ([] : List Byte).length + 82 * ((n % 64 + ([] : List Byte).length) / 64) = 0 := by rw [List.length_nil]; omega
    have hhost : s.host = ws.map .present := hh
    rw [hsteps, stepN_zero, ← hhost]
  | cons b rest ih =>
    rw [List.length_cons] at hroom
    have hs := hc.screenInput (by omega)
    obtain ⟨u, hu, hcontext⟩ := exists_issue_input b h hp hs
    obtain ⟨hinv, hidle, -⟩ := inv_of_issue h hp rfl hu
    rw [issueInputs_cons_exec, hu, andThen_next] at ht
    have hcu : Counted (n + 1) u.context := hcontext ▸ hc.absorb (by omega) b
    have hwords : (Instr.inputs (b :: rest)).words ++ ws = (0x200#10 + b.setWidth 10) :: ((Instr.inputs rest).words ++ ws) := by
      rw [words_inputs, words_inputs]; rfl
    have hfirst := stepN_inputWord h hp hs (hwords ▸ hh) hu
    have hrest := ih (s := { u with host := ((Instr.inputs rest).words ++ ws).map .present })
      (inv_withHost hinv _) hidle hcu (by omega) rfl (by rw [blind_issueInputs rest u, ht, withHost_next])
    have hindex : s.blockIndex.toNat = n % 64 := hc.index
    have hsteps : (b :: rest).length + 82 * ((n % 64 + (b :: rest).length) / 64) =
        (if s.blockIndex.toNat = 63 then 82 else 0) + 1 + (rest.length + 82 * (((n + 1) % 64 + rest.length) / 64)) := by
      rw [List.length_cons, hindex]
      split <;> omega
    rw [hsteps, stepN_add, hfirst, andThen_next, hrest]

/-- How long RESULT takes after `n` bytes (R169). -/
theorem hashSteps_eq {n : Nat} (hc : Counted n s.context) :
    hashSteps n = 1 + (n + 82 * (n / 64)) + ((finalizationPhases s).length + 1) := by
  have hindex : s.blockIndex.toNat = n % 64 := hc.index
  unfold hashSteps
  by_cases hroom : n % 64 ≤ 55
  · rw [if_pos hroom, length_finalizationPhases_of_room (by omega)]
    omega
  · rw [if_neg hroom, length_finalizationPhases_of_full (by omega)]
    omega

/-- The words of HASH do on the port what HASH does, in the stated number of steps (R129, R169). -/
theorem stepN_hashWords {m : List Byte} (h : Inv s) (hp : s.phase = .idle) (hm : m.length ≤ 2 ^ 61 - 1)
    (hh : s.host = (Instr.hash m).words.map .present) (ht : exec (.hash m) s = .next t) :
    stepN (hashSteps m.length) s = .next { t with host := [] } := by
  obtain ⟨s₁, h₁, hinv₁, hidle₁, -, hempty⟩ := exists_issue_reset h
  obtain ⟨s₂, h₂, -, hidle₂, -, hcontext⟩ := exists_issueInputs hinv₁ hidle₁ hempty.toCounted (room_of_length hm)
  have hm₂ : Ingested m s₂.context := hcontext ▸ hempty.absorbAll_of_nil hm
  rw [exec_hash_exec, h₁, andThen_next, h₂, andThen_next] at ht
  have hreset := stepN_resetWord hp (words_hash m ▸ hh) h₁
  have hinputs := stepN_inputWords (s := { s₁ with host := ((Instr.inputs m).words ++ [0x300#10]).map .present }) (ws := [0x300#10])
    (inv_withHost hinv₁ _) hidle₁ hempty.toCounted (room_of_length hm) rfl (by rw [blind_issueInputs m s₁, h₂, withHost_next])
  have hresult := stepN_resultWord (s := { s₂ with host := [.present 0x300#10] }) hidle₂
    (screenLife_passes_of_legal hm₂.err hm₂.life) hm₂.index_lt rfl (by rw [blind_issue (blind_command rfl) s₂, ht, withHost_next])
  have hcount : ([] : List Byte).length % 64 + m.length = m.length := Nat.zero_add _
  rw [hcount] at hinputs
  rw [hashSteps_eq hm₂.toCounted, stepN_add, stepN_add, hreset, andThen_next, hinputs, andThen_next]
  exact hresult

end Words

/-- Settles O53: the power-on step gives the invariant, the words of HASH then do HASH, and HASH gives the digest. -/
theorem powerOnContentsDoNotMatter : Obligations.PowerOnContentsDoNotMatter := by
  intro s m hh hm
  have hinv : Inv (powerOnStep { s with host := (Instr.hash m).words.map .present }) := inv_powerOnStep _
  obtain ⟨t, ht, -, hidle, -, hcontext, -⟩ := exists_exec_hash hinv hm
  refine ⟨{ t with host := [] }, ?_, digest_of_finalizedContext (s := { t with host := [] }) hidle hcontext, rfl⟩
  rw [Nat.add_comm, stepN_succ, step_powerOn hh, andThen_next, stepN_hashWords hinv rfl hm rfl ht]

end Sys2Proof.Machine
end

section
/-! The recorded errors (spec/60_exceptions.md R138 to R147): what the tests of INPUT and RESULT decide, that the first error stays until RESET or
power-on, and that no state with the invariant stops. -/

namespace Sys2Proof.Machine

open Sys2Proof.Safety

section Errors

variable {s t : State} {i : Instr}

/-! ## The tests in their order (R142) -/

/-- While an error is recorded no command but RESET changes anything (R142 test 1, R145). -/
theorem exec_of_recorded_error (hp : s.phase = .idle) (he : s.err ≠ .none) (hc : i.isCommand = true) (hreset : i ≠ .reset) :
    exec i s = .next s := by
  cases i with
  | nop => exact exec_nop s
  | reset => exact absurd rfl hreset
  | input b => rw [exec_input b hp, screenInput_silent.2 he, screened_silent]
  | result => rw [exec_result hp, screenLife_silent.2 he, screened_silent]
  | _ => exact absurd hc Bool.false_ne_true

/-- INPUT and RESULT where the life is not theirs (R142 test 2, R140). -/
theorem exec_of_illegal_life (hp : s.phase = .idle) (he : s.err = .none) (hl : lifeLegal s.life = false)
    (hi : (∃ b, i = .input b) ∨ i = .result) : exec i s = .next (raiseError s .usage) := by
  rcases hi with ⟨b, rfl⟩ | rfl
  · rw [exec_input b hp, screenInput_raises.2 ⟨he, .inl ⟨hl, rfl⟩⟩, screened_raises]
  · rw [exec_result hp, screenLife_raises.2 ⟨he, hl, rfl⟩, screened_raises]

/-- The condition of INPUT_TOO_LARGE is what test 3 leaves of the tests before it (R141, R142). -/
theorem screenInput_raises_tooLarge_iff :
    screenInput s = .raises .inputTooLarge ↔ s.err = .none ∧ (s.life = .reset ∨ s.life = .absorbing) ∧ s.bitLength = maxBitLength := by
  simp [screenInput_raises, lifeLegal_iff]

/-- An INPUT comes out of an idle engine without an error with INPUT_TOO_LARGE only by raising it. -/
theorem err_tooLarge_of_exec_input_iff {b : Byte} (hp : s.phase = .idle) (he : s.err = .none) (h : exec (.input b) s = .next t) :
    t.err = .inputTooLarge ↔ screenInput s = .raises .inputTooLarge := by
  cases execEffect_input hp h with
  | busy _ hbusy => exact absurd hp hbusy
  | inputRefused _ _ hs => exact absurd he (screenInput_silent.1 hs)
  | inputRaises _ _ hs => simp [hs]
  | inputAbsorbs _ _ hs => simp [hs, he]
  | round hr => cases hr

/-! ## The first error stays (R146, R147) -/

/-- A recorded error outlives every instruction but a RESET that an idle engine accepts: INPUT and RESULT raise nothing over it. -/
theorem ExecEffect.err_of_recorded_error (h : ExecEffect s i t) (he : s.err ≠ .none) (hreset : s.phase = .idle → i ≠ .reset) :
    t.err = s.err := by
  cases h with
  | reset hp => exact absurd rfl (hreset hp)
  | inputRaises _ _ hs => exact absurd (screenInput_raises.1 hs).1 he
  | resultRaises _ hs => exact absurd (screenLife_raises.1 hs).1 he
  | round => exact roundAt_err ..
  | _ => rfl

/-! ## No state with the invariant stops (R138, R170) -/

/-- One step from the invariant: the power-on step, nothing, a command's accept step, or a micro-operation. -/
theorem step_progress (h : Inv s) : ∃ t, step s = .next t ∧ Inv t := by
  have hnext : ∃ t, step s = .next t := by
    by_cases hp : s.phase = .idle
    · have hcommand (w : CmdWord) (rest : List HostEvent) : ∃ t, exec (decodeCmd w) { s with host := rest } = .next t := by
        obtain ⟨t, ht, -⟩ := command_progress (inv_withHost h rest) hp (isCommand_decodeCmd w)
        exact ⟨t, ht⟩
      cases hh : s.host with
      | nil => exact ⟨_, step_idle_nil hp hh⟩
      | cons e rest =>
        cases e with
        | present w => rw [step_idle_present hp hh]; exact hcommand w rest
        | offer w => rw [step_idle_offer hp hh]; exact hcommand w rest
        | quiet => exact ⟨_, step_idle_quiet hp hh⟩
        | powerOn => exact ⟨_, step_powerOn hh⟩
    · cases hrst : s.edge.rst with
      | true =>
        obtain ⟨rest, hh⟩ := edge_rst_eq_true hrst
        exact ⟨_, step_powerOn hh⟩
      | false =>
        obtain ⟨t, ht, -⟩ := microStep_progress (s := s.afterEdge) (inv_withHost h _) hp
        exact ⟨t, by rw [step_of_busy hrst hp, ht]⟩
  obtain ⟨t, ht⟩ := hnext
  exact ⟨t, ht, everyStepKeepsTheInvariant s t h ht⟩

end Errors

/-- Settles O40: by induction on the number of steps, each of which goes on and keeps the invariant. -/
theorem invariantStatesNeverStop : Obligations.InvariantStatesNeverStop := by
  intro s h n
  induction n generalizing s with
  | zero => exact ⟨s, stepN_zero s, h⟩
  | succ n ih =>
    obtain ⟨s₁, hstep, h₁⟩ := step_progress h
    rw [stepN_succ, hstep, andThen_next]
    exact ih s₁ h₁

/-- Settles O23: an INPUT by what its tests decide; a RESULT raises nothing but USAGE. -/
theorem onlyInputRaisesInputTooLarge : Obligations.OnlyInputRaisesInputTooLarge := by
  refine ⟨fun s t b hp hexec => ?input, fun s t hexec htooLarge => ?result⟩
  case input =>
    have hraised (he : s.err = .none) := (err_tooLarge_of_exec_input_iff hp he hexec).trans screenInput_raises_tooLarge_iff
    exact ⟨fun ⟨he, htooLarge⟩ => (hraised he).1 htooLarge, fun ⟨he, hmax⟩ => ⟨he, (hraised he).2 ⟨he, hmax⟩⟩⟩
  case result =>
    cases execEffect_command rfl hexec with
    | resultRaises _ hs =>
      obtain ⟨-, -, rfl⟩ := screenLife_raises.1 hs
      cases htooLarge
    | round hr => cases hr
    | busy | resultRefused | resultStarts => exact htooLarge

/-- Settles O25: a step without `rst` runs nothing or one instruction, and that instruction is no accepted RESET. -/
theorem firstErrorIsKeptUntilReset : Obligations.FirstErrorIsKeptUntilReset := by
  intro s s' hstep he hrst hno
  cases stepEffect_of_step hstep with
  | powerOn hh => exact absurd hh (hrst _)
  | nothing => exact afterEdge_err s
  | run _ hh heffect => exact heffect.err_of_recorded_error he fun hp hreset => hno hp (hreset ▸ hh hp)

/-- Settles O22: test by test, in their order. -/
theorem firstFailingTestDecides : Obligations.FirstFailingTestDecides := by
  intro s b hp
  refine ⟨fun he => ?recorded, fun he hl => ?life, fun he hl hmax => ?tooLarge, fun he hl hi => ?passes⟩
  case recorded => exact ⟨exec_of_recorded_error hp he rfl nofun, exec_of_recorded_error hp he rfl nofun⟩
  case life =>
    have hillegal : lifeLegal s.life = false := by rcases hl with hl | hl <;> rw [hl] <;> rfl
    exact ⟨exec_of_illegal_life hp he hillegal (.inl ⟨b, rfl⟩), exec_of_illegal_life hp he hillegal (.inr rfl)⟩
  case tooLarge =>
    rw [exec_input b hp, screenInput_raises_tooLarge_iff.2 ⟨he, hl, hmax⟩, screened_raises, raiseError]
  case passes =>
    have hi' : s.blockIndex.toNat < 64 := Nat.lt_succ_of_le hi
    exact ⟨⟨_, exec_result_passes hp (screenLife_passes_of_legal he hl) hi', he, rfl⟩,
      fun hroom => ⟨_, exec_input_passes b hp (screenInput_passes_of_room he hl hroom) hi' hroom, he, rfl⟩⟩

/-- Settles O24: by `exec_of_recorded_error`, on the engine itself and behind the port. -/
theorem recordedErrorRefusesAllButReset : Obligations.RecordedErrorRefusesAllButReset := by
  intro s b hp he
  refine ⟨exec_of_recorded_error hp he rfl nofun, exec_of_recorded_error hp he rfl nofun, exec_nop s, (cmdReady_iff s).2 hp, ?invalid,
    ⟨resetWrites s, exec_reset hp, rfl, rfl, rfl, rfl, rfl, hp⟩, fun w rest hh hw => ?port⟩
  case invalid =>
    refine Bool.eq_false_iff.2 fun hvalid => ?_
    obtain ⟨-, hnone, -⟩ := (digestValid_iff s).1 hvalid
    exact he hnone
  case port =>
    rw [step_idle_present hp hh]
    exact exec_of_recorded_error (s := { s with host := rest }) hp he (isCommand_decodeCmd w) hw

end Sys2Proof.Machine
end

section
/-! The power-on step, and the end of every busy period (spec/70_reset_and_hazards.md R156, R170). -/

namespace Sys2Proof.Machine

open Sys2Proof.Safety

/-- While `rst` stays low a busy engine gets ready in `busySteps` steps, whatever else the host does. -/
theorem exists_stepN_busySteps {s : State} (h : Inv s) (hrst : .powerOn ∉ s.host) :
    ∃ t, stepN (busySteps s) s = .next t ∧ t.phase = .idle := by
  induction hn : busySteps s generalizing s with
  | zero =>
    refine ⟨s, rfl, by_contra fun hp => ?_⟩
    obtain ⟨t, -, -, hless⟩ := microStep_progress h hp
    omega
  | succ n ih =>
    have hp : s.phase ≠ .idle := fun hp => by simp [busySteps, hp] at hn
    have hlow : s.edge.rst = false := edge_rst_eq_false fun rest hh => hrst (by simp [hh])
    obtain ⟨t, ht, hinv, hless⟩ := microStep_progress h hp
    have hrst' : .powerOn ∉ hostAfter false s.host := fun he => hrst ((hostAfter_suffix false s.host).subset he)
    have hn' : busySteps { t with host := hostAfter false s.host } = n := Nat.succ.inj (hless.trans hn)
    rw [stepN_succ, step_busy hlow hp, ht]
    exact ih (inv_withHost hinv _) hrst' hn'

/-- Settles O41: after `busySteps` steps, which are at most 168. -/
theorem everyBusyPeriodEnds : Obligations.EveryBusyPeriodEnds := by
  intro s h _ hrst
  obtain ⟨t, ht, hidle⟩ := exists_stepN_busySteps h fun he => hrst _ he rfl
  exact ⟨busySteps s, t, busySteps_le_busyBound s, ht, hidle⟩

/-- Settles O17: the registers that the power-on step writes, and the outputs as functions of them. -/
theorem powerOnStepLeavesTheEngineUninitialized : Obligations.PowerOnStepLeavesTheEngineUninitialized := by
  intro s rest hh
  have hinvalid : (powerOnStep { s with host := rest }).digestValid = false := rfl
  exact ⟨_, step_powerOn hh, rfl, rfl, rfl, rfl, rfl, rfl, hinvalid, rfl, rfl, digest_of_not_valid hinvalid⟩

end Sys2Proof.Machine
end

section
/-! HASH on the port takes the stated number of steps and no fewer (spec/70_reset_and_hazards.md R169): one step before the end the engine is still
busy with RESULT, and an engine that is idle with no word waiting would have stayed so. -/

namespace Sys2Proof.Machine

open Sys2Proof.Safety

section Finished

variable {s v : State}

theorem stepN_idle_nil (n : Nat) (hp : s.phase = .idle) (hh : s.host = []) : stepN n s = .next s := by
  induction n with
  | zero => rfl
  | succ n ih => rw [stepN_succ, step_idle_nil hp hh, andThen_next, ih]

/-- Up to a busy state the engine was busy or a word was waiting. -/
theorem unfinished_of_busy_later {j k : Nat} (hk : stepN k s = .next v) (hv : v.phase ≠ .idle) (hjk : j ≤ k) :
    ∃ u, stepN j s = .next u ∧ (u.host ≠ [] ∨ u.phase ≠ .idle) := by
  obtain ⟨d, rfl⟩ := Nat.exists_eq_add_of_le hjk
  rw [stepN_add] at hk
  obtain ⟨u, hu, hrest⟩ := andThen_eq_next.1 hk
  refine ⟨u, hu, not_and_or.1 fun ⟨hh, hp⟩ => ?_⟩
  rw [stepN_idle_nil d hp hh] at hrest
  cases hrest
  exact hv hp

end Finished

section HashWords

variable {s : State} {m : List Byte}

theorem blind_hash (m : List Byte) : Blind (exec (.hash m)) :=
  blind_andThen (blind_issue (blind_command (i := .reset) rfl))
    (blind_andThen (blind_issueInputs m) (blind_issue (blind_command (i := .result) rfl)))

/-- RESET's word and those of the INPUTs leave the message absorbed and RESULT's word on the port. -/
theorem exists_stepN_beforeResult (h : Inv s) (hp : s.phase = .idle) (hm : m.length ≤ 2 ^ 61 - 1)
    (hh : s.host = (Instr.hash m).words.map .present) :
    ∃ u, stepN (1 + (m.length + 82 * (m.length / 64))) s = .next u ∧ Inv u ∧ u.phase = .idle ∧ u.host = [.present 0x300#10] ∧
      Ingested m u.context := by
  obtain ⟨s₁, h₁, hinv₁, hidle₁, -, hempty⟩ := exists_issue_reset h
  obtain ⟨s₂, h₂, hinv₂, hidle₂, -, hcontext⟩ := exists_issueInputs hinv₁ hidle₁ hempty.toCounted (room_of_length hm)
  have hreset := stepN_resetWord hp (words_hash m ▸ hh) h₁
  have hinputs := stepN_inputWords (s := { s₁ with host := ((Instr.inputs m).words ++ [0x300#10]).map .present }) (ws := [0x300#10])
    (inv_withHost hinv₁ _) hidle₁ hempty.toCounted (room_of_length hm) rfl (by rw [blind_issueInputs m s₁, h₂, withHost_next])
  rw [List.length_nil, Nat.zero_mod, Nat.zero_add] at hinputs
  exact ⟨{ s₂ with host := [.present 0x300#10] }, by rw [stepN_add, hreset, andThen_next, hinputs]; rfl, inv_withHost hinv₂ _, hidle₂, rfl,
    hcontext ▸ hempty.absorbAll_of_nil hm⟩

/-- One step before the end the engine is in the last phase of its finalization. -/
theorem exists_stepN_hashWords_busy (h : Inv s) (hp : s.phase = .idle) (hm : m.length ≤ 2 ^ 61 - 1)
    (hh : s.host = (Instr.hash m).words.map .present) :
    ∃ v, stepN (hashSteps m.length - 1) s = .next v ∧ v.phase ≠ .idle := by
  obtain ⟨u, hu, hinv, hidle, hhost, hingested⟩ := exists_stepN_beforeResult h hp hm hh
  obtain ⟨-, -, hpasses, -⟩ := resultStepsRefineDoResult u hinv hidle hingested.err hingested.life hhost
  have hlast : (finalizationPhases u).length - 1 < (finalizationPhases u).length := by
    unfold finalizationPhases
    split <;> decide
  obtain ⟨v, hv, hphase⟩ := hpasses _ hlast
  refine ⟨v, ?_, fun hp' => idle_not_mem_finalizationPhases u (hp' ▸ List.mem_of_getElem? hphase)⟩
  have hsteps : hashSteps m.length - 1 = 1 + (m.length + 82 * (m.length / 64)) + (1 + ((finalizationPhases u).length - 1)) := by
    rw [hashSteps_eq hingested.toCounted]
    omega
  rw [hsteps, stepN_add, hu, andThen_next, hv]

end HashWords

/-- Settles O51: the state by `stepN_hashWords`, the count from below by the busy state one step before. -/
theorem hashOnThePortTakesTheStatedSteps : Obligations.HashOnThePortTakesTheStatedSteps := by
  intro s m h hp hh hm
  have hinv : Inv (s.presentWords (Instr.hash m).words) := inv_withHost h _
  have hwords : (s.presentWords (Instr.hash m).words).host = (Instr.hash m).words.map .present := by
    rw [presentWords_host, hh, List.nil_append]
  refine ⟨?same, fun k hk => ?unfinished⟩
  case same =>
    obtain ⟨t, ht, -, -, ⟨hhost, -⟩, -⟩ := exists_exec_hash h hm
    have hexec : exec (.hash m) (s.presentWords (Instr.hash m).words) = _ := blind_hash m s _
    rw [ht, withHost_next] at hexec
    have hdone := stepN_hashWords hinv hp hm hwords hexec
    have ht' : ({ t with host := [] } : State) = t := by rw [← hhost.trans hh]
    exact hdone.trans ((congrArg Host.Outcome.next ht').trans ht.symm)
  case unfinished =>
    obtain ⟨v, hv, hbusy⟩ := exists_stepN_hashWords_busy hinv hp hm hwords
    exact unfinished_of_busy_later hv hbusy (Nat.le_sub_one_of_lt hk)

end Sys2Proof.Machine
end
